-- ==== Sys2Proof/Config.lean ====
section
/-! DEFINITION. The implementation parameters of 00_scope.md R6: the store sizes, the word width and
the open parameter, each a named constant. The tables `RSBLK` and `ALIGNPOS` of R6 are configuration too; they stand with the other
tables of 10_state.md R27 and R28 in Machine/Tables.lean. -/

namespace Sys2Proof.Config

/-- `PAYLOAD_MAX`: bytes in the item store (R6; log entry 9). -/
@[simp] abbrev payloadMax : Nat := 256

/-- `ITEM_MAX`: data items in the item store (R6; log entry 9). -/
@[simp] abbrev itemMax : Nat := 8

/-- `BS_MAX_BITS`: bits in the bit store (R6; log entry 9). -/
@[simp] abbrev bsMaxBits : Nat := 2048

/-- `CW_MAX`: codewords in the codeword store (R6; log entry 9). -/
@[simp] abbrev cwMax : Nat := 346

/-- `PLEN_MAX`: coefficients in one polynomial register (R6; log entry 9). -/
@[simp] abbrev plenMax : Nat := 256

/-- `NPOLY`: polynomial registers, `P0` to `P3` (R6; log entry 9). The registers are the constructors
of `PReg`; `preg_count` in Laws/Config.lean says that there are so many. -/
@[simp] abbrev nPoly : Nat := 4

/-- `MX_MAX`: the side of the matrix store (R6, 10_state.md R26; 90_conflicts.md C8). -/
@[simp] abbrev mxMax : Nat := 57

/-- `XLEN`: the width of `RES`, of the host registers and of the command word (R6). -/
@[simp] abbrev xlen : Nat := 32

/-- `VER_MAX`: the largest version (00_scope.md R5). -/
@[simp] abbrev verMax : Nat := 10

/-- `REMAINDER_MASKED`: whether the cells after the last codeword bit go through the mask. OPEN in
the spec with default false (R6, 92_eei_decisions.md D25; DESIGN CHOICE, log entry 8). Every
function that depends on it takes it as an argument; only the commands pass this value. -/
def remainderMasked : Bool := false

end Sys2Proof.Config
end

