-- ==== Sys2Proof/Word.lean ====
section
/-! DEFINITION. The word and byte types of QRC (00_scope.md R7). -/

namespace Sys2Proof

/-- A command word and a host register: `XLEN` = 32 bits (00_scope.md R6, 30_encoding.md R60). -/
abbrev Word := BitVec 32

/-- The width of a word is the parameter `XLEN`. It is written out in the type, so that arithmetic on
words needs no unfolding. -/
theorem word_width : Word = BitVec Config.xlen := rfl

/-- A byte, which is also a codeword and an element of GF(256) (00_scope.md R7). -/
abbrev Byte := BitVec 8

end Sys2Proof
end

