-- ==== Sys2Proof/Syntax.lean ====
section
/-! DEFINITION. The 42 commands of 30_encoding.md R70, one constructor per row of
spec/opcode_table.json, and the pseudo-free spelling of their operands (R61 to R69). -/

namespace Sys2Proof

/-- A polynomial register selector, two bits of a format P word (30_encoding.md R64). -/
inductive PReg where
  | p0 | p1 | p2 | p3
deriving DecidableEq, Repr

/-- The commands (30_encoding.md R70). A field that the spec reads as bits is a bit vector of the
field's width; a one-bit field is a Bool; a polynomial selector is a `PReg`. -/
inductive Instr where
  | nop
  | srst
  | gfExp (n : BitVec 24)
  | gfLog (a : Byte)
  | gfMul (a b : Byte)
  | pClr (pd : PReg)
  | pPush (pd : PReg) (k : Byte)
  | pMk (pd ps1 : PReg) (k : Byte)
  | pMul (pd ps1 ps2 : PReg)
  | pMod (pd ps1 ps2 : PReg)
  | pGen (pd : PReg) (k : Byte)
  | pLen (ps1 : PReg)
  | pGet (ps1 : PReg) (k : Byte)
  | bsClr
  | bsPut (value : BitVec 16) (count : BitVec 5)
  | bsPutb (a : Bool)
  | bsLen
  | bsRdb (idx : BitVec 16)
  | plClr
  | plSeg
  | plPush (a : Byte)
  | ecAsm (v : BitVec 4)
  | ecEnc (v : BitVec 4)
  | cwLen
  | cwRd (idx : BitVec 16)
  | ecCap (v : BitVec 4)
  | mxInit (v : BitVec 4)
  | mxFind
  | mxAlgn
  | mxTime
  | mxFmt (test : Bool) (mask : BitVec 4)
  | mxVinf
  | mxData (mask : BitVec 4)
  | mxBuild (v : BitVec 4) (test : Bool) (mask : BitVec 4)
  | mxScore
  | mxGet (row col : Byte)
  | mxN
  | mkEval (mask : BitVec 4) (row col : Byte)
  | mxRdp (a : BitVec 3)
  | encBest (v : BitVec 4)
  | encRun
  | encRdt (mask : BitVec 4)
deriving DecidableEq, Repr

end Sys2Proof
end

