-- ==== Sys2Proof/WellFormed.lean ====
section
/-! DEFINITION. Which terms of `Instr` are commands: the "extra" constraints of 30_encoding.md R70
that a field's width does not express (R65, R66, R71). -/

namespace Sys2Proof

/-- Why a 32-bit word is not a command (30_encoding.md R71). -/
inductive Illegal where
  /-- No row of R70 has this opcode. -/
  | unassignedOpcode
  /-- A bit that the row does not list as a field is 1. -/
  | reservedBit
  /-- `BS.PUT` with `count` 17 to 31. -/
  | countRange
  /-- A `v`-carrying command with `v` = 0 or 11 to 15. -/
  | versionRange
  /-- `MX.RDP` with `a` 5, 6 or 7. -/
  | scoreIndexRange
deriving DecidableEq, Repr

/-- The check of a version field: 1 to 10 (30_encoding.md R66). -/
def versionOk (v : BitVec 4) : Bool := decide (1 ≤ v.toNat ∧ v.toNat ≤ Config.verMax)

/-- The constraint that a term breaks, if any (30_encoding.md R70, column "extra"). -/
def Instr.defect : Instr → Option Illegal
  | .bsPut _ count => if count.toNat ≤ 16 then none else some .countRange
  | .ecAsm v => if versionOk v then none else some .versionRange
  | .ecEnc v => if versionOk v then none else some .versionRange
  | .ecCap v => if versionOk v then none else some .versionRange
  | .mxInit v => if versionOk v then none else some .versionRange
  | .mxBuild v _ _ => if versionOk v then none else some .versionRange
  | .encBest v => if versionOk v then none else some .versionRange
  | .mxRdp a => if a.toNat ≤ 4 then none else some .scoreIndexRange
  | .nop | .srst | .gfExp _ | .gfLog _ | .gfMul _ _ | .pClr _ | .pPush _ _ | .pMk _ _ _
  | .pMul _ _ _ | .pMod _ _ _ | .pGen _ _ | .pLen _ | .pGet _ _ | .bsClr | .bsPutb _ | .bsLen
  | .bsRdb _ | .plClr | .plSeg | .plPush _ | .cwLen | .cwRd _ | .mxFind | .mxAlgn | .mxTime
  | .mxFmt _ _ | .mxVinf | .mxData _ | .mxScore | .mxGet _ _ | .mxN | .mkEval _ _ _ | .encRun
  | .encRdt _ => none

/-- A well-formed instruction breaks no constraint. -/
def Instr.wf (i : Instr) : Bool := i.defect.isNone

end Sys2Proof
end

