-- ==== Sys2Proof/Decode.lean ====
section
/-! DEFINITION. Decoding a command word and encoding an instruction (30_encoding.md R60 to R75).
The decoder and the encoder are written from the formats R61 to R68; the mask and match table of
R70 stands beside them as `opcodeRows`, transcribed on its own. -/

namespace Sys2Proof

/-! ### Fields -/

/-- The `len` bits of `w` from bit `lo` up: `w[lo+len-1:lo]` (00_scope.md R7). -/
def bits (w : Word) (lo len : Nat) : BitVec len := w.extractLsb' lo len

/-- A two-bit selector names a polynomial register (R64). -/
def PReg.ofBits (b : BitVec 2) : PReg :=
  if b = 0#2 then .p0 else if b = 1#2 then .p1 else if b = 2#2 then .p2 else .p3

/-- The selector of a polynomial register (R64). -/
def PReg.toBits : PReg → BitVec 2
  | .p0 => 0#2
  | .p1 => 1#2
  | .p2 => 2#2
  | .p3 => 3#2

/-- The register selected by the two bits from bit `lo` up. -/
def pregAt (w : Word) (lo : Nat) : PReg := .ofBits (bits w lo 2)

/-! ### Decode -/

/-- `i`, provided every listed range `(lo, len)` of reserved bits is 0 (R60, R71). -/
def ifZero (w : Word) (reserved : List (Nat × Nat)) (i : Instr) : Except Illegal Instr :=
  if reserved.all (fun r => bits w r.1 r.2 == 0#r.2) then .ok i else .error .reservedBit

/-- The row of the opcode, its reserved bits checked, its fields read (R61 to R70). -/
def decodeFields (w : Word) : Except Illegal Instr :=
  match (bits w 24 8).toNat with
  | 0x00 => ifZero w [(0, 24)] .nop
  | 0x01 => ifZero w [(0, 24)] .srst
  | 0x10 => ifZero w [] (.gfExp (bits w 0 24))
  | 0x11 => ifZero w [(8, 16)] (.gfLog (bits w 0 8))
  | 0x12 => ifZero w [(16, 8)] (.gfMul (bits w 0 8) (bits w 8 8))
  | 0x20 => ifZero w [(2, 22)] (.pClr (pregAt w 0))
  | 0x21 => ifZero w [(16, 8), (2, 6)] (.pPush (pregAt w 0) (bits w 8 8))
  | 0x22 => ifZero w [(16, 8), (4, 4)] (.pMk (pregAt w 0) (pregAt w 2) (bits w 8 8))
  | 0x23 => ifZero w [(6, 18)] (.pMul (pregAt w 0) (pregAt w 2) (pregAt w 4))
  | 0x24 => ifZero w [(6, 18)] (.pMod (pregAt w 0) (pregAt w 2) (pregAt w 4))
  | 0x25 => ifZero w [(16, 8), (2, 6)] (.pGen (pregAt w 0) (bits w 8 8))
  | 0x26 => ifZero w [(4, 20), (0, 2)] (.pLen (pregAt w 2))
  | 0x27 => ifZero w [(16, 8), (4, 4), (0, 2)] (.pGet (pregAt w 2) (bits w 8 8))
  | 0x30 => ifZero w [(0, 24)] .bsClr
  | 0x31 => ifZero w [(21, 3)] (.bsPut (bits w 0 16) (bits w 16 5))
  | 0x32 => ifZero w [(1, 23)] (.bsPutb (bits w 0 1 == 1#1))
  | 0x33 => ifZero w [(0, 24)] .bsLen
  | 0x34 => ifZero w [(16, 8)] (.bsRdb (bits w 0 16))
  | 0x40 => ifZero w [(0, 24)] .plClr
  | 0x41 => ifZero w [(0, 24)] .plSeg
  | 0x42 => ifZero w [(8, 16)] (.plPush (bits w 0 8))
  | 0x50 => ifZero w [(12, 12), (0, 8)] (.ecAsm (bits w 8 4))
  | 0x51 => ifZero w [(12, 12), (0, 8)] (.ecEnc (bits w 8 4))
  | 0x52 => ifZero w [(0, 24)] .cwLen
  | 0x53 => ifZero w [(16, 8)] (.cwRd (bits w 0 16))
  | 0x54 => ifZero w [(12, 12), (0, 8)] (.ecCap (bits w 8 4))
  | 0x60 => ifZero w [(12, 12), (0, 8)] (.mxInit (bits w 8 4))
  | 0x61 => ifZero w [(0, 24)] .mxFind
  | 0x62 => ifZero w [(0, 24)] .mxAlgn
  | 0x63 => ifZero w [(0, 24)] .mxTime
  | 0x64 => ifZero w [(5, 19)] (.mxFmt (bits w 4 1 == 1#1) (bits w 0 4))
  | 0x65 => ifZero w [(0, 24)] .mxVinf
  | 0x66 => ifZero w [(4, 20)] (.mxData (bits w 0 4))
  | 0x67 => ifZero w [(12, 12), (5, 3)] (.mxBuild (bits w 8 4) (bits w 4 1 == 1#1) (bits w 0 4))
  | 0x68 => ifZero w [(0, 24)] .mxScore
  | 0x69 => ifZero w [(16, 8)] (.mxGet (bits w 0 8) (bits w 8 8))
  | 0x6A => ifZero w [(0, 24)] .mxN
  | 0x6B => ifZero w [(20, 4)] (.mkEval (bits w 16 4) (bits w 0 8) (bits w 8 8))
  | 0x6C => ifZero w [(3, 21)] (.mxRdp (bits w 0 3))
  | 0x70 => ifZero w [(12, 12), (0, 8)] (.encBest (bits w 8 4))
  | 0x71 => ifZero w [(0, 24)] .encRun
  | 0x72 => ifZero w [(4, 20)] (.encRdt (bits w 0 4))
  | _ => .error .unassignedOpcode

/-- The decoder, total on all 2^32 words (R71, R75): a command, or the reason why the word is
illegal. -/
def decode (w : Word) : Except Illegal Instr :=
  match decodeFields w with
  | .error e => .error e
  | .ok i =>
    match i.defect with
    | some e => .error e
    | none => .ok i

/-- The host's probe of the decoder: the instruction of the `nbits` low bits of `w`, every higher
bit 0. A command is one 32-bit word and is defined by bit positions, not by byte addresses (R60,
20_memory.md R43). -/
def decodeTableWord (nbits w : Nat) : Option Instr :=
  match decode (BitVec.ofNat 32 (w % 2 ^ nbits)) with
  | .ok i => some i
  | .error _ => none

/-! ### Encode -/

/-- Format Z (R61). -/
def fmtZ (op : Byte) : Word := op ++ 0#24

/-- Format I24 (R62). -/
def fmtI24 (op : Byte) (n24 : BitVec 24) : Word := op ++ n24

/-- Format AB (R63). -/
def fmtAB (op : Byte) (b a : Byte) : Word := op ++ 0#8 ++ b ++ a

/-- Format P (R64). -/
def fmtP (op : Byte) (k : Byte) (ps2 ps1 pd : PReg) : Word :=
  op ++ 0#8 ++ k ++ 0#2 ++ ps2.toBits ++ ps1.toBits ++ pd.toBits

/-- Format BP (R65). -/
def fmtBP (op : Byte) (count : BitVec 5) (value : BitVec 16) : Word := op ++ 0#3 ++ count ++ value

/-- Format V (R66). -/
def fmtV (op : Byte) (v : BitVec 4) (test : Bool) (mask : BitVec 4) : Word :=
  op ++ 0#12 ++ v ++ 0#3 ++ BitVec.ofBool test ++ mask

/-- Format X16 (R67). -/
def fmtX16 (op : Byte) (idx : BitVec 16) : Word := op ++ 0#8 ++ idx

/-- Format RC (R68). -/
def fmtRC (op : Byte) (mask : BitVec 4) (col row : Byte) : Word := op ++ 0#4 ++ mask ++ col ++ row

/-- The word of an instruction (R60 to R70); a field that the command does not use is 0. -/
def encode : Instr → Word
  | .nop => fmtZ 0x00#8
  | .srst => fmtZ 0x01#8
  | .gfExp n => fmtI24 0x10#8 n
  | .gfLog a => fmtAB 0x11#8 0#8 a
  | .gfMul a b => fmtAB 0x12#8 b a
  | .pClr pd => fmtP 0x20#8 0#8 .p0 .p0 pd
  | .pPush pd k => fmtP 0x21#8 k .p0 .p0 pd
  | .pMk pd ps1 k => fmtP 0x22#8 k .p0 ps1 pd
  | .pMul pd ps1 ps2 => fmtP 0x23#8 0#8 ps2 ps1 pd
  | .pMod pd ps1 ps2 => fmtP 0x24#8 0#8 ps2 ps1 pd
  | .pGen pd k => fmtP 0x25#8 k .p0 .p0 pd
  | .pLen ps1 => fmtP 0x26#8 0#8 .p0 ps1 .p0
  | .pGet ps1 k => fmtP 0x27#8 k .p0 ps1 .p0
  | .bsClr => fmtZ 0x30#8
  | .bsPut value count => fmtBP 0x31#8 count value
  | .bsPutb a => fmtAB 0x32#8 0#8 (0#7 ++ BitVec.ofBool a)
  | .bsLen => fmtZ 0x33#8
  | .bsRdb idx => fmtX16 0x34#8 idx
  | .plClr => fmtZ 0x40#8
  | .plSeg => fmtZ 0x41#8
  | .plPush a => fmtAB 0x42#8 0#8 a
  | .ecAsm v => fmtV 0x50#8 v false 0#4
  | .ecEnc v => fmtV 0x51#8 v false 0#4
  | .cwLen => fmtZ 0x52#8
  | .cwRd idx => fmtX16 0x53#8 idx
  | .ecCap v => fmtV 0x54#8 v false 0#4
  | .mxInit v => fmtV 0x60#8 v false 0#4
  | .mxFind => fmtZ 0x61#8
  | .mxAlgn => fmtZ 0x62#8
  | .mxTime => fmtZ 0x63#8
  | .mxFmt test mask => fmtV 0x64#8 0#4 test mask
  | .mxVinf => fmtZ 0x65#8
  | .mxData mask => fmtV 0x66#8 0#4 false mask
  | .mxBuild v test mask => fmtV 0x67#8 v test mask
  | .mxScore => fmtZ 0x68#8
  | .mxGet row col => fmtRC 0x69#8 0#4 col row
  | .mxN => fmtZ 0x6A#8
  | .mkEval mask row col => fmtRC 0x6B#8 mask col row
  | .mxRdp a => fmtAB 0x6C#8 0#8 (0#5 ++ a)
  | .encBest v => fmtV 0x70#8 v false 0#4
  | .encRun => fmtZ 0x71#8
  | .encRdt mask => fmtV 0x72#8 0#4 false mask

/-- The column "op" of R70. -/
def Instr.opcode : Instr → Byte
  | .nop => 0x00#8
  | .srst => 0x01#8
  | .gfExp _ => 0x10#8
  | .gfLog _ => 0x11#8
  | .gfMul _ _ => 0x12#8
  | .pClr _ => 0x20#8
  | .pPush _ _ => 0x21#8
  | .pMk _ _ _ => 0x22#8
  | .pMul _ _ _ => 0x23#8
  | .pMod _ _ _ => 0x24#8
  | .pGen _ _ => 0x25#8
  | .pLen _ => 0x26#8
  | .pGet _ _ => 0x27#8
  | .bsClr => 0x30#8
  | .bsPut _ _ => 0x31#8
  | .bsPutb _ => 0x32#8
  | .bsLen => 0x33#8
  | .bsRdb _ => 0x34#8
  | .plClr => 0x40#8
  | .plSeg => 0x41#8
  | .plPush _ => 0x42#8
  | .ecAsm _ => 0x50#8
  | .ecEnc _ => 0x51#8
  | .cwLen => 0x52#8
  | .cwRd _ => 0x53#8
  | .ecCap _ => 0x54#8
  | .mxInit _ => 0x60#8
  | .mxFind => 0x61#8
  | .mxAlgn => 0x62#8
  | .mxTime => 0x63#8
  | .mxFmt _ _ => 0x64#8
  | .mxVinf => 0x65#8
  | .mxData _ => 0x66#8
  | .mxBuild _ _ _ => 0x67#8
  | .mxScore => 0x68#8
  | .mxGet _ _ => 0x69#8
  | .mxN => 0x6A#8
  | .mkEval _ _ _ => 0x6B#8
  | .mxRdp _ => 0x6C#8
  | .encBest _ => 0x70#8
  | .encRun => 0x71#8
  | .encRdt _ => 0x72#8

/-! ### The opcode map of R70 -/

/-- The column "extra" of R70. -/
inductive Extra where
  | always
  | count
  | version
  | scoreIndex
deriving DecidableEq, Repr

/-- Whether a word's field meets the constraint (R65, R66, R71). -/
def Extra.holds : Extra → Word → Bool
  | .always, _ => true
  | .count, w => decide ((bits w 16 5).toNat ≤ 16)
  | .version, w => versionOk (bits w 8 4)
  | .scoreIndex, w => decide ((bits w 0 3).toNat ≤ 4)

/-- A row of R70: a word has its shape when `w &&& mask = pattern`. -/
structure OpcodeRow where
  mnemonic : String
  pattern : Word
  mask : Word
  extra : Extra := .always
deriving DecidableEq, Repr

/-- Whether a word is a command by this row (R71). -/
def OpcodeRow.takes (r : OpcodeRow) (w : Word) : Bool := w &&& r.mask == r.pattern && r.extra.holds w

/-- Rows of R70, opcodes 0x00 to 0x27. -/
def opcodeRowsLow : List OpcodeRow :=
  [ ⟨"NOP", 0x00000000, 0xFFFFFFFF, .always⟩,
    ⟨"SRST", 0x01000000, 0xFFFFFFFF, .always⟩,
    ⟨"GF.EXP", 0x10000000, 0xFF000000, .always⟩,
    ⟨"GF.LOG", 0x11000000, 0xFFFFFF00, .always⟩,
    ⟨"GF.MUL", 0x12000000, 0xFFFF0000, .always⟩,
    ⟨"P.CLR", 0x20000000, 0xFFFFFFFC, .always⟩,
    ⟨"P.PUSH", 0x21000000, 0xFFFF00FC, .always⟩,
    ⟨"P.MK", 0x22000000, 0xFFFF00F0, .always⟩,
    ⟨"P.MUL", 0x23000000, 0xFFFFFFC0, .always⟩,
    ⟨"P.MOD", 0x24000000, 0xFFFFFFC0, .always⟩,
    ⟨"P.GEN", 0x25000000, 0xFFFF00FC, .always⟩,
    ⟨"P.LEN", 0x26000000, 0xFFFFFFF3, .always⟩,
    ⟨"P.GET", 0x27000000, 0xFFFF00F3, .always⟩ ]

/-- Rows of R70, opcodes 0x30 to 0x54. -/
def opcodeRowsMid : List OpcodeRow :=
  [ ⟨"BS.CLR", 0x30000000, 0xFFFFFFFF, .always⟩,
    ⟨"BS.PUT", 0x31000000, 0xFFE00000, .count⟩,
    ⟨"BS.PUTB", 0x32000000, 0xFFFFFFFE, .always⟩,
    ⟨"BS.LEN", 0x33000000, 0xFFFFFFFF, .always⟩,
    ⟨"BS.RDB", 0x34000000, 0xFFFF0000, .always⟩,
    ⟨"PL.CLR", 0x40000000, 0xFFFFFFFF, .always⟩,
    ⟨"PL.SEG", 0x41000000, 0xFFFFFFFF, .always⟩,
    ⟨"PL.PUSH", 0x42000000, 0xFFFFFF00, .always⟩,
    ⟨"EC.ASM", 0x50000000, 0xFFFFF0FF, .version⟩,
    ⟨"EC.ENC", 0x51000000, 0xFFFFF0FF, .version⟩,
    ⟨"CW.LEN", 0x52000000, 0xFFFFFFFF, .always⟩,
    ⟨"CW.RD", 0x53000000, 0xFFFF0000, .always⟩,
    ⟨"EC.CAP", 0x54000000, 0xFFFFF0FF, .version⟩ ]

/-- Rows of R70, opcodes 0x60 to 0x72. -/
def opcodeRowsHigh : List OpcodeRow :=
  [ ⟨"MX.INIT", 0x60000000, 0xFFFFF0FF, .version⟩,
    ⟨"MX.FIND", 0x61000000, 0xFFFFFFFF, .always⟩,
    ⟨"MX.ALGN", 0x62000000, 0xFFFFFFFF, .always⟩,
    ⟨"MX.TIME", 0x63000000, 0xFFFFFFFF, .always⟩,
    ⟨"MX.FMT", 0x64000000, 0xFFFFFFE0, .always⟩,
    ⟨"MX.VINF", 0x65000000, 0xFFFFFFFF, .always⟩,
    ⟨"MX.DATA", 0x66000000, 0xFFFFFFF0, .always⟩,
    ⟨"MX.BUILD", 0x67000000, 0xFFFFF0E0, .version⟩,
    ⟨"MX.SCORE", 0x68000000, 0xFFFFFFFF, .always⟩,
    ⟨"MX.GET", 0x69000000, 0xFFFF0000, .always⟩,
    ⟨"MX.N", 0x6A000000, 0xFFFFFFFF, .always⟩,
    ⟨"MK.EVAL", 0x6B000000, 0xFFF00000, .always⟩,
    ⟨"MX.RDP", 0x6C000000, 0xFFFFFFF8, .scoreIndex⟩,
    ⟨"ENC.BEST", 0x70000000, 0xFFFFF0FF, .version⟩,
    ⟨"ENC.RUN", 0x71000000, 0xFFFFFFFF, .always⟩,
    ⟨"ENC.RDT", 0x72000000, 0xFFFFFFF0, .always⟩ ]

/-- The 42 rows of R70. -/
def opcodeRows : List OpcodeRow := opcodeRowsLow ++ opcodeRowsMid ++ opcodeRowsHigh

end Sys2Proof
end

