-- ==== Sys2Proof/Machine/State.lean ====
section
/-! DEFINITION. The state of QRC as plain data (10_state.md R10 to R30), the reasons a step can
stop, and the state after reset. -/

namespace Sys2Proof.Machine

/-- A module of the matrix store: the three 2-bit codes of 10_state.md R26. The code 0b01 never
occurs and has no constructor (93_implementation_defined.md U7; log entry 4). -/
inductive ModuleCode where
  | unset
  | light
  | dark
deriving DecidableEq, Repr

/-- The meaningful part of the matrix store: its rows, top first, each from the left (R26; log
entry 3). -/
abbrev Grid := List (List ModuleCode)

/-- A polynomial register's value, highest degree first (R21). -/
abbrev Poly := List Byte

/-- The bit store (R24): `BSLEN` and the bytes `BSBUF[0 .. ceil(BSLEN/8) - 1]`. -/
structure BitStore where
  len : Nat
  buf : List Byte
deriving DecidableEq, Repr

/-- The seven error kinds (60_exceptions.md R180). -/
inductive ErrKind where
  | capacityExceeded
  | invalidModuleAccess
  | invalidMaskPattern
  | invalidFieldOperand
  | invalidCommand
  | invalidIndex
  | invalidSequence
deriving DecidableEq, Repr

/-- What the outside does to the unit: the host's register accesses (20_memory.md R41) and the
platform's reset input (70_reset_and_hazards.md R200). `off` is the byte offset from `QRC_BASE`
(log entry 10), `width` the access width in bytes. -/
inductive Access where
  | read (off width : Nat)
  | write (off width : Nat) (v : Word)
  | reset
deriving DecidableEq, Repr

/-- The state of the unit (R10: exactly the elements of R11 to R26), and two fields of the model's
own, `inbox` and `rdata`, which stand for the host's side of the window. -/
structure State where
  /-- `RES` (R11). -/
  res : Word
  /-- `ERR` (R13, R16): no fault, or the kind whose code it holds. -/
  err : Option ErrKind
  /-- `ERRINFO` (R18). -/
  errinfo : Word
  /-- `FIN` (R13). -/
  fin : Bool
  /-- `VER` (R19). -/
  ver : BitVec 4
  /-- `BMASK` (R20). -/
  bmask : BitVec 3
  /-- `P0` (R21). -/
  p0 : Poly
  /-- `P1` (R21). -/
  p1 : Poly
  /-- `P2` (R21). -/
  p2 : Poly
  /-- `P3` (R21). -/
  p3 : Poly
  /-- `PEN[0..4]` (R22). -/
  pen : Vector Word 5
  /-- `TPEN[0..7]` (R22). -/
  tpen : Vector Word 8
  /-- `ITEMLEN[0 .. ITEMCNT-1]` (R23). -/
  itemLen : List Nat
  /-- `PLBYTES[0 .. PLLEN-1]` (R23). -/
  plBytes : List Byte
  /-- `BSLEN` and `BSBUF` (R24). -/
  bs : BitStore
  /-- `CW[0 .. CWLEN-1]` (R25). -/
  cw : List Byte
  /-- `MX[0 .. N-1][0 .. N-1]` (R26). -/
  mx : Grid
  /-- The model's own: the accesses still to come, oldest first (log entry 1). -/
  inbox : List Access
  /-- The model's own: what the latest register read gave the host (log entry 2). -/
  rdata : Word
deriving DecidableEq, Repr

/-- `ITEMCNT` (R23). -/
def State.itemCnt (s : State) : Nat := s.itemLen.length

/-- `PLLEN` (R23). -/
def State.plLen (s : State) : Nat := s.plBytes.length

/-- `CWLEN` (R25). -/
def State.cwLen (s : State) : Nat := s.cw.length

/-- The machine after reset (R30, 70_reset_and_hazards.md R201): every register and length 0, every
store empty. The unit's elements have the spec's values; `inbox` and `rdata` are the model's own
(DESIGN CHOICE, log entries 1 and 2). -/
def State.reset : State where
  res := 0#32
  err := none
  errinfo := 0#32
  fin := false
  ver := 0#4
  bmask := 0#3
  p0 := []
  p1 := []
  p2 := []
  p3 := []
  pen := Vector.replicate 5 0#32
  tpen := Vector.replicate 8 0#32
  itemLen := []
  plBytes := []
  bs := ⟨0, []⟩
  cw := []
  mx := []
  inbox := []
  rdata := 0#32

/-- Why the machine would stop with a fault. There is no such reason: each fault of QRC is a next
state with `ERR` set (60_exceptions.md R184, R190), so this type has no constructor and no step can
raise one (safe). -/
inductive Fault where
deriving DecidableEq, Repr

/-- Why a step has no meaning. -/
inductive Refusal where
  /-- Raised by an arm of `exec` whose instruction has no meaning yet (safe); no arm raises it. -/
  | notModelled (mnemonic : String)
  /-- Raised by the window for an access that is not an aligned 32-bit access at offset 0x00 to
  0x10: "a model refuses it (gives it no step)" (20_memory.md R42, U9; log entry 5; safe). -/
  | unsupportedAccess
deriving DecidableEq, Repr

/-- The outcome of a command or a step. -/
abbrev Result := Host.Outcome State Fault Refusal

end Sys2Proof.Machine
end

