-- ==== Sys2Proof/Machine/Ops.lean ====
section
/-! DEFINITION. The named operations on the state: register and store writes, fault entry and the
return from it (10_state.md R11 to R26; 60_exceptions.md R184, R191). -/

namespace Sys2Proof.Machine

/-! ### Writes -/

/-- `RES <- v` (10_state.md R11). -/
def setRes (v : Word) (s : State) : State := { s with res := v }

/-- The value of `P[r]` (R21). -/
def polyOf (r : PReg) (s : State) : Poly :=
  match r with
  | .p0 => s.p0
  | .p1 => s.p1
  | .p2 => s.p2
  | .p3 => s.p3

/-- `P[r] <- p` (R21). -/
def setPoly (r : PReg) (p : Poly) (s : State) : State :=
  match r with
  | .p0 => { s with p0 := p }
  | .p1 => { s with p1 := p }
  | .p2 => { s with p2 := p }
  | .p3 => { s with p3 := p }

/-- A write of the item store: `ITEMLEN` and `PLBYTES` (R23). -/
def setItems (lens : List Nat) (bytes : List Byte) (s : State) : State :=
  { s with itemLen := lens, plBytes := bytes }

/-- A write of the bit store (R24). -/
def setBits (b : BitStore) (s : State) : State := { s with bs := b }

/-- A write of the codeword store (R25). -/
def setCode (cw : List Byte) (s : State) : State := { s with cw := cw }

/-- A write of the matrix store with its version and `FIN` (R19, R26, R13). -/
def setMatrix (v : BitVec 4) (g : Grid) (fin : Bool) (s : State) : State :=
  { s with ver := v, mx := g, fin := fin }

/-- A write of the penalty registers `PEN[0..4]` (R22). -/
def setPen (p : Vector Word 5) (s : State) : State := { s with pen := p }

/-- A write of `TPEN[0..7]` and `BMASK` (R22, R20). -/
def setSearch (t : Vector Word 8) (best : BitVec 3) (s : State) : State :=
  { s with tpen := t, bmask := best }

/-! ### Fault entry and return -/

/-- Fault entry (60_exceptions.md R184): `ERR`, `ERRINFO` and `FIN` are written, nothing else. -/
def faultEntry (k : ErrKind) (cmd : Word) (s : State) : State :=
  { s with err := some k, errinfo := cmd, fin := false }

/-- `raise K(cmd)` in the rule of instruction `i`, whose command word is `encode i` (R184; log
entry 13). -/
def raise (k : ErrKind) (i : Instr) (s : State) : Result := .next (faultEntry k (encode i) s)

/-- The return from the fault state, and every other reset (47_system.md R176; 60_exceptions.md
R191; 70_reset_and_hazards.md R200): each element of the unit takes its reset value. The host's side
of the window is not the unit's. -/
def unitReset (s : State) : State := { State.reset with inbox := s.inbox, rdata := s.rdata }

end Sys2Proof.Machine
end

