-- ==== Sys2Proof/Machine/Tables.lean ====
section
/-! DEFINITION. The read-only tables and constants of 10_state.md R14, R27, R28: configuration, not
state. They stand in a file of Machine/ so that a repair can mend them. -/

namespace Sys2Proof.Machine

/-- `ID` (R14). -/
def idWord : Word := 0x51524301

/-! ### GF(256) -/

/-- `EXP[0..127]`, sixteen a row, as 40_galois_field.md R80 prints it. -/
def expRowsLow : List (List Nat) :=
  [ [1, 2, 4, 8, 16, 32, 64, 128, 29, 58, 116, 232, 205, 135, 19, 38],
    [76, 152, 45, 90, 180, 117, 234, 201, 143, 3, 6, 12, 24, 48, 96, 192],
    [157, 39, 78, 156, 37, 74, 148, 53, 106, 212, 181, 119, 238, 193, 159, 35],
    [70, 140, 5, 10, 20, 40, 80, 160, 93, 186, 105, 210, 185, 111, 222, 161],
    [95, 190, 97, 194, 153, 47, 94, 188, 101, 202, 137, 15, 30, 60, 120, 240],
    [253, 231, 211, 187, 107, 214, 177, 127, 254, 225, 223, 163, 91, 182, 113, 226],
    [217, 175, 67, 134, 17, 34, 68, 136, 13, 26, 52, 104, 208, 189, 103, 206],
    [129, 31, 62, 124, 248, 237, 199, 147, 59, 118, 236, 197, 151, 51, 102, 204] ]

/-- `EXP[128..255]` (R80). -/
def expRowsHigh : List (List Nat) :=
  [ [133, 23, 46, 92, 184, 109, 218, 169, 79, 158, 33, 66, 132, 21, 42, 84],
    [168, 77, 154, 41, 82, 164, 85, 170, 73, 146, 57, 114, 228, 213, 183, 115],
    [230, 209, 191, 99, 198, 145, 63, 126, 252, 229, 215, 179, 123, 246, 241, 255],
    [227, 219, 171, 75, 150, 49, 98, 196, 149, 55, 110, 220, 165, 87, 174, 65],
    [130, 25, 50, 100, 200, 141, 7, 14, 28, 56, 112, 224, 221, 167, 83, 166],
    [81, 162, 89, 178, 121, 242, 249, 239, 195, 155, 43, 86, 172, 69, 138, 9],
    [18, 36, 72, 144, 61, 122, 244, 245, 247, 243, 251, 235, 203, 139, 11, 22],
    [44, 88, 176, 125, 250, 233, 207, 131, 27, 54, 108, 216, 173, 71, 142, 1] ]

/-- `LOG[0..127]`, sixteen a row, as R81 prints it; `LOG[0]` does not exist and its place holds a 0
that nothing reads. -/
def logRowsLow : List (List Nat) :=
  [ [0, 0, 1, 25, 2, 50, 26, 198, 3, 223, 51, 238, 27, 104, 199, 75],
    [4, 100, 224, 14, 52, 141, 239, 129, 28, 193, 105, 248, 200, 8, 76, 113],
    [5, 138, 101, 47, 225, 36, 15, 33, 53, 147, 142, 218, 240, 18, 130, 69],
    [29, 181, 194, 125, 106, 39, 249, 185, 201, 154, 9, 120, 77, 228, 114, 166],
    [6, 191, 139, 98, 102, 221, 48, 253, 226, 152, 37, 179, 16, 145, 34, 136],
    [54, 208, 148, 206, 143, 150, 219, 189, 241, 210, 19, 92, 131, 56, 70, 64],
    [30, 66, 182, 163, 195, 72, 126, 110, 107, 58, 40, 84, 250, 133, 186, 61],
    [202, 94, 155, 159, 10, 21, 121, 43, 78, 212, 229, 172, 115, 243, 167, 87] ]

/-- `LOG[128..255]` (R81). -/
def logRowsHigh : List (List Nat) :=
  [ [7, 112, 192, 247, 140, 128, 99, 13, 103, 74, 222, 237, 49, 197, 254, 24],
    [227, 165, 153, 119, 38, 184, 180, 124, 17, 68, 146, 217, 35, 32, 137, 46],
    [55, 63, 209, 91, 149, 188, 207, 205, 144, 135, 151, 178, 220, 252, 190, 97],
    [242, 86, 211, 171, 20, 42, 93, 158, 132, 60, 57, 83, 71, 109, 65, 162],
    [31, 45, 67, 216, 183, 123, 164, 118, 196, 23, 73, 236, 127, 12, 111, 246],
    [108, 161, 59, 82, 41, 157, 85, 170, 251, 96, 134, 177, 187, 204, 62, 90],
    [203, 89, 95, 176, 156, 169, 160, 81, 11, 245, 22, 235, 122, 117, 44, 215],
    [79, 174, 213, 233, 230, 231, 173, 232, 116, 214, 244, 234, 168, 80, 88, 175] ]

/-- Entry `i` of a table kept sixteen entries a row. -/
def rowsAt (rows : List (List Nat)) (i : Nat) : Nat := (rows.getD (i / 16) []).getD (i % 16) 0

/-- `EXP[i]` for `i` in 0 to 255 (R80). -/
def expAt (i : Nat) : Byte := BitVec.ofNat 8 (rowsAt (expRowsLow ++ expRowsHigh) i)

/-- `LOG[a]` for `a` in 1 to 255 (R81). -/
def logAt (a : Nat) : Nat := rowsAt (logRowsLow ++ logRowsHigh) a

/-! ### Reed-Solomon blocks -/

/-- An RS block descriptor `(totalCodewords, dataCodewords)` (00_scope.md R9). -/
structure RSBlock where
  total : Nat
  data : Nat
deriving DecidableEq, Repr

/-- `RSBLK[v]`: the groups `(count, totalCodewords, dataCodewords)` in order, level M
(43_error_correction.md R121). Outside versions 1 to 10 there is no row. -/
def rsGroups : Nat → List (Nat × RSBlock)
  | 1 => [(1, ⟨26, 16⟩)]
  | 2 => [(1, ⟨44, 28⟩)]
  | 3 => [(1, ⟨70, 44⟩)]
  | 4 => [(2, ⟨50, 32⟩)]
  | 5 => [(2, ⟨67, 43⟩)]
  | 6 => [(4, ⟨43, 27⟩)]
  | 7 => [(4, ⟨49, 31⟩)]
  | 8 => [(2, ⟨60, 38⟩), (2, ⟨61, 39⟩)]
  | 9 => [(3, ⟨58, 36⟩), (2, ⟨59, 37⟩)]
  | 10 => [(4, ⟨69, 43⟩), (1, ⟨70, 44⟩)]
  | _ => []

/-- `ecCount` of a block (00_scope.md R9). -/
def RSBlock.ec (b : RSBlock) : Nat := b.total - b.data

/-- `blocks(v)` (R121). -/
def blocks (v : Nat) : List RSBlock := (rsGroups v).flatMap fun g => List.replicate g.1 g.2

/-- `datacw(v)` (R121). -/
def datacw (v : Nat) : Nat := ((blocks v).map RSBlock.data).sum

/-- `totalcw(v)` (R121). -/
def totalcw (v : Nat) : Nat := ((blocks v).map RSBlock.total).sum

/-- `cap(v)` in bits (R121). -/
def cap (v : Nat) : Nat := 8 * datacw v

/-- `ccbits(v)`, the width of the character-count indicator (43_error_correction.md R120). -/
def ccbits (v : Nat) : Nat := if v ≤ 9 then 8 else 16

/-- The mode indicator of 8-bit byte mode, `0b0100` (00_scope.md R5). -/
def modeIndicator : Nat := 0b0100

/-- `PAD0` (R5). -/
def pad0 : Nat := 0xEC

/-- `PAD1` (R5). -/
def pad1 : Nat := 0x11

/-! ### The matrix -/

/-- `ALIGNPOS[v]` (44_matrix_builder.md R139). -/
def alignPos : Nat → List Nat
  | 2 => [6, 18]
  | 3 => [6, 22]
  | 4 => [6, 26]
  | 5 => [6, 30]
  | 6 => [6, 34]
  | 7 => [6, 22, 38]
  | 8 => [6, 24, 42]
  | 9 => [6, 26, 46]
  | 10 => [6, 28, 50]
  | _ => []

/-- `G15` (00_scope.md R5). -/
def g15 : Nat := 0x537

/-- `G15_MASK` (R5). -/
def g15Mask : Nat := 0x5412

/-- `G18` (R5). -/
def g18 : Nat := 0x1F25

/-- The level indicator of level M in the format word (44_matrix_builder.md R142). -/
def levelM : Nat := 0b00

end Sys2Proof.Machine
end

