-- ==== Sys2Proof/Machine/Operands.lean ====
section
/-! DEFINITION. What the operand fields of a command stand for (30_encoding.md R62 to R69) and how a
result is widened to `RES` (20_memory.md R53). -/

namespace Sys2Proof.Machine

/-- `n = sext_24(n24)` (30_encoding.md R62). -/
def sext24 (n : BitVec 24) : Int := n.toInt

/-- The mask index of a 4-bit `mask` field, `none` for 8 to 15 (R66; 60_exceptions.md R183). -/
def maskIndex (mask : BitVec 4) : Option Nat := if mask.toNat < 8 then some mask.toNat else none

/-- `zext_32` of a byte (00_scope.md R7). -/
def zextByte (b : Byte) : Word := b.setWidth 32

/-- A count or an index as a 32-bit word. -/
def wordOf (n : Nat) : Word := BitVec.ofNat 32 n

/-- The 2-bit code of a module (10_state.md R26). -/
def ModuleCode.code : ModuleCode → BitVec 2
  | .unset => 0b00
  | .light => 0b10
  | .dark => 0b11

/-- Element `a` of `PEN`; `a` is 0 to 4 in a command (45_mask_selection.md R167). -/
def penAt (a : BitVec 3) (s : State) : Word := s.pen.toList.getD a.toNat 0#32

/-- Element `m` of `TPEN`, `m` in 0 to 7 (45_mask_selection.md R169). -/
def tpenAt (m : Nat) (s : State) : Word := s.tpen.toList.getD m 0#32

end Sys2Proof.Machine
end

