-- ==== Sys2Proof/Machine/Field.lean ====
section
/-! DEFINITION. The field functions of 40_galois_field.md R82 to R85 and the polynomial functions of
41_polynomial.md R90 to R94. -/

namespace Sys2Proof.Machine

/-- `gexp(n)`, any integer `n`, reduced into [0, 255) by the floor modulo (R82). -/
def gexp (n : Int) : Byte := expAt (n % 255).toNat

/-- `glog(a)`; `none` is `raise InvalidFieldOperand` (R83). -/
def glog (a : Byte) : Option Nat := if a = 0#8 then none else some (logAt a.toNat)

/-- `gmul(a, b)` (R84): zero "without consulting the table", else the sum of the logarithms. -/
def gmul (a b : Byte) : Byte :=
  match glog a, glog b with
  | some x, some y => gexp ((x + y) % 255 : Nat)
  | _, _ => 0#8

/-- Field addition, coefficient by coefficient: bitwise XOR (R85). -/
def xorList (a b : List Byte) : List Byte := List.zipWith (· ^^^ ·) a b

/-- `mkpoly(c, shift)` (R91): leading zeros of `c` stripped, then `shift` zeros appended. -/
def mkpoly (c : Poly) (shift : Nat) : Poly := c.dropWhile (· == 0#8) ++ List.replicate shift 0#8

/-- The convolution array `r` of R92 for nonempty `b`: row `i` of the loop adds `a[i] * b[j]` at
index `i + j`. The first coefficient of `a` touches the first `len(b)` entries; the rest of `a`
fills the array from index 1 on. -/
def conv : Poly → Poly → Poly
  | [], b => List.replicate (b.length - 1) 0#8
  | x :: a, b => xorList (b.map (gmul x) ++ List.replicate a.length 0#8) (0#8 :: conv a b)

/-- `pmul(a, b)` (R92). -/
def pmul (a b : Poly) : Poly := if a = [] ∨ b = [] then [] else mkpoly (conv a b) 0

/-- One step of the long division of R93: the scaled divisor is XORed into `t`, and the leading
zeros are stripped. `none` when a logarithm of zero is asked for. -/
def pmodStep (t d : Poly) : Option Poly :=
  match glog (t.headD 0#8), glog (d.headD 0#8) with
  | some x, some y =>
    let f := gexp ((x : Int) - (y : Int))
    some (mkpoly (xorList t (d.map (fun c => gmul c f) ++ List.replicate (t.length - d.length) 0#8)) 0)
  | _, _ => none

/-- The loop of R93. Each step shortens `t`, so `t.length + 1` steps of fuel suffice (log entry 7). -/
def pmodLoop : Nat → Poly → Poly → Option Poly
  | 0, t, _ => some t
  | fuel + 1, t, d =>
    if t.length < d.length then some t
    else
      match pmodStep t d with
      | none => none
      | some t' => pmodLoop fuel t' d

/-- `pmod(a, d)` (R93); `none` is `raise InvalidFieldOperand`. -/
def pmod (a d : Poly) : Option Poly := if d = [] then none else pmodLoop (a.length + 1) a d

/-- `pgen(ec)` (R94). -/
def pgen : Nat → Poly
  | 0 => [1#8]
  | ec + 1 => pmul (pgen ec) [1#8, gexp ec]

end Sys2Proof.Machine
end

