-- ==== Sys2Proof/Machine/Stream.lean ====
section
/-! DEFINITION. The bit accumulator (42_bitstream.md R105 to R108), the bitstream assembly, the
Reed-Solomon block coding and the interleave (43_error_correction.md R115 to R127), and the version
selection (46_encoder.md R170). -/

namespace Sys2Proof.Machine

/-! ### The bit store -/

/-- The empty stream (42_bitstream.md R109). -/
def bitsEmpty : BitStore := ⟨0, []⟩

/-- `putbit(b)` (R106): a zero byte is opened at a byte boundary, and a 1 is ORed in at bit
`7 - (BSLEN mod 8)` of byte `BSLEN div 8`. -/
def putbit (b : BitStore) (bit : Bool) : BitStore :=
  let buf := if b.len % 8 = 0 then b.buf ++ [0#8] else b.buf
  ⟨b.len + 1, if bit then buf.modify (b.len / 8) (· ||| (0x80#8 >>> (b.len % 8))) else buf⟩

/-- `putbits(value, n)` (R107): bits `n-1` down to 0 of `value`. -/
def putbits (b : BitStore) (value : Nat) : Nat → BitStore
  | 0 => b
  | n + 1 => putbits (putbit b (value.testBit n)) value n

/-- `putbits(x, 8)` for each byte in order. -/
def putBytes (b : BitStore) (xs : List Byte) : BitStore :=
  xs.foldl (fun b x => putbits b x.toNat 8) b

/-! ### Assembly (R122) -/

/-- The data list `items`, cut from the payload bytes at the item lengths (10_state.md R23, R115). -/
def splitItems : List Nat → List Byte → List (List Byte)
  | [], _ => []
  | n :: ns, bytes => bytes.take n :: splitItems ns (bytes.drop n)

/-- The value `items` of the item store (R115). -/
def State.items (s : State) : List (List Byte) := splitItems s.itemLen s.plBytes

/-- `pre(v)`, the pre-padding bit length (R122, 46_encoder.md R170). -/
def preLen (items : List (List Byte)) (v : Nat) : Nat :=
  (items.map fun item => 4 + ccbits v + 8 * item.length).sum

/-- Step 1 for one item: mode indicator, character count, bytes (R122). -/
def putItem (v : Nat) (b : BitStore) (item : List Byte) : BitStore :=
  putBytes (putbits (putbits b modeIndicator 4) item.length (ccbits v)) item

/-- Step 2: the terminator, all four bits or none (R122). -/
def terminate (v : Nat) (b : BitStore) : BitStore := if b.len + 4 ≤ cap v then putbits b 0 4 else b

/-- Step 3: zero bits up to the byte boundary, at most seven (R122). -/
def alignByte (b : BitStore) : BitStore := putbits b 0 ((8 - b.len % 8) % 8)

/-- Step 4 with `k` the running index of the pad byte: `0xEC` for even `k`, else `0x11`, until the
length is the capacity (R122). Each round adds 8 bits, so `cap v` rounds suffice (log entry 7). -/
def padLoop (v : Nat) : Nat → Nat → BitStore → BitStore
  | 0, _, b => b
  | fuel + 1, k, b =>
    if b.len < cap v then padLoop v fuel (k + 1) (putbits b (if k % 2 = 0 then pad0 else pad1) 8)
    else b

/-- Steps 1 to 4 on a fresh stream (R122). -/
def streamOf (items : List (List Byte)) (v : Nat) : BitStore :=
  padLoop v (datacw v) 0 (alignByte (terminate v (items.foldl (putItem v) bitsEmpty)))

/-- `assemble(items, v)` (R122); `none` is `raise CapacityExceeded`, tested before anything is
written. -/
def assemble (items : List (List Byte)) (v : Nat) : Option BitStore :=
  if preLen items v > cap v then none else some (streamOf items v)

/-! ### Block coding and interleave -/

/-- The block split of R125: `d_b` bytes for each block in order. -/
def splitBlocks : List RSBlock → List Byte → List (List Byte)
  | [], _ => []
  | b :: bs, bytes => bytes.take b.data :: splitBlocks bs (bytes.drop b.data)

/-- The EC codewords of a block with `ec` of them (R126): the remainder, zero-padded on the left. The
division never raises here (41_polynomial.md R104 (c)), so the default is never used (log entry
15). -/
def ecOf (ec : Nat) (d : List Byte) : List Byte :=
  let r := (pmod (mkpoly d ec) (pgen ec)).getD []
  List.replicate (ec - r.length) 0#8 ++ r

/-- `interleave` (R127): index 0 of every list, then index 1, and so on, exhausted lists skipped. -/
def interleave (ls : List (List Byte)) : List Byte :=
  (List.range ((ls.map List.length).foldl max 0)).flatMap fun i => ls.filterMap fun l => l[i]?

/-- The data blocks `D_b` of the stream's bytes (R125). -/
def dataBlocks (v : Nat) (buf : List Byte) : List (List Byte) :=
  splitBlocks (blocks v) (buf.take (datacw v))

/-- The EC blocks `E_b` (R126). -/
def ecBlocks (v : Nat) (buf : List Byte) : List (List Byte) :=
  List.zipWith (fun b d => ecOf b.ec d) (blocks v) (dataBlocks v buf)

/-- The codeword sequence of R125 to R127 from the stream's bytes. -/
def codewordsOf (v : Nat) (buf : List Byte) : List Byte :=
  interleave (dataBlocks v buf) ++ interleave (ecBlocks v buf)

/-! ### Version selection -/

/-- `select(items)` (46_encoder.md R170): the least version that holds the list; `none` is
`raise CapacityExceeded`. -/
def selectVersion (items : List (List Byte)) : Option Nat :=
  [1, 2, 3, 4, 5, 6, 7, 8, 9, 10].find? fun v => decide (preLen items v ≤ cap v)

end Sys2Proof.Machine
end

