-- ==== Sys2Proof/Machine/BitStream.lean ====
section
/-! DEFINITION. The BitStream commands (42_bitstream.md R109 to R113). -/

namespace Sys2Proof.Machine

/-- `BS.CLR` (R109). -/
def execBsClr (s : State) : Result := .next (setBits bitsEmpty s)

/-- `BS.PUT value, count` (R110): the bound is checked before any bit is appended. -/
def execBsPut (value : BitVec 16) (count : BitVec 5) (s : State) : Result :=
  if s.bs.len + count.toNat > Config.bsMaxBits then raise .invalidIndex (.bsPut value count) s
  else .next (setBits (putbits s.bs value.toNat count.toNat) s)

/-- `BS.PUTB a` (R111). -/
def execBsPutb (a : Bool) (s : State) : Result :=
  if s.bs.len + 1 > Config.bsMaxBits then raise .invalidIndex (.bsPutb a) s
  else .next (setBits (putbit s.bs a) s)

/-- `BS.LEN` (R112). -/
def execBsLen (s : State) : Result := .next (setRes (wordOf s.bs.len) s)

/-- `BS.RDB idx` (R113). -/
def execBsRdb (idx : BitVec 16) (s : State) : Result :=
  if idx.toNat ≥ (s.bs.len + 7) / 8 then raise .invalidIndex (.bsRdb idx) s
  else .next (setRes (zextByte (s.bs.buf.getD idx.toNat 0#8)) s)

end Sys2Proof.Machine
end

