-- ==== Sys2Proof/Machine/Matrix.lean ====
section
/-! DEFINITION. Building the matrix (44_matrix_builder.md R135 to R151): cells, function patterns,
format and version information, mask functions, data placement. -/

namespace Sys2Proof.Machine

/-- The side length of version `v` (00_scope.md R5). -/
def sideOf (v : Nat) : Nat := 4 * v + 17

/-! ### Cells -/

/-- `MX[r][c]`; no command reads outside the grid. -/
def cell (g : Grid) (r c : Nat) : ModuleCode := (g.getD r []).getD c .unset

/-- `MX[r][c] <- m`. -/
def setCell (g : Grid) (r c : Nat) (m : ModuleCode) : Grid := g.modify r fun row => row.set c m

/-- `setmod(r, c, d)` (44_matrix_builder.md, head). -/
def setmod (g : Grid) (r c : Nat) (d : Bool) : Grid := setCell g r c (if d then .dark else .light)

/-- `setmod` of each listed `(row, col, dark)` in order, whatever is there. -/
def paint (g : Grid) (ws : List (Nat × Nat × Bool)) : Grid :=
  ws.foldl (fun g w => setmod g w.1 w.2.1 w.2.2) g

/-- An N x N grid, all Unset (R135). -/
def blankGrid (n : Nat) : Grid := List.replicate n (List.replicate n .unset)

/-- Whether some cell is Unset. -/
def hasUnset (g : Grid) : Bool := g.any fun row => row.any (· == .unset)

/-- Integers `lo, lo+1, ..., lo+n-1`. -/
def intsFrom (lo : Int) (n : Nat) : List Int := (List.range n).map fun k => lo + (k : Int)

/-! ### Finder patterns (R136) -/

/-- The colour of a finder cell, `r` and `c` in -1 to 7 (R136). -/
def finderDark (r c : Int) : Bool :=
  decide ((0 ≤ r ∧ r ≤ 6 ∧ (c = 0 ∨ c = 6)) ∨ (0 ≤ c ∧ c ≤ 6 ∧ (r = 0 ∨ r = 6)) ∨
    (2 ≤ r ∧ r ≤ 4 ∧ 2 ≤ c ∧ c ≤ 4))

/-- The writes of `finder(r0, c0)`, cells outside the grid skipped (R136). -/
def finderCells (n : Nat) (r0 c0 : Int) : List (Nat × Nat × Bool) :=
  (intsFrom (-1) 9).flatMap fun r => (intsFrom (-1) 9).filterMap fun c =>
    if r0 + r < 0 ∨ r0 + r ≥ n ∨ c0 + c < 0 ∨ c0 + c ≥ n then none
    else some ((r0 + r).toNat, (c0 + c).toNat, finderDark r c)

/-- The three finders of R137. -/
def putFinders (n : Nat) (g : Grid) : Grid :=
  paint (paint (paint g (finderCells n 0 0)) (finderCells n 0 ((n : Int) - 7)))
    (finderCells n ((n : Int) - 7) 0)

/-! ### Alignment patterns (R138 to R140) -/

/-- The colour of an alignment cell, `r` and `c` in -2 to 2 (R138). -/
def alignDark (r c : Int) : Bool :=
  decide (r = -2 ∨ r = 2 ∨ c = -2 ∨ c = 2 ∨ (r = 0 ∧ c = 0))

/-- The writes of `alignpat(pr, pc)` (R138). -/
def alignCells (pr pc : Nat) : List (Nat × Nat × Bool) :=
  (intsFrom (-2) 5).flatMap fun r => (intsFrom (-2) 5).map fun c =>
    (((pr : Int) + r).toNat, ((pc : Int) + c).toNat, alignDark r c)

/-- Every ordered pair of coordinates, table order (R140). -/
def alignPairs (v : Nat) : List (Nat × Nat) :=
  (alignPos v).flatMap fun pr => (alignPos v).map fun pc => (pr, pc)

/-- One combination of R140: skipped when its centre is not Unset. -/
def putAlign (g : Grid) (p : Nat × Nat) : Grid :=
  if cell g p.1 p.2 = .unset then paint g (alignCells p.1 p.2) else g

/-- The alignment patterns of version `v` (R140). -/
def putAligns (v : Nat) (g : Grid) : Grid := (alignPairs v).foldl putAlign g

/-! ### Timing patterns (R141) -/

/-- `setmod` if the cell is Unset. -/
def setIfUnset (g : Grid) (r c : Nat) (d : Bool) : Grid :=
  if cell g r c = .unset then setmod g r c d else g

/-- Row 6, then column 6, even index Dark (R141). -/
def putTiming (n : Nat) (g : Grid) : Grid :=
  let g := (List.range n).foldl (fun g k => setIfUnset g 6 k (k % 2 == 0)) g
  (List.range n).foldl (fun g k => setIfUnset g k 6 (k % 2 == 0)) g

/-! ### Format and version information (R142 to R146) -/

/-- `blen(x)`, the bit length (00_scope.md R7). -/
def blen (x : Nat) : Nat := if x = 0 then 0 else x.log2 + 1

/-- The division loops of R142 and R145 over GF(2): while `r` is at least as long as the generator,
the aligned generator is XORed in. Each step shortens `r` (log entry 7). -/
def bchRem (gen : Nat) : Nat → Nat → Nat
  | 0, r => r
  | fuel + 1, r =>
    if blen gen ≤ blen r then bchRem gen fuel (r ^^^ (gen <<< (blen r - blen gen))) else r

/-- `bch15(d)` (R142). -/
def bch15 (d : Nat) : Nat := ((d <<< 10) ||| bchRem g15 15 (d <<< 10)) ^^^ g15Mask

/-- `bch18(v)` (R145). -/
def bch18 (v : Nat) : Nat := (v <<< 12) ||| bchRem g18 18 (v <<< 12)

/-- The two cells of bit `i` of the format word (R143): the copy in column 8 and that in row 8. -/
def fmtCells (n i : Nat) : (Nat × Nat) × (Nat × Nat) :=
  ((if i ≤ 5 then (i, 8) else if i ≤ 7 then (i + 1, 8) else (n - 15 + i, 8)),
   (if i ≤ 7 then (8, n - 1 - i) else if i = 8 then (8, 7) else (8, 14 - i)))

/-- The 31 writes of `fmtplace(test, mask)`: both copies bit by bit, Light in test mode, then the
dark module (R143). -/
def fmtWrites (n : Nat) (test : Bool) (mask : Nat) : List (Nat × Nat × Bool) :=
  ((List.range 15).flatMap fun i =>
    let d := !test && (bch15 (levelM * 8 + mask)).testBit i
    let cs := fmtCells n i
    [(cs.1.1, cs.1.2, d), (cs.2.1, cs.2.2, d)]) ++ [(n - 8, 8, true)]

/-- `fmtplace(test, mask)` (R143). -/
def putFormat (n : Nat) (test : Bool) (mask : Nat) (g : Grid) : Grid := paint g (fmtWrites n test mask)

/-- The writes of R146: bit `i` of `bch18(VER)` in both blocks. -/
def verWrites (n v : Nat) : List (Nat × Nat × Bool) :=
  (List.range 18).flatMap fun i =>
    let d := (bch18 v).testBit i
    [(i / 3, n - 11 + i % 3, d), (n - 11 + i % 3, i / 3, d)]

/-- The version information, from version 7 up (R146). -/
def putVersion (n v : Nat) (g : Grid) : Grid := if 7 ≤ v then paint g (verWrites n v) else g

/-! ### Masks (R147) -/

/-- `maskfn(m, i, j)` (R147); a mask index is 0 to 7. -/
def maskfn (m i j : Nat) : Bool :=
  match m with
  | 0 => (i + j) % 2 == 0
  | 1 => i % 2 == 0
  | 2 => j % 3 == 0
  | 3 => (i + j) % 3 == 0
  | 4 => (i / 2 + j / 3) % 2 == 0
  | 5 => (i * j) % 2 + (i * j) % 3 == 0
  | 6 => ((i * j) % 2 + (i * j) % 3) % 2 == 0
  | 7 => ((i * j) % 3 + (i + j) % 2) % 2 == 0
  | _ => false

/-! ### Data placement (R149) -/

/-- The right-hand columns of the column pairs, from `col` leftward by 2, column 6 replaced by 5
(R149). -/
def pairCols : Nat → Nat → List Nat
  | 0, _ => []
  | fuel + 1, col =>
    if col = 0 then []
    else
      let c := if col = 6 then 5 else col
      c :: pairCols fuel (c - 2)

/-- The two cells of each row of a pair, right cell first; upward from the bottom row, or downward
from the top (R149). -/
def pairCells (n c : Nat) (up : Bool) : List (Nat × Nat) :=
  (if up then (List.range n).reverse else List.range n).flatMap fun r => [(r, c), (r, c - 1)]

/-- The pairs in order, the direction turning at each, beginning with `up`. -/
def dataCells (n : Nat) : Bool → List Nat → List (Nat × Nat)
  | _, [] => []
  | up, c :: cs => pairCells n c up ++ dataCells n (!up) cs

/-- All cells that `placedata` visits, in order: the first pair runs upward (R149). -/
def dataOrder (n : Nat) : List (Nat × Nat) := dataCells n true (pairCols n (n - 1))

/-- The codeword bits in placement order, bit 7 of `CW[0]` first (20_memory.md R44 (d)). -/
def codewordBits (cw : List Byte) : List Bool :=
  cw.flatMap fun b => (List.range 8).map fun i => b.getMsbD i

/-- One visit of R149, the state being the grid and the codeword bits not yet placed: an Unset cell
takes the next bit, inverted where the mask is true, or the remainder colour when the bits are used
up. `masked` is the parameter `REMAINDER_MASKED`. -/
def placeCell (masked : Bool) (mask : Nat) (st : Grid × List Bool) (p : Nat × Nat) :
    Grid × List Bool :=
  if cell st.1 p.1 p.2 = .unset then
    match st.2 with
    | bit :: rest => (setmod st.1 p.1 p.2 (bit ^^ maskfn mask p.1 p.2), rest)
    | [] => (setmod st.1 p.1 p.2 (masked && maskfn mask p.1 p.2), [])
  else st

/-- The walk of R149: every visit of its pseudocode, in order. -/
def placeWalk (masked : Bool) (n mask : Nat) (cw : List Byte) (g : Grid) : Grid :=
  ((dataOrder n).foldl (placeCell masked mask) (g, codewordBits cw)).1

/-- Column 6 after the walk, which skips it: "after `placedata` no cell is Unset" (R149), and `MX.DATA`
before the function patterns "fills every cell" (70_reset_and_hazards.md R209). No codeword bit is for
these cells, so those still Unset get the remainder colour (R149, "remaining Unset cells, if any,
default to Light"). The pseudocode of R149 has no line for them (log entry 16). -/
def fillColumn6 (masked : Bool) (n mask : Nat) (g : Grid) : Grid :=
  (List.range n).foldl (fun g r => setIfUnset g r 6 (masked && maskfn mask r 6)) g

/-- `placedata(mask)` (R149). -/
def placeData (masked : Bool) (n mask : Nat) (cw : List Byte) (g : Grid) : Grid :=
  fillColumn6 masked n mask (placeWalk masked n mask cw g)

/-! ### The whole build (R151) -/

/-- The function patterns in the document's order on an all-Unset grid (R151). -/
def functionPatterns (v : Nat) (test : Bool) (mask : Nat) : Grid :=
  let n := sideOf v
  putVersion n v (putFormat n test mask (putTiming n (putAligns v (putFinders n (blankGrid n)))))

/-- One construction pass (R151): it depends on nothing but its arguments. -/
def buildGrid (masked : Bool) (v : Nat) (test : Bool) (mask : Nat) (cw : List Byte) : Grid :=
  placeData masked (sideOf v) mask cw (functionPatterns v test mask)

end Sys2Proof.Machine
end

