-- ==== Sys2Proof/Machine/Flags.lean ====
section
/-! DEFINITION. The two flags, the error codes, the side length and the `STATUS` view (10_state.md
R13, R16, R19; 60_exceptions.md R180). -/

namespace Sys2Proof.Machine

/-- The code of an error kind (60_exceptions.md R180). -/
def ErrKind.code : ErrKind → BitVec 4
  | .capacityExceeded => 1
  | .invalidModuleAccess => 2
  | .invalidMaskPattern => 3
  | .invalidFieldOperand => 4
  | .invalidCommand => 5
  | .invalidIndex => 6
  | .invalidSequence => 7

/-- `STATUS.ERR`: 0 is no fault (10_state.md R16). -/
def errCode (s : State) : BitVec 4 :=
  match s.err with
  | none => 0#4
  | some k => k.code

/-- The fault flag `ERR != 0` (10_state.md R13). -/
def inFault (s : State) : Bool := s.err.isSome

/-- `N` (10_state.md R19): 0 before a matrix is initialised. -/
def side (s : State) : Nat := if s.ver = 0#4 then 0 else sideOf s.ver.toNat

/-- The word that `STATUS` shows (10_state.md R16). -/
def statusWord (s : State) : Word :=
  0#17 ++ s.bmask ++ s.ver ++ 0#3 ++ BitVec.ofBool s.fin ++ errCode s

/-- A placement command's end: the new grid is stored and `FIN` is cleared (44_matrix_builder.md
R155). -/
def placed (g : Grid) (s : State) : Result := .next (setMatrix s.ver g false s)

end Sys2Proof.Machine
end

