-- ==== Sys2Proof/Machine/Score.lean ====
section
/-! DEFINITION. The four-part penalty (45_mask_selection.md R160 to R165) and the best-mask search
(R168). -/

namespace Sys2Proof.Machine

/-- The four components of `score` (R160). -/
structure Penalty where
  n1 : Nat
  n2 : Nat
  n3 : Nat
  n4 : Nat
deriving DecidableEq, Repr

/-- The total penalty (R165). -/
def Penalty.total (p : Penalty) : Nat := p.n1 + p.n2 + p.n3 + p.n4

/-- The colours of a grid with no Unset cell, true for Dark. -/
def colours (g : Grid) : List (List Bool) := g.map fun row => row.map (· == .dark)

/-- The columns of a square grid, left first, each read top to bottom. -/
def columns (m : List (List Bool)) : List (List Bool) :=
  m.foldr (List.zipWith List.cons) (List.replicate m.length [])

/-- The 2N lines: the rows, then the columns (R161). -/
def linesOf (m : List (List Bool)) : List (List Bool) := m ++ columns m

/-- The lengths of the maximal runs of a line, given the colour and the length of the run at hand. -/
def runsFrom (colour : Bool) (len : Nat) : List Bool → List Nat
  | [] => [len]
  | x :: rest => if x = colour then runsFrom colour (len + 1) rest else len :: runsFrom x 1 rest

/-- The lengths of the maximal runs of a line (R161). -/
def runs : List Bool → List Nat
  | [] => []
  | x :: rest => runsFrom x 1 rest

/-- What a run costs in N1 (R161). -/
def runCost (len : Nat) : Nat := if 5 ≤ len then 3 + (len - 5) else 0

/-- `n1` (R161). -/
def scoreN1 (m : List (List Bool)) : Nat :=
  ((linesOf m).map fun line => ((runs line).map runCost).sum).sum

/-- The uniform 2 x 2 blocks in two adjacent rows (R162). -/
def blocksIn : List Bool → List Bool → Nat
  | a :: b :: r, c :: d :: r' =>
    (if a = b ∧ a = c ∧ a = d then 1 else 0) + blocksIn (b :: r) (d :: r')
  | _, _ => 0

/-- The uniform 2 x 2 blocks of a grid (R162). -/
def blocksOf : List (List Bool) → Nat
  | r :: r' :: rows => blocksIn r r' + blocksOf (r' :: rows)
  | _ => 0

/-- `n2` (R162). -/
def scoreN2 (m : List (List Bool)) : Nat := 3 * blocksOf m

/-- The sequence `D L D D D L D` (R163). -/
def finderLike : List Bool := [true, false, true, true, true, false, true]

/-- The start indices of a line at which the sequence stands, counted (R163). -/
def windowsIn : List Bool → Nat
  | [] => 0
  | x :: rest => (if finderLike.isPrefixOf (x :: rest) then 1 else 0) + windowsIn rest

/-- `n3` (R163). -/
def scoreN3 (m : List (List Bool)) : Nat := 40 * ((linesOf m).map windowsIn).sum

/-- The Dark modules of a grid, counted. -/
def darkCount (m : List (List Bool)) : Nat := (m.map fun row => row.countP (· == true)).sum

/-- `n4` in integers (R164). -/
def scoreN4 (m : List (List Bool)) : Nat :=
  let n2 := m.length * m.length
  10 * (((20 * darkCount m : Nat) - (10 * n2 : Nat) : Int).natAbs / n2)

/-- `score(M)` of a grid of colours (R160). -/
def scoreColours (m : List (List Bool)) : Penalty := ⟨scoreN1 m, scoreN2 m, scoreN3 m, scoreN4 m⟩

/-- `score(M)` of a grid with no Unset cell (R160). -/
def score (g : Grid) : Penalty := scoreColours (colours g)

/-! ### Best-mask search (R168) -/

/-- The score of trial `m`: a test-mode build (R168). -/
def trial (masked : Bool) (v : Nat) (cw : List Byte) (m : Nat) : Penalty :=
  score (buildGrid masked v true m cw)

/-- The trials of masks 0 to 7 (R168). -/
def trials (masked : Bool) (v : Nat) (cw : List Byte) : List Penalty :=
  (List.range 8).map (trial masked v cw)

/-- The index of the first least number, given the best so far, its index and the index of the
list's head. -/
def leastFrom (best : Nat) (bestIdx idx : Nat) : List Nat → Nat
  | [] => bestIdx
  | x :: rest =>
    if x < best then leastFrom x idx (idx + 1) rest else leastFrom best bestIdx (idx + 1) rest

/-- The least index at which a list takes its minimum (R168, "the lowest mask index on ties"). -/
def leastIdx : List Nat → Nat
  | [] => 0
  | x :: rest => leastFrom x 0 1 rest

end Sys2Proof.Machine
end

