-- ==== Sys2Proof/Machine/MaskSelection.lean ====
section
/-! DEFINITION. Scoring and the best-mask search (45_mask_selection.md R166 to R169). -/

namespace Sys2Proof.Machine

/-- `PEN[0..4]` of a score: the total, then the four components (R166). -/
def penOf (p : Penalty) : Vector Word 5 :=
  #v[wordOf p.total, wordOf p.n1, wordOf p.n2, wordOf p.n3, wordOf p.n4]

/-- `MX.SCORE` (R166). -/
def execMxScore (s : State) : Result :=
  if s.ver = 0#4 then raise .invalidSequence .mxScore s
  else if hasUnset s.mx then raise .invalidSequence .mxScore s
  else
    let p := score s.mx
    .next (setRes (wordOf p.total) (setPen (penOf p) s))

/-- `MX.RDP a` (R167). -/
def execMxRdp (a : BitVec 3) (s : State) : Result := .next (setRes (penAt a s) s)

/-- `TPEN[0..7]` of the eight trials (R168). -/
def tpenOf (ps : List Penalty) : Vector Word 8 :=
  Vector.ofFn fun m => wordOf ((ps.map Penalty.total).getD m.val 0)

/-- The state after the search of R168 on the codeword store: every element it writes but `RES`. -/
def searchBest (v : BitVec 4) (s : State) : State :=
  let ps := trials Config.remainderMasked v.toNat s.cw
  let best := leastIdx (ps.map Penalty.total)
  setSearch (tpenOf ps) (BitVec.ofNat 3 best)
    (setPen (penOf (ps.getD best ⟨0, 0, 0, 0⟩))
      (setMatrix v (buildGrid Config.remainderMasked v.toNat false best s.cw) true s))

/-- `ENC.BEST v` (R168). -/
def execEncBest (v : BitVec 4) (s : State) : Result :=
  let s' := searchBest v s
  .next (setRes (s'.bmask.setWidth 32) s')

/-- `ENC.RDT mask` (R169). -/
def execEncRdt (mask : BitVec 4) (s : State) : Result :=
  match maskIndex mask with
  | none => raise .invalidMaskPattern (.encRdt mask) s
  | some m => .next (setRes (tpenAt m s) s)

end Sys2Proof.Machine
end

