-- ==== Sys2Proof/Machine/Encoder.lean ====
section
/-! DEFINITION. The facade (46_encoder.md R170 to R172). -/

namespace Sys2Proof.Machine

/-- `ENC.RUN` (R172): the version loop catches `CapacityExceeded` only, so the version that runs is
the least whose capacity holds the list (R170), and its assembly does not raise. -/
def execEncRun (s : State) : Result :=
  match selectVersion s.items with
  | none => raise .capacityExceeded .encRun s
  | some v =>
    let b := streamOf s.items v
    .next (setRes (wordOf (sideOf v))
      (searchBest (BitVec.ofNat 4 v) (setCode (codewordsOf v b.buf) (setBits b s))))

end Sys2Proof.Machine
end

