-- ==== Sys2Proof/Machine/ErrorCorrection.lean ====
section
/-! DEFINITION. The item store and ErrorCorrectionEncoder commands (43_error_correction.md R117 to
R119, R123, R124, R128, R130, R131). -/

namespace Sys2Proof.Machine

/-- `PL.CLR` (R117). -/
def execPlClr (s : State) : Result := .next (setItems [] [] s)

/-- `PL.SEG` (R118). -/
def execPlSeg (s : State) : Result :=
  if s.itemCnt = Config.itemMax then raise .invalidIndex .plSeg s
  else .next (setItems (s.itemLen ++ [0]) s.plBytes s)

/-- `ITEMLEN[ITEMCNT-1] <- ITEMLEN[ITEMCNT-1] + 1` (R119). -/
def bumpLast (lens : List Nat) : List Nat := lens.modify (lens.length - 1) (· + 1)

/-- `PL.PUSH a` (R119): the sequence check stands before the capacity check (60_exceptions.md
R189). -/
def execPlPush (a : Byte) (s : State) : Result :=
  if s.itemCnt = 0 then raise .invalidSequence (.plPush a) s
  else if s.plLen = Config.payloadMax then raise .capacityExceeded (.plPush a) s
  else .next (setItems (bumpLast s.itemLen) (s.plBytes ++ [a]) s)

/-- `EC.ASM v` (R123). -/
def execEcAsm (v : BitVec 4) (s : State) : Result :=
  match assemble s.items v.toNat with
  | none => raise .capacityExceeded (.ecAsm v) s
  | some b => .next (setBits b s)

/-- `EC.ENC v` (R128). -/
def execEcEnc (v : BitVec 4) (s : State) : Result :=
  if s.bs.len ≠ cap v.toNat then raise .invalidSequence (.ecEnc v) s
  else .next (setCode (codewordsOf v.toNat s.bs.buf) s)

/-- `CW.LEN` (R130). -/
def execCwLen (s : State) : Result := .next (setRes (wordOf s.cwLen) s)

/-- `CW.RD idx` (R131). -/
def execCwRd (idx : BitVec 16) (s : State) : Result :=
  match s.cw[idx.toNat]? with
  | none => raise .invalidIndex (.cwRd idx) s
  | some c => .next (setRes (zextByte c) s)

/-- `EC.CAP v` (R124). -/
def execEcCap (v : BitVec 4) (s : State) : Result := .next (setRes (wordOf (cap v.toNat)) s)

end Sys2Proof.Machine
end

