-- ==== Sys2Proof/Machine/GaloisField.lean ====
section
/-! DEFINITION. The GaloisField commands (40_galois_field.md R86 to R88). -/

namespace Sys2Proof.Machine

/-- `GF.EXP n` (R86). -/
def execGfExp (n : BitVec 24) (s : State) : Result := .next (setRes (zextByte (gexp (sext24 n))) s)

/-- `GF.LOG a` (R87). -/
def execGfLog (a : Byte) (s : State) : Result :=
  match glog a with
  | none => raise .invalidFieldOperand (.gfLog a) s
  | some x => .next (setRes (wordOf x) s)

/-- `GF.MUL a, b` (R88). -/
def execGfMul (a b : Byte) (s : State) : Result := .next (setRes (zextByte (gmul a b)) s)

end Sys2Proof.Machine
end

