-- ==== Sys2Proof/Machine/MatrixBuilder.lean ====
section
/-! DEFINITION. The MatrixBuilder commands (44_matrix_builder.md R135 to R153). The checks stand in
the order of each rule's pseudocode (60_exceptions.md R189). -/

namespace Sys2Proof.Machine

/-- `MX.INIT v` (R135). -/
def execMxInit (v : BitVec 4) (s : State) : Result :=
  .next (setMatrix v (blankGrid (sideOf v.toNat)) false s)

/-- `MX.FIND` (R137). -/
def execMxFind (s : State) : Result :=
  if s.ver = 0#4 then raise .invalidSequence .mxFind s
  else placed (putFinders (side s) s.mx) s

/-- `MX.ALGN` (R140). -/
def execMxAlgn (s : State) : Result :=
  if s.ver = 0#4 then raise .invalidSequence .mxAlgn s
  else placed (putAligns s.ver.toNat s.mx) s

/-- `MX.TIME` (R141). -/
def execMxTime (s : State) : Result :=
  if s.ver = 0#4 then raise .invalidSequence .mxTime s
  else placed (putTiming (side s) s.mx) s

/-- `MX.FMT test, mask` (R144). -/
def execMxFmt (test : Bool) (mask : BitVec 4) (s : State) : Result :=
  if s.ver = 0#4 then raise .invalidSequence (.mxFmt test mask) s
  else
    match maskIndex mask with
    | none => raise .invalidMaskPattern (.mxFmt test mask) s
    | some m => placed (putFormat (side s) test m s.mx) s

/-- `MX.VINF` (R146). -/
def execMxVinf (s : State) : Result :=
  if s.ver = 0#4 then raise .invalidSequence .mxVinf s
  else placed (putVersion (side s) s.ver.toNat s.mx) s

/-- `MX.DATA mask` (R150). -/
def execMxData (mask : BitVec 4) (s : State) : Result :=
  if s.ver = 0#4 then raise .invalidSequence (.mxData mask) s
  else
    match maskIndex mask with
    | none => raise .invalidMaskPattern (.mxData mask) s
    | some m => placed (placeData Config.remainderMasked (side s) m s.cw s.mx) s

/-- `MX.BUILD v, test, mask` (R151): the mask check comes before any state change. -/
def execMxBuild (v : BitVec 4) (test : Bool) (mask : BitVec 4) (s : State) : Result :=
  match maskIndex mask with
  | none => raise .invalidMaskPattern (.mxBuild v test mask) s
  | some m => .next (setMatrix v (buildGrid Config.remainderMasked v.toNat test m s.cw) (!test) s)

/-- `MX.GET row, col` (R152). -/
def execMxGet (row col : Byte) (s : State) : Result :=
  if row.toNat ≥ side s ∨ col.toNat ≥ side s then raise .invalidModuleAccess (.mxGet row col) s
  else .next (setRes ((cell s.mx row.toNat col.toNat).code.setWidth 32) s)

/-- `MX.N` (R153). -/
def execMxN (s : State) : Result := .next (setRes (wordOf (side s)) s)

/-- `MK.EVAL mask, row, col` (R148). -/
def execMkEval (mask : BitVec 4) (row col : Byte) (s : State) : Result :=
  match maskIndex mask with
  | none => raise .invalidMaskPattern (.mkEval mask row col) s
  | some m => .next (setRes (if maskfn m row.toNat col.toNat then 1#32 else 0#32) s)

end Sys2Proof.Machine
end

