-- ==== Sys2Proof/Machine/Polynomial.lean ====
section
/-! DEFINITION. The polynomial commands (41_polynomial.md R95 to R103). Every command reads its
sources from the state it starts in and writes its destination once (R103). -/

namespace Sys2Proof.Machine

/-- `P.CLR pd` (R95). -/
def execPClr (pd : PReg) (s : State) : Result := .next (setPoly pd [] s)

/-- `P.PUSH pd, k` (R96). -/
def execPPush (pd : PReg) (k : Byte) (s : State) : Result :=
  if (polyOf pd s).length = Config.plenMax then raise .invalidIndex (.pPush pd k) s
  else .next (setPoly pd (polyOf pd s ++ [k]) s)

/-- `P.MK pd, ps1, k` (R97). -/
def execPMk (pd ps1 : PReg) (k : Byte) (s : State) : Result :=
  let r := mkpoly (polyOf ps1 s) k.toNat
  if r.length > Config.plenMax then raise .invalidIndex (.pMk pd ps1 k) s
  else .next (setPoly pd r s)

/-- `P.MUL pd, ps1, ps2` (R98). -/
def execPMul (pd ps1 ps2 : PReg) (s : State) : Result :=
  let a := polyOf ps1 s
  let b := polyOf ps2 s
  if a.length > 0 ∧ b.length > 0 ∧ a.length + b.length - 1 > Config.plenMax then
    raise .invalidIndex (.pMul pd ps1 ps2) s
  else .next (setPoly pd (pmul a b) s)

/-- `P.MOD pd, ps1, ps2` (R99). -/
def execPMod (pd ps1 ps2 : PReg) (s : State) : Result :=
  match pmod (polyOf ps1 s) (polyOf ps2 s) with
  | none => raise .invalidFieldOperand (.pMod pd ps1 ps2) s
  | some r => .next (setPoly pd r s)

/-- `P.GEN pd, k` (R100). -/
def execPGen (pd : PReg) (k : Byte) (s : State) : Result := .next (setPoly pd (pgen k.toNat) s)

/-- `P.LEN ps1` (R101). -/
def execPLen (ps1 : PReg) (s : State) : Result := .next (setRes (wordOf (polyOf ps1 s).length) s)

/-- `P.GET ps1, k` (R102). -/
def execPGet (ps1 : PReg) (k : Byte) (s : State) : Result :=
  match (polyOf ps1 s)[k.toNat]? with
  | none => raise .invalidIndex (.pGet ps1 k) s
  | some c => .next (setRes (zextByte c) s)

end Sys2Proof.Machine
end

