-- ==== Sys2Proof/Machine/System.lean ====
section
/-! DEFINITION. The system commands (47_system.md). -/

namespace Sys2Proof.Machine

/-- `NOP`: no state change (R175). -/
def execNop (s : State) : Result := .next s

/-- `SRST`: every state element takes its reset value (R176). -/
def execSrst (s : State) : Result := .next (unitReset s)

end Sys2Proof.Machine
end

