-- ==== Sys2Proof/Machine/Dispatch.lean ====
section
/-! DEFINITION. One arm per command: "execute the row's rule" (30_encoding.md R75). -/

namespace Sys2Proof.Machine

def exec (i : Instr) (s : State) : Host.Outcome State Fault Refusal :=
  match i with
  | .nop => Sys2Proof.Machine.execNop s
  | .srst => Sys2Proof.Machine.execSrst s
  | .gfExp n => Sys2Proof.Machine.execGfExp n s
  | .gfLog a => Sys2Proof.Machine.execGfLog a s
  | .gfMul a b => Sys2Proof.Machine.execGfMul a b s
  | .pClr pd => Sys2Proof.Machine.execPClr pd s
  | .pPush pd k => Sys2Proof.Machine.execPPush pd k s
  | .pMk pd ps1 k => Sys2Proof.Machine.execPMk pd ps1 k s
  | .pMul pd ps1 ps2 => Sys2Proof.Machine.execPMul pd ps1 ps2 s
  | .pMod pd ps1 ps2 => Sys2Proof.Machine.execPMod pd ps1 ps2 s
  | .pGen pd k => Sys2Proof.Machine.execPGen pd k s
  | .pLen ps1 => Sys2Proof.Machine.execPLen ps1 s
  | .pGet ps1 k => Sys2Proof.Machine.execPGet ps1 k s
  | .bsClr => Sys2Proof.Machine.execBsClr s
  | .bsPut value count => Sys2Proof.Machine.execBsPut value count s
  | .bsPutb a => Sys2Proof.Machine.execBsPutb a s
  | .bsLen => Sys2Proof.Machine.execBsLen s
  | .bsRdb idx => Sys2Proof.Machine.execBsRdb idx s
  | .plClr => Sys2Proof.Machine.execPlClr s
  | .plSeg => Sys2Proof.Machine.execPlSeg s
  | .plPush a => Sys2Proof.Machine.execPlPush a s
  | .ecAsm v => Sys2Proof.Machine.execEcAsm v s
  | .ecEnc v => Sys2Proof.Machine.execEcEnc v s
  | .cwLen => Sys2Proof.Machine.execCwLen s
  | .cwRd idx => Sys2Proof.Machine.execCwRd idx s
  | .ecCap v => Sys2Proof.Machine.execEcCap v s
  | .mxInit v => Sys2Proof.Machine.execMxInit v s
  | .mxFind => Sys2Proof.Machine.execMxFind s
  | .mxAlgn => Sys2Proof.Machine.execMxAlgn s
  | .mxTime => Sys2Proof.Machine.execMxTime s
  | .mxFmt test mask => Sys2Proof.Machine.execMxFmt test mask s
  | .mxVinf => Sys2Proof.Machine.execMxVinf s
  | .mxData mask => Sys2Proof.Machine.execMxData mask s
  | .mxBuild v test mask => Sys2Proof.Machine.execMxBuild v test mask s
  | .mxScore => Sys2Proof.Machine.execMxScore s
  | .mxGet row col => Sys2Proof.Machine.execMxGet row col s
  | .mxN => Sys2Proof.Machine.execMxN s
  | .mkEval mask row col => Sys2Proof.Machine.execMkEval mask row col s
  | .mxRdp a => Sys2Proof.Machine.execMxRdp a s
  | .encBest v => Sys2Proof.Machine.execEncBest v s
  | .encRun => Sys2Proof.Machine.execEncRun s
  | .encRdt mask => Sys2Proof.Machine.execEncRdt mask s

end Sys2Proof.Machine
end

