-- ==== Sys2Proof/Machine/Window.lean ====
section
/-! DEFINITION. The host register window (20_memory.md R41 to R45; 10_state.md R14 to R18), the
command procedure (30_encoding.md R75) and the reset input (70_reset_and_hazards.md R200). -/

namespace Sys2Proof.Machine

/-- `CMD <- w` (30_encoding.md R75): in the fault state only `SRST` runs and any other word is
discarded (60_exceptions.md R190); else the word is decoded, and an illegal one raises
`InvalidCommand` with the word itself in `ERRINFO` (R186). -/
def issue (w : Word) (s : State) : Result :=
  if inFault s then
    if w = 0x01000000#32 then exec .srst s else .next s
  else
    match decode w with
    | .error _ => .next (faultEntry .invalidCommand w s)
    | .ok i => exec i s

/-- The only accesses that have a meaning: 32 bits wide, at one of the five offsets (20_memory.md
R42). -/
def windowOk (off width : Nat) : Bool := decide (width = 4 ∧ off % 4 = 0 ∧ off ≤ 0x10)

/-- What a read of the register at an offset returns (R41; 10_state.md R14 to R18). -/
def windowRead (off : Nat) (s : State) : Word :=
  match off with
  | 0x00 => idWord
  | 0x04 => 0#32
  | 0x08 => statusWord s
  | 0x0C => s.res
  | 0x10 => s.errinfo
  | _ => 0#32

/-- One access of the host, or the reset input. A write to a read-only register is ignored (R41). -/
def access (a : Access) (s : State) : Result :=
  match a with
  | .read off width =>
    if windowOk off width then .next { s with rdata := windowRead off s }
    else .refused .unsupportedAccess
  | .write off width v =>
    if windowOk off width then
      if off = 0x04 then issue v s else .next s
    else .refused .unsupportedAccess
  | .reset => .next (unitReset s)

/-- The write of a command word to `CMD`. -/
def cmdWrite (w : Word) : Access := .write 0x04 4 w

end Sys2Proof.Machine
end

