-- ==== Sys2Proof/Machine/Step.lean ====
section
/-! DEFINITION. One step: the oldest access still to come is taken and answered, in program order
(20_memory.md R47). -/

namespace Sys2Proof.Machine

/-- One step (R47; log entry 1). With no access to come the unit waits and nothing changes (log
entry 1). -/
def step (s : State) : Host.Outcome State Fault Refusal :=
  match s.inbox with
  | [] => .next s
  | a :: rest => access a { s with inbox := rest }

/-- `s` with the `nbits` low bits of `w` as the very next command word that the host writes (log
entry 14). -/
def State.withFetchWord (s : State) (nbits w : Nat) : State :=
  { s with inbox := cmdWrite (BitVec.ofNat 32 (w % 2 ^ nbits)) :: s.inbox }

end Sys2Proof.Machine
end

