-- ==== Sys2Proof/Safety.lean ====
section
/-! DEFINITION. The terms the claims use: the invariant of 10_state.md R31, the elements of the
state and what it means that only some of them changed, and the groups of commands that the spec's
whole-machine sentences name. -/

namespace Sys2Proof

/-! ### Groups of commands -/

/-- The commands whose rule says `RES <- ...` (10_state.md R11). -/
def Instr.returnsValue : Instr → Bool
  | .gfExp _ | .gfLog _ | .gfMul _ _ | .pLen _ | .pGet _ _ | .bsLen | .bsRdb _ | .cwLen | .cwRd _
  | .ecCap _ | .mxScore | .mxGet _ _ | .mxN | .mkEval _ _ _ | .mxRdp _ | .encBest _ | .encRun
  | .encRdt _ => true
  | .nop | .srst | .pClr _ | .pPush _ _ | .pMk _ _ _ | .pMul _ _ _ | .pMod _ _ _ | .pGen _ _
  | .bsClr | .bsPut _ _ | .bsPutb _ | .plClr | .plSeg | .plPush _ | .ecAsm _ | .ecEnc _
  | .mxInit _ | .mxFind | .mxAlgn | .mxTime | .mxFmt _ _ | .mxVinf | .mxData _ | .mxBuild _ _ _ =>
    false

/-- The read commands, which "change nothing but `RES`" (20_memory.md R45). -/
def Instr.readsOnly : Instr → Bool
  | .bsLen | .bsRdb _ | .cwLen | .cwRd _ | .pLen _ | .pGet _ _ | .mxGet _ _ | .mxN | .mxRdp _
  | .encRdt _ | .ecCap _ | .gfExp _ | .gfLog _ | .gfMul _ _ | .mkEval _ _ _ => true
  | .nop | .srst | .pClr _ | .pPush _ _ | .pMk _ _ _ | .pMul _ _ _ | .pMod _ _ _ | .pGen _ _
  | .bsClr | .bsPut _ _ | .bsPutb _ | .plClr | .plSeg | .plPush _ | .ecAsm _ | .ecEnc _
  | .mxInit _ | .mxFind | .mxAlgn | .mxTime | .mxFmt _ _ | .mxVinf | .mxData _ | .mxBuild _ _ _
  | .mxScore | .encBest _ | .encRun => false

/-- The mask field of the commands that check it (60_exceptions.md R183). -/
def Instr.maskField : Instr → Option (BitVec 4)
  | .mxFmt _ mask => some mask
  | .mxData mask => some mask
  | .mxBuild _ _ mask => some mask
  | .mkEval mask _ _ => some mask
  | .encRdt mask => some mask
  | .nop | .srst | .gfExp _ | .gfLog _ | .gfMul _ _ | .pClr _ | .pPush _ _ | .pMk _ _ _
  | .pMul _ _ _ | .pMod _ _ _ | .pGen _ _ | .pLen _ | .pGet _ _ | .bsClr | .bsPut _ _ | .bsPutb _
  | .bsLen | .bsRdb _ | .plClr | .plSeg | .plPush _ | .ecAsm _ | .ecEnc _ | .cwLen | .cwRd _
  | .ecCap _ | .mxInit _ | .mxFind | .mxAlgn | .mxTime | .mxVinf | .mxScore | .mxGet _ _ | .mxN
  | .mxRdp _ | .encBest _ | .encRun => none

end Sys2Proof

namespace Sys2Proof.Machine

/-! ### The invariant of R31 -/

/-- A grid of `n` rows of `n` modules. -/
def gridSquare (n : Nat) (g : Grid) : Prop := g.length = n ∧ ∀ row ∈ g, row.length = n

/-- The bit store's part of R31: at most `BS_MAX_BITS` bits, just the bytes they need, the unused low
bits of the last byte 0 (10_state.md R24, R31). -/
structure BitStore.Ok (b : BitStore) : Prop where
  lenMax : b.len ≤ Config.bsMaxBits
  bufLen : b.buf.length = (b.len + 7) / 8
  tailZero : b.len % 8 ≠ 0 → (b.buf.getD (b.len / 8) 0#8) <<< (b.len % 8) = 0#8

/-- The invariants "that hold in every state outside a command's execution" (R31), with the shape of
the matrix store (R26) and `FIN = 1` implies `ERR = 0` (R32). That each cell is one of the three
codes is the type `ModuleCode`. -/
structure State.Inv (s : State) : Prop where
  itemSum : s.plLen = s.itemLen.sum
  itemMax : s.itemCnt ≤ Config.itemMax
  payloadMax : s.plLen ≤ Config.payloadMax
  bits : s.bs.Ok
  codeMax : s.cwLen ≤ Config.cwMax
  polyMax : ∀ r, (polyOf r s).length ≤ Config.plenMax
  verMax : s.ver.toNat ≤ Config.verMax
  square : gridSquare (side s) s.mx
  finFull : s.fin = true → s.ver ≠ 0#4 ∧ hasUnset s.mx = false
  finNoErr : s.fin = true → s.err = none
  penSum : s.pen[0] = s.pen[1] + s.pen[2] + s.pen[3] + s.pen[4]

/-! ### Frames -/

/-- The elements of the state: those of R11 to R26 and the model's own two. -/
inductive Elem where
  | res
  | err
  | errinfo
  | fin
  | ver
  | bmask
  | poly (r : PReg)
  | pen
  | tpen
  | items
  | bits
  | code
  | matrix
  | inbox
  | rdata
deriving DecidableEq, Repr

/-- The element has the same value in both states. -/
def Elem.same (e : Elem) (s t : State) : Prop :=
  match e with
  | .res => t.res = s.res
  | .err => t.err = s.err
  | .errinfo => t.errinfo = s.errinfo
  | .fin => t.fin = s.fin
  | .ver => t.ver = s.ver
  | .bmask => t.bmask = s.bmask
  | .poly r => polyOf r t = polyOf r s
  | .pen => t.pen = s.pen
  | .tpen => t.tpen = s.tpen
  | .items => t.itemLen = s.itemLen ∧ t.plBytes = s.plBytes
  | .bits => t.bs = s.bs
  | .code => t.cw = s.cw
  | .matrix => t.mx = s.mx
  | .inbox => t.inbox = s.inbox
  | .rdata => t.rdata = s.rdata

/-- The elements that a command's rule writes when it raises nothing, command by command (R86 to R172;
10_state.md R19 to R26; 70_reset_and_hazards.md R211). `SRST` writes every element of the unit (R176). -/
def writes : Instr → List Elem
  | .nop => []
  | .srst => [.res, .err, .errinfo, .fin, .ver, .bmask, .poly .p0, .poly .p1, .poly .p2, .poly .p3,
      .pen, .tpen, .items, .bits, .code, .matrix]
  | .gfExp _ | .gfLog _ | .gfMul _ _ | .pLen _ | .pGet _ _ | .bsLen | .bsRdb _ | .cwLen | .cwRd _
  | .ecCap _ | .mxGet _ _ | .mxN | .mkEval _ _ _ | .mxRdp _ | .encRdt _ => [.res]
  | .pClr pd => [.poly pd]
  | .pPush pd _ => [.poly pd]
  | .pMk pd _ _ => [.poly pd]
  | .pMul pd _ _ => [.poly pd]
  | .pMod pd _ _ => [.poly pd]
  | .pGen pd _ => [.poly pd]
  | .bsClr | .bsPut _ _ | .bsPutb _ | .ecAsm _ => [.bits]
  | .plClr | .plSeg | .plPush _ => [.items]
  | .ecEnc _ => [.code]
  | .mxFind | .mxAlgn | .mxTime | .mxFmt _ _ | .mxVinf | .mxData _ => [.matrix, .fin]
  | .mxInit _ | .mxBuild _ _ _ => [.ver, .matrix, .fin]
  | .mxScore => [.pen, .res]
  | .encBest _ => [.ver, .matrix, .fin, .pen, .tpen, .bmask, .res]
  | .encRun => [.bits, .code, .ver, .matrix, .fin, .pen, .tpen, .bmask, .res]

/-- Every element that is not listed is unchanged. -/
def OnlyChanges (written : List Elem) (s t : State) : Prop := ∀ e, e ∉ written → e.same s t

/-! ### Second readings, written apart from the machine's own functions -/

/-- Bit `k` of the stream: bit `7 - (k mod 8)` of byte `k div 8` (20_memory.md R44 (a)). -/
def bitAt (b : BitStore) (k : Nat) : Bool := (b.buf.getD (k / 8) 0#8).getMsbD (k % 8)

/-- The list of the `BSLEN` bits in append order (42_bitstream.md R105). -/
def bitsOf (b : BitStore) : List Bool := (List.range b.len).map (bitAt b)

/-- The low `n` bits of a number, bit `n-1` first (20_memory.md R44 (b)). -/
def natBits (value n : Nat) : List Bool := (List.range n).map fun i => value.testBit (n - 1 - i)

/-- The bits of a data list before the terminator (43_error_correction.md R122 step 1). -/
def listBits (items : List (List Byte)) (v : Nat) : List Bool :=
  items.flatMap fun x =>
    natBits 0b0100 4 ++ natBits x.length (ccbits v) ++ x.flatMap fun b => natBits b.toNat 8

/-- The padded stream as one list of bits: the data list's, the terminator if it fits, zeros to the
byte boundary, pad bytes up to the capacity (43_error_correction.md R122 steps 1 to 4). -/
def streamBits (items : List (List Byte)) (v : Nat) : List Bool :=
  let data := listBits items v
  let ended := if data.length + 4 ≤ cap v then data ++ List.replicate 4 false else data
  let aligned := ended ++ List.replicate ((8 - ended.length % 8) % 8) false
  aligned ++ (List.range ((cap v - aligned.length) / 8)).flatMap fun k =>
    natBits (if k % 2 = 0 then 0xEC else 0x11) 8

/-- The field sum of a list (40_galois_field.md R85). -/
def xorSum (l : List Byte) : Byte := l.foldl (· ^^^ ·) 0#8

/-- Doubling with reduction by 0x11D (40_galois_field.md R80, R89). -/
def double (b : Byte) : Byte := if b.msb then (b <<< 1) ^^^ 0x1D#8 else b <<< 1

/-- The field product by "shift-and-add reduction by 0x11D" (40_galois_field.md R89). -/
def shiftAdd (a b : Byte) : Byte :=
  xorSum ((List.range 8).map fun i => if b.getLsbD i then double^[i] a else 0#8)

/-- A list that is empty or has a nonzero leading coefficient (41_polynomial.md R90). -/
def canonical (p : Poly) : Prop := p.headD 1#8 ≠ 0#8

/-- The value of a polynomial at a point, leading coefficient first. -/
def evalAt (p : Poly) (x : Byte) : Byte := p.foldl (fun acc c => gmul acc x ^^^ c) 0#8

/-- The module of a colour, as `setmod` writes it (44_matrix_builder.md, head). -/
def ofDark (dark : Bool) : ModuleCode := if dark then .dark else .light

/-- The number of the square ring around `(r0, c0)` on which a cell lies, the centre being ring 0. -/
def ring (r0 c0 r c : Nat) : Nat := max ((r : Int) - r0).natAbs ((c : Int) - c0).natAbs

/-- The number of cells that `placedata` visits before `(r, c)`, from the words of
44_matrix_builder.md R149: column pairs from the right, column 6 left out, the pairs of even number
upward, the right cell of a row first. -/
def visitsBefore (n r c : Nat) : Nat :=
  let c' := if c < 6 then c + 1 else c
  let pair := (n - 1 - c') / 2
  2 * n * pair + 2 * (if pair % 2 = 0 then n - 1 - r else r) + (n - 1 - c') % 2

/-- The cells that the walk of `placedata` fills, in the order in which it fills them: those it visits
and finds Unset (R149). -/
def unsetOrder (n : Nat) (g : Grid) : List (Nat × Nat) :=
  (dataOrder n).filter fun p => cell g p.1 p.2 = .unset

/-- The accesses that 20_memory.md R42 supports. -/
def Access.supported : Access → Bool
  | .read off width => width == 4 && [0x00, 0x04, 0x08, 0x0C, 0x10].contains off
  | .write off width _ => width == 4 && [0x00, 0x04, 0x08, 0x0C, 0x10].contains off
  | .reset => true

/-- The grid of a colour function. -/
def gridOf (n : Nat) (f : Nat → Nat → Bool) : List (List Bool) :=
  (List.range n).map fun r => (List.range n).map fun c => f r c

/-- The rows and then the columns of a colour function (45_mask_selection.md R161). -/
def linesSpec (n : Nat) (f : Nat → Nat → Bool) : List (List Bool) :=
  gridOf n f ++ gridOf n fun r c => f c r

/-- The kinds that a command's rule can raise once the word is decoded (60_exceptions.md R180). -/
def mayRaise : ErrKind → Instr → Bool
  | .capacityExceeded, .ecAsm _ => true
  | .capacityExceeded, .encRun => true
  | .capacityExceeded, .plPush _ => true
  | .invalidModuleAccess, .mxGet _ _ => true
  | .invalidMaskPattern, i => i.maskField.any fun m => decide (8 ≤ m.toNat)
  | .invalidFieldOperand, .gfLog a => a == 0#8
  | .invalidFieldOperand, .pMod _ _ _ => true
  | .invalidIndex, .pPush _ _ => true
  | .invalidIndex, .pMk _ _ _ => true
  | .invalidIndex, .pMul _ _ _ => true
  | .invalidIndex, .pGet _ _ => true
  | .invalidIndex, .bsPut _ _ => true
  | .invalidIndex, .bsPutb _ => true
  | .invalidIndex, .bsRdb _ => true
  | .invalidIndex, .plSeg => true
  | .invalidIndex, .cwRd _ => true
  | .invalidSequence, .plPush _ => true
  | .invalidSequence, .ecEnc _ => true
  | .invalidSequence, .mxFind => true
  | .invalidSequence, .mxAlgn => true
  | .invalidSequence, .mxTime => true
  | .invalidSequence, .mxFmt _ _ => true
  | .invalidSequence, .mxVinf => true
  | .invalidSequence, .mxData _ => true
  | .invalidSequence, .mxScore => true
  | _, _ => false

end Sys2Proof.Machine
end

