-- ==== Sys2Proof/Certificates/Slice0/Obligations.lean ====
section
/-! DEFINITION. The statements for the provers. Each formalises rules of spec/; the list with titles,
tiers and quotations is OBLIGATIONS.json. -/

open Sys2Proof Sys2Proof.Machine

/-! ### Encoding -/

/-- No bit of an encoding is dropped: a well-formed instruction is what its word decodes to
(30_encoding.md R60 to R70). -/
def Obligations.DecodeOfEncodeIsTheInstruction : Prop :=
  ∀ i : Instr, i.wf = true → decode (encode i) = .ok i

/-- Each word has one meaning: the word is the encoding of what it decodes to, its top byte is the
opcode, and the instruction is well formed (R60, R69, R70). -/
def Obligations.EncodeOfDecodedIsTheWord : Prop :=
  ∀ (w : Word) (i : Instr), decode w = .ok i →
    i.wf = true ∧ encode i = w ∧ i.opcode = bits w 24 8

/-- R71: the words that are commands, the words that are not, and what an illegal word raises. -/
def Obligations.WordIsACommandExactlyWhenARowTakesIt : Prop :=
  (∀ w : Word, (∃ i, decode w = .ok i) ↔ ∃ r ∈ opcodeRows, r.takes w = true) ∧
  (∀ (w : Word) (s : State), s.err = none → (∀ r ∈ opcodeRows, r.takes w = false) →
    issue w s = .next (faultEntry .invalidCommand w s)) ∧
  ((List.range 256).countP (fun op => opcodeRows.all fun r => bits r.pattern 24 8 != BitVec.ofNat 8 op)
    = 214) ∧
  (∀ (w : Word), (∀ r ∈ opcodeRows, bits r.pattern 24 8 ≠ bits w 24 8) →
    ∃ e, decode w = .error e) ∧
  (∀ (w : Word), ∀ r ∈ opcodeRows, bits r.pattern 24 8 = bits w 24 8 → w &&& r.mask ≠ r.pattern →
    ∃ e, decode w = .error e) ∧
  (∀ w : Word, bits w 24 8 = 0x31#8 → 17 ≤ (bits w 16 5).toNat → ∃ e, decode w = .error e) ∧
  (∀ w : Word, bits w 24 8 ∈ [0x50#8, 0x51#8, 0x54#8, 0x60#8, 0x67#8, 0x70#8] →
    (bits w 8 4 = 0#4 ∨ 11 ≤ (bits w 8 4).toNat) → ∃ e, decode w = .error e) ∧
  (∀ w : Word, bits w 24 8 = 0x6C#8 → 5 ≤ (bits w 0 3).toNat → ∃ e, decode w = .error e) ∧
  (∀ (test : Bool) (v mask : BitVec 4) (row col : Byte), versionOk v = true →
    ∀ i ∈ [Instr.mxFmt test mask, .mxData mask, .mxBuild v test mask, .mkEval mask row col,
      .encRdt mask, .mxGet row col], decode (encode i) = .ok i)

/-- The words that the spec prints in its examples decode to the commands it prints beside them
(R70 and the examples of the command rules). -/
def Obligations.PrintedWordsDecodeToTheirCommands : Prop :=
  ∀ p ∈ ([(0x10000008, .gfExp 8), (0x1100001D, .gfLog 29), (0x1200CA53, .gfMul 0x53 0xCA),
    (0x20000002, .pClr .p2), (0x21001200, .pPush .p0 0x12), (0x22000204, .pMk .p0 .p1 2),
    (0x23000012, .pMul .p2 .p0 .p1), (0x24000013, .pMod .p3 .p0 .p1), (0x25000A01, .pGen .p1 10),
    (0x26000004, .pLen .p1), (0x27000104, .pGet .p1 1), (0x31080041, .bsPut 0x41 8),
    (0x32000001, .bsPutb true), (0x34000002, .bsRdb 2), (0x42000041, .plPush 0x41),
    (0x50000100, .ecAsm 1), (0x53000010, .cwRd 16), (0x54000A00, .ecCap 10),
    (0x64000015, .mxFmt true 5), (0x67000104, .mxBuild 1 false 4), (0x6900080D, .mxGet 13 8),
    (0x6B050302, .mkEval 5 2 3), (0x6C000003, .mxRdp 3), (0x70000100, .encBest 1),
    (0x72000002, .encRdt 2)] : List (Word × Instr)), decode p.1 = .ok p.2

/-! ### The command procedure and the window -/

/-- When the oldest access to come writes a word that decodes to `i`, one step is `exec` of `i` with
that access taken away; so is a step on the host's probe (R75, 20_memory.md R47; the queue of
accesses is the model's, log entries 1 and 14). -/
def Obligations.StepRunsTheDecodedCommand : Prop :=
  ∀ (w : Word) (i : Instr) (s : State), decode w = .ok i → s.err = none →
    (∀ rest, step { s with inbox := cmdWrite w :: rest } = exec i { s with inbox := rest }) ∧
    step (s.withFetchWord 32 w.toNat) = exec i s

/-- R75 and R189: the fault state first, then decode, then the command's own checks in their order,
the `InvalidSequence` check before the check of an operand's value. -/
def Obligations.CommandProcedureAndOrderOfChecks : Prop :=
  (∀ (w : Word) (s : State), s.err ≠ none →
    issue w s = if w = 0x01000000#32 then exec .srst s else .next s) ∧
  (∀ (w : Word) (s : State), s.err = none → (∀ r ∈ opcodeRows, r.takes w = false) →
    issue w s = .next (faultEntry .invalidCommand w s)) ∧
  (∀ (w : Word) (s : State), s.err = none → (∃ r ∈ opcodeRows, r.takes w = true) →
    ∃ i, decode w = .ok i ∧ issue w s = exec i s) ∧
  (∀ (test : Bool) (mask : BitVec 4) (s : State), s.ver = 0#4 →
    ∀ i ∈ [Instr.mxFind, .mxAlgn, .mxTime, .mxFmt test mask, .mxVinf, .mxData mask, .mxScore],
      exec i s = .next (faultEntry .invalidSequence (encode i) s)) ∧
  (∀ (test : Bool) (mask : BitVec 4) (s : State), s.ver ≠ 0#4 → 8 ≤ mask.toNat →
    ∀ i ∈ [Instr.mxFmt test mask, .mxData mask],
      exec i s = .next (faultEntry .invalidMaskPattern (encode i) s)) ∧
  (∀ (a : Byte) (s : State), s.itemCnt = 0 →
    exec (.plPush a) s = .next (faultEntry .invalidSequence (encode (.plPush a)) s)) ∧
  (∀ (a : Byte) (s : State), s.itemCnt ≠ 0 → s.plLen = 256 →
    exec (.plPush a) s = .next (faultEntry .capacityExceeded (encode (.plPush a)) s)) ∧
  (∀ s : State, hasUnset s.mx = true →
    exec .mxScore s = .next (faultEntry .invalidSequence (encode .mxScore) s))

/-- R190: in the fault state every word but `SRST` is taken away and changes nothing, and the
register reads answer as always. That an access stands in `inbox` and the value read in `rdata` is the
model's choice (DESIGN CHOICE, log entries 1 and 2). -/
def Obligations.FaultStateDiscardsEverythingButSrst : Prop :=
  ∀ (s : State) (rest : List Access), s.err ≠ none →
    (∀ w : Word, w ≠ 0x01000000#32 →
      step { s with inbox := cmdWrite w :: rest } = .next { s with inbox := rest }) ∧
    step { s with inbox := cmdWrite 0x01000000#32 :: rest } = exec .srst { s with inbox := rest } ∧
    (∀ off ∈ [0x00, 0x04, 0x08, 0x0C, 0x10],
      step { s with inbox := .read off 4 :: rest } =
        .next { s with inbox := rest, rdata := windowRead off s })

/-- R14, R41: what a read of each register returns, and that a write to a register other than `CMD`
is ignored. That an access stands in `inbox` and the value read in `rdata` is the model's choice (DESIGN
CHOICE, log entries 1 and 2). -/
def Obligations.WindowReadsAndWrites : Prop :=
  ∀ (s : State) (rest : List Access) (v : Word),
    step { s with inbox := .read 0x00 4 :: rest } =
      .next { s with inbox := rest, rdata := 0x51524301#32 } ∧
    step { s with inbox := .read 0x04 4 :: rest } = .next { s with inbox := rest, rdata := 0#32 } ∧
    step { s with inbox := .read 0x08 4 :: rest } =
      .next { s with inbox := rest, rdata := statusWord s } ∧
    step { s with inbox := .read 0x0C 4 :: rest } = .next { s with inbox := rest, rdata := s.res } ∧
    step { s with inbox := .read 0x10 4 :: rest } =
      .next { s with inbox := rest, rdata := s.errinfo } ∧
    step { s with inbox := .write 0x04 4 v :: rest } = issue v { s with inbox := rest } ∧
    ∀ off ∈ [0x00, 0x08, 0x0C, 0x10],
      step { s with inbox := .write off 4 v :: rest } = .next { s with inbox := rest }

/-- R16 with the codes of R180: the fields of `STATUS`, its reset value, and that it is read in every
state and never written. In the last clause the access stands in `inbox` and the value read in `rdata`,
which is the model's choice (DESIGN CHOICE, log entries 1 and 2). -/
def Obligations.StatusShowsItsFields : Prop :=
  (∀ s : State, (bits (statusWord s) 0 4 = 0#4 ↔ s.err = none) ∧
    (∀ k, s.err = some k → (bits (statusWord s) 0 4).toNat =
      [ErrKind.capacityExceeded, .invalidModuleAccess, .invalidMaskPattern, .invalidFieldOperand,
        .invalidCommand, .invalidIndex, .invalidSequence].idxOf k + 1) ∧
    (bits (statusWord s) 4 1 = 1#1 ↔ s.fin = true) ∧ bits (statusWord s) 5 3 = 0#3 ∧
    bits (statusWord s) 8 4 = s.ver ∧ bits (statusWord s) 12 3 = s.bmask ∧
    bits (statusWord s) 15 17 = 0#17) ∧
  statusWord State.reset = 0#32 ∧
  ∀ (s : State) (rest : List Access) (v : Word),
    step { s with inbox := .read 0x08 4 :: rest } =
      .next { s with inbox := rest, rdata := statusWord s } ∧
    step { s with inbox := .write 0x08 4 v :: rest } = .next { s with inbox := rest }

/-- R42: a step stops exactly on an access that the window does not support, and then by refusal; on
any other access, and when there is none to come, it answers a next state (log entry 5). That a step
takes the oldest access of `inbox`, and that there is a step with none to come, is the model's choice
(DESIGN CHOICE, log entry 1). -/
def Obligations.StepStopsExactlyOnAnUnsupportedAccess : Prop :=
  ∀ s : State,
    (step s = .refused .unsupportedAccess ↔ ∃ a ∈ s.inbox.head?, a.supported = false) ∧
    ((∀ a ∈ s.inbox.head?, a.supported = true) → ∃ t, step s = .next t)

/-! ### System commands, reset -/

/-- R175, R176, R201: `NOP` changes nothing; `SRST`, in every state, and the reset input give every
element its reset value. The two fields of the host's side, `inbox` and `rdata`, are the model's own
and no reset touches them (log entries 1, 2 and 6). -/
def Obligations.NopKeepsAndSrstResetsEveryElement : Prop :=
  (∀ s : State, exec .nop s = .next s ∧ issue 0#32 s = .next s) ∧
  (∀ (w : Word) (s : State), bits w 24 8 = 0#8 → w ≠ 0#32 → s.err = none →
    issue w s = .next (faultEntry .invalidCommand w s)) ∧
  (∀ s : State, ∃ t, exec .srst s = .next t ∧ issue 0x01000000#32 s = .next t ∧
    access .reset s = .next t ∧
    t.res = 0#32 ∧ t.err = none ∧ t.errinfo = 0#32 ∧ t.fin = false ∧ t.ver = 0#4 ∧ t.bmask = 0#3 ∧
    (∀ r, polyOf r t = []) ∧ t.pen = Vector.replicate 5 0#32 ∧ t.tpen = Vector.replicate 8 0#32 ∧
    t.itemCnt = 0 ∧ t.plLen = 0 ∧ t.bs.len = 0 ∧ t.cwLen = 0 ∧ side t = 0 ∧
    windowRead 0x00 t = 0x51524301#32 ∧ windowRead 0x08 t = 0#32 ∧
    t.inbox = s.inbox ∧ t.rdata = s.rdata ∧
    t = { State.reset with inbox := s.inbox, rdata := s.rdata })

/-! ### The whole machine -/

/-- R184: a fault writes `ERR`, puts the command word in `ERRINFO`, clears `FIN` and changes nothing
else. -/
def Obligations.FaultsArePrecise : Prop :=
  (∀ (w : Word) (s t : State), s.err = none → issue w s = .next t → t.err ≠ none →
    t.errinfo = w ∧ t.fin = false ∧ OnlyChanges [.err, .errinfo, .fin] s t) ∧
  (∀ (i : Instr) (s t : State), s.err = none → exec i s = .next t → t.err ≠ none →
    t.errinfo = encode i ∧ t.fin = false ∧ OnlyChanges [.err, .errinfo, .fin] s t)

/-- The column "raised by" of R180: a command that is run raises no kind whose list it does not stand
in, and `InvalidCommand` is raised for an illegal word only (R180 to R188). -/
def Obligations.OnlyTheListedCommandsRaiseEachKind : Prop :=
  (∀ (i : Instr) (s t : State) (k : ErrKind), s.err = none → exec i s = .next t →
    t.err = some k → mayRaise k i = true) ∧
  (∀ (w : Word) (s t : State), s.err = none → issue w s = .next t → t.err = some .invalidCommand →
    ∀ r ∈ opcodeRows, r.takes w = false)

/-- R11: no command reads `RES`, and only a value-returning command writes it; `SRST` resets it all
the same (R176, log entry 17). With another value in `RES` a command does the same to everything
else, and a completed value-returning command returns the same value. -/
def Obligations.ResIsWrittenOnlyByValueReturningCommands : Prop :=
  (∀ (i : Instr) (s t : State), exec i s = .next t → i.returnsValue = false → i ≠ .srst →
    t.res = s.res) ∧
  (∀ (i : Instr) (s t : State) (x : Word), exec i s = .next t →
    ∃ t', exec i { s with res := x } = .next t' ∧ { t' with res := t.res } = t ∧
      (i.returnsValue = true → s.err = none → t.err = none → t'.res = t.res))

/-- The list of R155: which commands set `FIN` and which clear it; no other changes it. -/
def Obligations.FinFollowsItsList : Prop :=
  (∀ (i : Instr) (s t : State), s.err = none → exec i s = .next t →
    t.fin =
      if t.err ≠ none then false
      else
        match i with
        | .mxBuild _ test _ => !test
        | .encBest _ | .encRun => true
        | .mxInit _ | .mxFind | .mxAlgn | .mxTime | .mxFmt _ _ | .mxVinf | .mxData _ | .srst => false
        | _ => s.fin) ∧
  (∀ (s t : State), access .reset s = .next t → t.fin = false) ∧ State.reset.fin = false

/-- Every command answers a next state, in which only the elements that its rule writes differ, or, if
it raised, only those of the fault entry (R184, R211, R214). -/
def Obligations.CommandsAnswerAndWriteOnlyTheirElements : Prop :=
  ∀ (i : Instr) (s : State), s.err = none →
    ∃ t, exec i s = .next t ∧
      (t.err = none → OnlyChanges (writes i) s t) ∧
      (t.err ≠ none → OnlyChanges [.err, .errinfo, .fin] s t)

/-- R45: the commands that read stores change nothing but `RES` and may be repeated with the same
result. -/
def Obligations.ReadCommandsChangeOnlyResAndRepeat : Prop :=
  ∀ (i : Instr) (s t : State), i.readsOnly = true → s.err = none → exec i s = .next t →
    t.err = none → OnlyChanges [.res] s t ∧ exec i t = .next t

/-- R114: a command that does not start a fresh stream leaves every bit of the stream where it is.
`SRST` empties the store too (R176). -/
def Obligations.BitsAreNeverRemoved : Prop :=
  ∀ (i : Instr) (s t : State), s.bs.Ok → exec i s = .next t → i ≠ .bsClr → i ≠ .encRun →
    i ≠ .srst → (∀ v, i ≠ .ecAsm v) →
    s.bs.len ≤ t.bs.len ∧ (bitsOf t.bs).take s.bs.len = bitsOf s.bs

/-- R174: two `ENC.RUN` on equal item stores give equal results, whatever else the states hold. -/
def Obligations.EncRunDependsOnTheItemsOnly : Prop :=
  ∀ s s' t t' : State, s.itemLen = s'.itemLen → s.plBytes = s'.plBytes → s.err = none →
    s'.err = none → exec .encRun s = .next t → exec .encRun s' = .next t' →
    t.err = t'.err ∧
    (t.err = none → t.mx = t'.mx ∧ t.ver = t'.ver ∧ t.bmask = t'.bmask ∧ t.tpen = t'.tpen ∧
      t.pen = t'.pen ∧ t.cw = t'.cw ∧ t.bs = t'.bs ∧ t.fin = t'.fin ∧ t.res = t'.res)

/-- The invariants of R31 (with R26 and R32) are kept by every step from every state that meets
them. -/
def Obligations.StepKeepsTheInvariant : Prop :=
  ∀ s t : State, s.Inv → step s = .next t → t.Inv

/-- The invariants of R31 hold after reset. -/
def Obligations.ResetMeetsTheInvariant : Prop := State.reset.Inv

/-! ### GaloisField -/

/-- R80, R81: the recurrence of `EXP`, the facts printed with it, and `LOG` as its inverse. -/
def Obligations.TablesFollowTheRecurrence : Prop :=
  (∀ i < 8, expAt i = 1#8 <<< i) ∧
  (∀ i < 256, 8 ≤ i →
    expAt i = expAt (i - 4) ^^^ expAt (i - 5) ^^^ expAt (i - 6) ^^^ expAt (i - 8)) ∧
  ((List.range 255).map expAt).Nodup ∧ (∀ i < 256, expAt i ≠ 0#8) ∧
  expAt 255 = expAt 0 ∧ (∀ i < 255, expAt (i + 1) = double (expAt i)) ∧
  (∀ i < 255, logAt (expAt i).toNat = i) ∧ logAt 1 = 0 ∧
  ((List.range 255).map fun a => logAt (a + 1)).Nodup ∧ (∀ a < 256, 1 ≤ a → logAt a < 255)

/-- R82, R86: `GF.EXP n` returns the table entry at `n mod 255`, the floor modulo of the signed
operand; that entry is 1 doubled so many times. -/
def Obligations.GfExpReturnsThePower : Prop :=
  ∀ (n : BitVec 24) (s : State), ∃ t, exec (.gfExp n) s = .next t ∧
    t.res = (expAt (n.toInt % 255).toNat).setWidth 32 ∧
    t.res = (double^[(n.toInt % 255).toNat] 1#8).setWidth 32 ∧ t.res ≠ 0#32 ∧
    OnlyChanges [.res] s t

/-- R83, R87: `GF.LOG a` returns the exponent of `a`, in 0 to 254, and raises for 0. -/
def Obligations.GfLogReturnsTheExponent : Prop :=
  (∀ (a : Byte) (s : State), a ≠ 0#8 → ∃ t, exec (.gfLog a) s = .next t ∧
    t.res.toNat = logAt a.toNat ∧ t.res.toNat < 255 ∧ expAt t.res.toNat = a ∧
    OnlyChanges [.res] s t) ∧
  (∀ s : State, exec (.gfLog 0#8) s =
    .next { s with err := some .invalidFieldOperand, errinfo := 0x11000000#32, fin := false })

/-- R88 and R89: `GF.MUL a, b` returns the field product, which is the shift-and-add product reduced
by 0x11D for all operand pairs. -/
def Obligations.GfMulReturnsTheFieldProduct : Prop :=
  ∀ (a b : Byte) (s : State), ∃ t, exec (.gfMul a b) s = .next t ∧
    t.res = (gmul a b).setWidth 32 ∧ t.res = (shiftAdd a b).setWidth 32 ∧ OnlyChanges [.res] s t

/-- R84 and the laws it states for the product; the last clause is the distributive law over the
field sum of R85. -/
def Obligations.FieldProductLaws : Prop :=
  (∀ a : Byte, gmul a 0#8 = 0#8 ∧ gmul 0#8 a = 0#8 ∧ gmul a 1#8 = a) ∧
  (∀ a b : Byte, a ≠ 0#8 → b ≠ 0#8 →
    gmul a b = expAt ((logAt a.toNat + logAt b.toNat) % 255) ∧ gmul a b ≠ 0#8) ∧
  (∀ a b : Byte, gmul a b = gmul b a) ∧
  (∀ a b c : Byte, gmul (gmul a b) c = gmul a (gmul b c)) ∧
  (∀ a : Byte, a ≠ 0#8 → gmul a (gexp (255 - logAt a.toNat)) = 1#8) ∧
  (∀ a b c : Byte, gmul a (b ^^^ c) = gmul a b ^^^ gmul a c)

/-! ### Polynomial -/

/-- R95, R96, R101, R102: `P.CLR` empties its register, `P.PUSH` appends a coefficient raw, `P.LEN`
and `P.GET` read; `P.PUSH` of a full register and `P.GET` at or beyond the length raise. -/
def Obligations.PolyRegistersAreFilledAndRead : Prop :=
  (∀ (pd : PReg) (s : State), ∃ t, exec (.pClr pd) s = .next t ∧ polyOf pd t = [] ∧
    OnlyChanges [.poly pd] s t) ∧
  (∀ (pd : PReg) (k : Byte) (s : State),
    ((polyOf pd s).length ≠ 256 → ∃ t, exec (.pPush pd k) s = .next t ∧
      polyOf pd t = polyOf pd s ++ [k] ∧ OnlyChanges [.poly pd] s t) ∧
    ((polyOf pd s).length = 256 →
      exec (.pPush pd k) s = .next (faultEntry .invalidIndex (encode (.pPush pd k)) s))) ∧
  (∀ (ps1 : PReg) (s : State), ∃ t, exec (.pLen ps1) s = .next t ∧
    t.res = BitVec.ofNat 32 (polyOf ps1 s).length ∧
    ((polyOf ps1 s).length ≤ 256 → t.res.toNat = (polyOf ps1 s).length) ∧ OnlyChanges [.res] s t) ∧
  (∀ (ps1 : PReg) (k : Byte) (s : State),
    (∀ h : k.toNat < (polyOf ps1 s).length, ∃ t, exec (.pGet ps1 k) s = .next t ∧
      t.res = ((polyOf ps1 s)[k.toNat]).setWidth 32 ∧ OnlyChanges [.res] s t) ∧
    ((polyOf ps1 s).length ≤ k.toNat →
      exec (.pGet ps1 k) s = .next (faultEntry .invalidIndex (encode (.pGet ps1 k)) s)))

/-- R91, R97: `P.MK` strips the leading zeros of its source, appends `k` zeros, and raises if the
result is longer than the register. -/
def Obligations.PolyMkStripsThenExtends : Prop :=
  ∀ (pd ps1 : PReg) (k : Byte) (s : State) (z : Nat) (rest : Poly),
    polyOf ps1 s = List.replicate z 0#8 ++ rest → canonical rest →
    mkpoly (polyOf ps1 s) k.toNat = rest ++ List.replicate k.toNat 0#8 ∧
    (rest.length + k.toNat ≤ 256 → ∃ t, exec (.pMk pd ps1 k) s = .next t ∧
      polyOf pd t = rest ++ List.replicate k.toNat 0#8 ∧ OnlyChanges [.poly pd] s t) ∧
    (256 < rest.length + k.toNat →
      exec (.pMk pd ps1 k) s = .next (faultEntry .invalidIndex (encode (.pMk pd ps1 k)) s))

/-- R92, R98: `P.MUL` writes the convolution of its sources, each coefficient the field sum of the
products of matching pairs, stripped; an empty source gives the empty polynomial; a product that is
too long before stripping raises. -/
def Obligations.PolyMulWritesTheConvolution : Prop :=
  ∀ (pd ps1 ps2 : PReg) (s : State),
    ((polyOf ps1 s = [] ∨ polyOf ps2 s = []) → ∃ t, exec (.pMul pd ps1 ps2) s = .next t ∧
      polyOf pd t = [] ∧ OnlyChanges [.poly pd] s t) ∧
    (polyOf ps1 s ≠ [] → polyOf ps2 s ≠ [] →
      ((polyOf ps1 s).length + (polyOf ps2 s).length - 1 ≤ 256 →
        ∃ t, exec (.pMul pd ps1 ps2) s = .next t ∧
          polyOf pd t = mkpoly ((List.range ((polyOf ps1 s).length + (polyOf ps2 s).length - 1)).map
            fun k => xorSum ((List.range (k + 1)).map fun i =>
              gmul ((polyOf ps1 s).getD i 0#8) ((polyOf ps2 s).getD (k - i) 0#8))) 0 ∧
          OnlyChanges [.poly pd] s t) ∧
      (256 < (polyOf ps1 s).length + (polyOf ps2 s).length - 1 →
        exec (.pMul pd ps1 ps2) s =
          .next (faultEntry .invalidIndex (encode (.pMul pd ps1 ps2)) s)))

/-- R93: the long division, one step at a time: when it raises, when it stops, and what a step leaves
to be divided. -/
def Obligations.LongDivisionStepByStep : Prop :=
  ∀ a d : Poly,
    (d = [] → pmod a d = none) ∧
    (d ≠ [] → a.length < d.length → pmod a d = some a) ∧
    (d ≠ [] → d.length ≤ a.length → (a.headD 0#8 = 0#8 ∨ d.headD 0#8 = 0#8) → pmod a d = none) ∧
    (d ≠ [] → d.length ≤ a.length → a.headD 0#8 ≠ 0#8 → d.headD 0#8 ≠ 0#8 →
      pmod a d = pmod (mkpoly ((List.range a.length).map fun i =>
        a.getD i 0#8 ^^^ gmul (d.getD i 0#8) (expAt ((((logAt (a.headD 0#8).toNat : Nat) : Int) -
          ((logAt (d.headD 0#8).toNat : Nat) : Int)) % 255).toNat)) 0) d)

/-- R99 (with R93): `P.MOD` writes the remainder, shorter than the divisor; it raises exactly when the
divisor is empty or a division step would start on a zero leading coefficient. -/
def Obligations.PolyModWritesTheRemainder : Prop :=
  ∀ (pd ps1 ps2 : PReg) (s : State),
    (polyOf ps2 s ≠ [] → ((polyOf ps1 s).length < (polyOf ps2 s).length ∨
        ((polyOf ps1 s).headD 0#8 ≠ 0#8 ∧ (polyOf ps2 s).headD 0#8 ≠ 0#8)) →
      ∃ t r, exec (.pMod pd ps1 ps2) s = .next t ∧ polyOf pd t = r ∧
        pmod (polyOf ps1 s) (polyOf ps2 s) = some r ∧ r.length < (polyOf ps2 s).length ∧
        OnlyChanges [.poly pd] s t) ∧
    ((polyOf ps2 s = [] ∨ ((polyOf ps2 s).length ≤ (polyOf ps1 s).length ∧
        ((polyOf ps1 s).headD 0#8 = 0#8 ∨ (polyOf ps2 s).headD 0#8 = 0#8))) →
      exec (.pMod pd ps1 ps2) s =
        .next (faultEntry .invalidFieldOperand (encode (.pMod pd ps1 ps2)) s))

/-- R94, R100: `P.GEN` writes the generator, the product of the factors `x - 2^i`: monic, of length
`k + 1`, zero at `2^i` for every `i` below `k`. -/
def Obligations.PolyGenWritesTheGenerator : Prop :=
  pgen 0 = [1#8] ∧ (∀ n : Nat, pgen (n + 1) = pmul (pgen n) [1#8, gexp n]) ∧
  (∀ n : Nat, (pgen n).length = n + 1 ∧ (pgen n).headD 0#8 = 1#8 ∧
    ∀ i < n, evalAt (pgen n) (gexp i) = 0#8) ∧
  (∀ (pd : PReg) (k : Byte) (s : State), ∃ t, exec (.pGen pd k) s = .next t ∧
    polyOf pd t = pgen k.toNat ∧ OnlyChanges [.poly pd] s t)

/-- R104: (a) and (b) a multiple of a canonical divisor leaves nothing, the generators among them;
(c) the division of a shifted data list by its generator never raises. -/
def Obligations.MultiplesLeaveNoRemainder : Prop :=
  (∀ (a : Poly) (ec : Nat), canonical a → pmod (pmul a (pgen ec)) (pgen ec) = some []) ∧
  (∀ p q : Poly, canonical p → canonical q → q ≠ [] → pmod (pmul p q) q = some []) ∧
  (∀ (data : List Byte) (ec : Nat), ∃ r, pmod (mkpoly data ec) (pgen ec) = some r)

/-! ### BitStream -/

/-- R107, R110, R111: `BS.PUT` appends the low `count` bits of its value, most significant first, and
`BS.PUTB` one bit; a put that would pass 2048 bits raises before any bit is appended. -/
def Obligations.PutAppendsMostSignificantBitFirst : Prop :=
  (∀ (value : BitVec 16) (count : BitVec 5) (s : State), s.bs.Ok →
    (s.bs.len + count.toNat ≤ 2048 → ∃ t, exec (.bsPut value count) s = .next t ∧
      bitsOf t.bs = bitsOf s.bs ++ natBits value.toNat count.toNat ∧
      t.bs.len = s.bs.len + count.toNat ∧ t.bs.Ok ∧ OnlyChanges [.bits] s t) ∧
    (2048 < s.bs.len + count.toNat → exec (.bsPut value count) s =
      .next (faultEntry .invalidIndex (encode (.bsPut value count)) s))) ∧
  (∀ (a : Bool) (s : State), s.bs.Ok →
    (s.bs.len + 1 ≤ 2048 → ∃ t, exec (.bsPutb a) s = .next t ∧
      bitsOf t.bs = bitsOf s.bs ++ [a] ∧ t.bs.len = s.bs.len + 1 ∧ t.bs.Ok ∧
      OnlyChanges [.bits] s t) ∧
    (2048 < s.bs.len + 1 →
      exec (.bsPutb a) s = .next (faultEntry .invalidIndex (encode (.bsPutb a)) s)))

/-- R109, R112, R113: `BS.CLR` starts an empty stream, `BS.LEN` returns its length, and `BS.RDB`
returns eight of its bits as a byte, the bits past the end 0, or raises beyond the last byte. -/
def Obligations.BitStoreIsClearedAndRead : Prop :=
  (∀ s : State, ∃ t, exec .bsClr s = .next t ∧ t.bs.len = 0 ∧ bitsOf t.bs = [] ∧ t.bs.Ok ∧
    OnlyChanges [.bits] s t) ∧
  (∀ s : State, ∃ t, exec .bsLen s = .next t ∧ t.res = BitVec.ofNat 32 s.bs.len ∧
    (s.bs.Ok → t.res.toNat = s.bs.len) ∧ OnlyChanges [.res] s t) ∧
  (∀ (idx : BitVec 16) (s : State), s.bs.Ok →
    (idx.toNat < (s.bs.len + 7) / 8 → ∃ t, exec (.bsRdb idx) s = .next t ∧ t.res.toNat < 256 ∧
      natBits t.res.toNat 8 =
        ((bitsOf s.bs ++ List.replicate 7 false).drop (8 * idx.toNat)).take 8 ∧
      OnlyChanges [.res] s t) ∧
    ((s.bs.len + 7) / 8 ≤ idx.toNat →
      exec (.bsRdb idx) s = .next (faultEntry .invalidIndex (encode (.bsRdb idx)) s)))

/-! ### Item store and error correction -/

/-- R117 to R119: `PL.CLR` empties the data list, `PL.SEG` opens an empty item at its end, `PL.PUSH`
appends a byte to the last item; the limits raise. The premise is R31's `PLLEN = Σ ITEMLEN`. -/
def Obligations.ItemCommandsBuildTheDataList : Prop :=
  (∀ s : State, ∃ t, exec .plClr s = .next t ∧ t.items = [] ∧ t.itemCnt = 0 ∧ t.plLen = 0 ∧
    OnlyChanges [.items] s t) ∧
  (∀ s : State, s.plLen = s.itemLen.sum →
    (s.itemCnt ≠ 8 → ∃ t, exec .plSeg s = .next t ∧ t.items = s.items ++ [[]] ∧
      t.itemCnt = s.itemCnt + 1 ∧ t.plLen = s.plLen ∧ OnlyChanges [.items] s t) ∧
    (s.itemCnt = 8 → exec .plSeg s = .next (faultEntry .invalidIndex (encode .plSeg) s))) ∧
  (∀ (a : Byte) (s : State), s.plLen = s.itemLen.sum →
    (s.itemCnt ≠ 0 → s.plLen ≠ 256 → ∃ t front last, exec (.plPush a) s = .next t ∧
      s.items = front ++ [last] ∧ t.items = front ++ [last ++ [a]] ∧ t.plLen = s.plLen + 1 ∧
      t.plLen = t.itemLen.sum ∧ OnlyChanges [.items] s t) ∧
    (s.itemCnt = 0 →
      exec (.plPush a) s = .next (faultEntry .invalidSequence (encode (.plPush a)) s)) ∧
    (s.itemCnt ≠ 0 → s.plLen = 256 →
      exec (.plPush a) s = .next (faultEntry .capacityExceeded (encode (.plPush a)) s)))

/-- R122, R123: `EC.ASM v` replaces the bit store by the padded stream of the data list, bit for bit,
exactly `cap(v)` bits long, or raises when the list is too long before padding. -/
def Obligations.AssembledStreamIsTheSpecifiedBits : Prop :=
  ∀ (v : BitVec 4) (s : State), versionOk v = true →
    ((listBits s.items v.toNat).length ≤ cap v.toNat → ∃ t, exec (.ecAsm v) s = .next t ∧
      bitsOf t.bs = streamBits s.items v.toNat ∧ t.bs.len = cap v.toNat ∧ t.bs.Ok ∧
      OnlyChanges [.bits] s t) ∧
    (cap v.toNat < (listBits s.items v.toNat).length →
      exec (.ecAsm v) s = .next (faultEntry .capacityExceeded (encode (.ecAsm v)) s))

/-- R125 to R129: `EC.ENC v` cuts the stream into the blocks' data codewords, gives each block the
remainder of its shifted data, zero-padded on the left, so that data and EC codewords together leave
no remainder, and stores the interleaved codewords; it raises unless the stream has `cap(v)` bits. -/
def Obligations.EcEncCodesEveryBlock : Prop :=
  ∀ (v : BitVec 4) (s : State), versionOk v = true → s.bs.Ok →
    (s.bs.len = cap v.toNat → ∃ (t : State) (D E : List (List Byte)), exec (.ecEnc v) s = .next t ∧
      D.flatten = s.bs.buf ∧ D.map List.length = (blocks v.toNat).map RSBlock.data ∧
      E.length = D.length ∧
      (∀ b ∈ (blocks v.toNat).zip (D.zip E), ∃ rem,
        pmod (mkpoly b.2.1 (b.1.total - b.1.data)) (pgen (b.1.total - b.1.data)) = some rem ∧
        b.2.2 = List.replicate (b.1.total - b.1.data - rem.length) 0#8 ++ rem ∧
        b.2.2.length = b.1.total - b.1.data ∧
        pmod (mkpoly (b.2.1 ++ b.2.2) 0) (pgen (b.1.total - b.1.data)) = some []) ∧
      t.cw = interleave D ++ interleave E ∧ t.cwLen = totalcw v.toNat ∧
      OnlyChanges [.code] s t) ∧
    (s.bs.len ≠ cap v.toNat →
      exec (.ecEnc v) s = .next (faultEntry .invalidSequence (encode (.ecEnc v)) s))

/-- R127: the interleave takes index 0 of every list, then index 1, skipping exhausted lists: the
place of the element at index `i` of list `b` is the number of elements before it in that order. -/
def Obligations.InterleaveIsColumnMajor : Prop :=
  ∀ ls : List (List Byte), (interleave ls).length = (ls.map List.length).sum ∧
    ∀ (b i : Nat) (l : List Byte) (x : Byte), ls[b]? = some l → l[i]? = some x →
      (interleave ls)[(ls.map fun l' => min i l'.length).sum +
        (ls.take b).countP fun l' => decide (i < l'.length)]? = some x

/-- R121, R124, R130, R131, R167, R169: `EC.CAP`, `CW.LEN`, `CW.RD`, `MX.RDP`, `ENC.RDT` return the
table entry, the length, the codeword and the score registers, and raise beyond them. -/
def Obligations.CodewordsCapacitiesAndScoresAreRead : Prop :=
  (∀ (v : BitVec 4) (s : State), versionOk v = true → ∃ t, exec (.ecCap v) s = .next t ∧
    t.res.toNat = [128, 224, 352, 512, 688, 864, 992, 1232, 1456, 1728].getD (v.toNat - 1) 0 ∧
    OnlyChanges [.res] s t) ∧
  (∀ s : State, ∃ t, exec .cwLen s = .next t ∧ t.res = BitVec.ofNat 32 s.cwLen ∧
    OnlyChanges [.res] s t) ∧
  (∀ (idx : BitVec 16) (s : State),
    (∀ h : idx.toNat < s.cw.length, ∃ t, exec (.cwRd idx) s = .next t ∧
      t.res = (s.cw[idx.toNat]).setWidth 32 ∧ OnlyChanges [.res] s t) ∧
    (s.cwLen ≤ idx.toNat →
      exec (.cwRd idx) s = .next (faultEntry .invalidIndex (encode (.cwRd idx)) s))) ∧
  (∀ (a : BitVec 3) (s : State), ∀ h : a.toNat < 5, ∃ t, exec (.mxRdp a) s = .next t ∧
    t.res = s.pen[a.toNat] ∧ OnlyChanges [.res] s t) ∧
  (∀ (mask : BitVec 4) (s : State),
    (∀ h : mask.toNat < 8, ∃ t, exec (.encRdt mask) s = .next t ∧ t.res = s.tpen[mask.toNat] ∧
      OnlyChanges [.res] s t) ∧
    (8 ≤ mask.toNat →
      exec (.encRdt mask) s = .next (faultEntry .invalidMaskPattern (encode (.encRdt mask)) s)))

/-! ### MatrixBuilder -/

/-- R135: `MX.INIT v` makes an N x N grid of Unset cells, `N = 4*v + 17`, and clears `FIN`. -/
def Obligations.MxInitBlanksTheGrid : Prop :=
  ∀ (v : BitVec 4) (s : State), versionOk v = true → ∃ t, exec (.mxInit v) s = .next t ∧
    t.ver = v ∧ side t = 4 * v.toNat + 17 ∧ gridSquare (4 * v.toNat + 17) t.mx ∧
    (∀ r < 4 * v.toNat + 17, ∀ c < 4 * v.toNat + 17, cell t.mx r c = .unset) ∧ t.fin = false ∧
    OnlyChanges [.ver, .matrix, .fin] s t

/-- R136, R137: after `MX.FIND` a cell within ring 4 of a finder centre `(3,3)`, `(3,N-4)`, `(N-4,3)`
is Dark on rings 0, 1 and 3 and Light on rings 2 and 4; no other cell changes. Without a matrix it
raises. -/
def Obligations.MxFindPlacesTheFinders : Prop :=
  (∀ s : State, s.Inv → s.ver ≠ 0#4 → ∃ t, exec .mxFind s = .next t ∧ t.fin = false ∧
    OnlyChanges [.matrix, .fin] s t ∧
    ∀ r < side s, ∀ c < side s,
      (∀ p ∈ [(3, 3), (3, side s - 4), (side s - 4, 3)], ring p.1 p.2 r c ≤ 4 →
        cell t.mx r c = ofDark (ring p.1 p.2 r c ∈ [0, 1, 3])) ∧
      ((∀ p ∈ [(3, 3), (3, side s - 4), (side s - 4, 3)], 4 < ring p.1 p.2 r c) →
        cell t.mx r c = cell s.mx r c)) ∧
  (∀ s : State, s.ver = 0#4 →
    exec .mxFind s = .next (faultEntry .invalidSequence 0x61000000#32 s))

/-- R138 to R140: after `MX.ALGN` a cell within ring 2 of a pair of table coordinates whose own cell
was Unset is Light on ring 1, Dark on rings 0 and 2; no other cell changes. Without a
matrix it raises. -/
def Obligations.MxAlgnPlacesTheAlignmentPatterns : Prop :=
  (∀ s : State, s.Inv → s.ver ≠ 0#4 → ∃ t, exec .mxAlgn s = .next t ∧ t.fin = false ∧
    OnlyChanges [.matrix, .fin] s t ∧
    ∀ r < side s, ∀ c < side s,
      (∀ pr ∈ alignPos s.ver.toNat, ∀ pc ∈ alignPos s.ver.toNat, ring pr pc r c ≤ 2 →
        cell s.mx pr pc = .unset → cell t.mx r c = ofDark (ring pr pc r c ≠ 1)) ∧
      ((∀ pr ∈ alignPos s.ver.toNat, ∀ pc ∈ alignPos s.ver.toNat, ring pr pc r c ≤ 2 →
        cell s.mx pr pc ≠ .unset) → cell t.mx r c = cell s.mx r c)) ∧
  (∀ s : State, s.ver = 0#4 →
    exec .mxAlgn s = .next (faultEntry .invalidSequence 0x62000000#32 s))

/-- R141: `MX.TIME` sets the Unset cells of row 6 and column 6, Dark at an even index, and no other
cell. -/
def Obligations.MxTimePlacesTheTimingPatterns : Prop :=
  (∀ s : State, s.Inv → s.ver ≠ 0#4 → ∃ t, exec .mxTime s = .next t ∧ t.fin = false ∧
    OnlyChanges [.matrix, .fin] s t ∧
    ∀ r < side s, ∀ c < side s, cell t.mx r c =
      if cell s.mx r c = .unset ∧ r = 6 then ofDark (c % 2 = 0)
      else if cell s.mx r c = .unset ∧ c = 6 then ofDark (r % 2 = 0)
      else cell s.mx r c) ∧
  (∀ s : State, s.ver = 0#4 →
    exec .mxTime s = .next (faultEntry .invalidSequence 0x63000000#32 s))

/-- R142 to R144: `MX.FMT` writes the fifteen bits of the printed word of its mask in both copies, all
Light in test mode, and the dark module, and no other cell; it raises for a mask of 8 to 15. -/
def Obligations.MxFmtPlacesTheFormatInformation : Prop :=
  ∀ (test : Bool) (mask : BitVec 4) (s : State),
    (s.Inv → s.ver ≠ 0#4 → mask.toNat < 8 → ∃ t, exec (.mxFmt test mask) s = .next t ∧ t.fin = false ∧
      OnlyChanges [.matrix, .fin] s t ∧
      (∀ i < 15, ∀ m, m = ofDark (!test && ([0x5412, 0x5125, 0x5E7C, 0x5B4B, 0x45F9, 0x40CE, 0x4F97,
          0x4AA0].getD mask.toNat 0).testBit i) →
        (i ≤ 5 → cell t.mx i 8 = m) ∧ (6 ≤ i → i ≤ 7 → cell t.mx (i + 1) 8 = m) ∧
        (8 ≤ i → cell t.mx (side s - 15 + i) 8 = m) ∧ (i ≤ 7 → cell t.mx 8 (side s - 1 - i) = m) ∧
        (i = 8 → cell t.mx 8 7 = m) ∧ (9 ≤ i → cell t.mx 8 (14 - i) = m)) ∧
      cell t.mx (side s - 8) 8 = .dark ∧
      (∀ r < side s, ∀ c < side s,
        ¬(c = 8 ∧ (r ≤ 8 ∧ r ≠ 6 ∨ side s - 8 ≤ r)) → ¬(r = 8 ∧ (c ≤ 8 ∧ c ≠ 6 ∨ side s - 8 ≤ c)) →
        cell t.mx r c = cell s.mx r c)) ∧
    (s.ver ≠ 0#4 → 8 ≤ mask.toNat → exec (.mxFmt test mask) s =
      .next (faultEntry .invalidMaskPattern (encode (.mxFmt test mask)) s)) ∧
    (s.ver = 0#4 → exec (.mxFmt test mask) s =
      .next (faultEntry .invalidSequence (encode (.mxFmt test mask)) s))

/-- R145, R146: from version 7 up `MX.VINF` writes the eighteen bits of the printed word of the
version in both blocks and no other cell; below version 7 it writes none. -/
def Obligations.MxVinfPlacesTheVersionInformation : Prop :=
  (∀ s : State, s.Inv → s.ver ≠ 0#4 → ∃ t, exec .mxVinf s = .next t ∧ t.fin = false ∧
    OnlyChanges [.matrix, .fin] s t ∧
    (s.ver.toNat < 7 → t.mx = s.mx) ∧
    (7 ≤ s.ver.toNat →
      (∀ i < 18, ∀ m, m = ofDark (([0x07C94, 0x085BC, 0x09A99, 0x0A4D3].getD (s.ver.toNat - 7)
          0).testBit i) →
        cell t.mx (i / 3) (side s - 11 + i % 3) = m ∧ cell t.mx (side s - 11 + i % 3) (i / 3) = m) ∧
      (∀ r < side s, ∀ c < side s, ¬(r < 6 ∧ side s - 11 ≤ c ∧ c < side s - 8) →
        ¬(c < 6 ∧ side s - 11 ≤ r ∧ r < side s - 8) → cell t.mx r c = cell s.mx r c))) ∧
  (∀ s : State, s.ver = 0#4 →
    exec .mxVinf s = .next (faultEntry .invalidSequence 0x65000000#32 s))

/-- The walk of R149: every cell outside column 6 is visited exactly once, at the place that the
rule's words give it. -/
def Obligations.PlacementWalkVisitsEachCellOnce : Prop :=
  ∀ v : BitVec 4, versionOk v = true → ∀ n, n = 4 * v.toNat + 17 →
    (dataOrder n).length = n * (n - 1) ∧ (dataOrder n).Nodup ∧
    (∀ p ∈ dataOrder n, p.1 < n ∧ p.2 < n ∧ p.2 ≠ 6) ∧
    ∀ r < n, ∀ c < n, c ≠ 6 → (dataOrder n)[visitsBefore n r c]? = some (r, c)

/-- R149, R150: `MX.DATA` fills the Unset cells in the order of its walk with the codeword bits, each
inverted where the mask is true; a cell for which no bit is left gets a 0 bit, put through the mask
if the open parameter `REMAINDER_MASKED` is true (the statement holds for either value; the model's
is log entry 8); the Unset cells of column 6, which the walk skips, get the colour of a cell without a
bit (R149 "after `placedata` no cell is Unset"; DESIGN CHOICE where its pseudocode has no line for them,
log entry 16); no other cell changes. -/
def Obligations.MxDataFillsTheUnsetCellsInOrder : Prop :=
  ∀ (mask : BitVec 4) (s : State),
    (s.Inv → s.ver ≠ 0#4 → mask.toNat < 8 → ∃ t, exec (.mxData mask) s = .next t ∧ t.fin = false ∧
      OnlyChanges [.matrix, .fin] s t ∧
      (∀ (k : Nat) (p : Nat × Nat), (unsetOrder (side s) s.mx)[k]? = some p →
        cell t.mx p.1 p.2 =
          if k < 8 * s.cwLen then
            ofDark ((s.cw.getD (k / 8) 0#8).getMsbD (k % 8) ^^ maskfn mask.toNat p.1 p.2)
          else ofDark (Config.remainderMasked && maskfn mask.toNat p.1 p.2)) ∧
      (∀ r < side s, cell s.mx r 6 = .unset →
        cell t.mx r 6 = ofDark (Config.remainderMasked && maskfn mask.toNat r 6)) ∧
      (∀ r c, (r, c) ∉ unsetOrder (side s) s.mx → ¬(c = 6 ∧ r < side s ∧ cell s.mx r c = .unset) →
        cell t.mx r c = cell s.mx r c)) ∧
    (s.ver ≠ 0#4 → 8 ≤ mask.toNat → exec (.mxData mask) s =
      .next (faultEntry .invalidMaskPattern (encode (.mxData mask)) s)) ∧
    (s.ver = 0#4 → exec (.mxData mask) s =
      .next (faultEntry .invalidSequence (encode (.mxData mask)) s))

/-- R151: `MX.BUILD` equals the sequence of the seven commands in every element but `FIN`; the mask
check comes before any state change; the previous matrix has no influence. -/
def Obligations.MxBuildEqualsTheSequence : Prop :=
  (∀ (v : BitVec 4) (test : Bool) (mask : BitVec 4) (s : State), versionOk v = true →
    (mask.toNat < 8 → ∃ s1 s2 s3 s4 s5 s6 s7,
      exec (.mxInit v) s = .next s1 ∧ exec .mxFind s1 = .next s2 ∧ exec .mxAlgn s2 = .next s3 ∧
      exec .mxTime s3 = .next s4 ∧ exec (.mxFmt test mask) s4 = .next s5 ∧
      exec .mxVinf s5 = .next s6 ∧ exec (.mxData mask) s6 = .next s7 ∧
      exec (.mxBuild v test mask) s = .next { s7 with fin := !test } ∧ hasUnset s7.mx = false ∧
      OnlyChanges [.ver, .matrix, .fin] s s7) ∧
    (8 ≤ mask.toNat → exec (.mxBuild v test mask) s =
      .next (faultEntry .invalidMaskPattern (encode (.mxBuild v test mask)) s))) ∧
  (∀ (v : BitVec 4) (test : Bool) (mask : BitVec 4) (s s' t t' : State), s.cw = s'.cw →
    mask.toNat < 8 → exec (.mxBuild v test mask) s = .next t →
    exec (.mxBuild v test mask) s' = .next t' → t.mx = t'.mx ∧ t.ver = t'.ver ∧ t.fin = t'.fin)

/-- The facts that R151, R136 and R143 leave of a finished build: it is square and full, the dark
module is Dark and the finder centres are Dark in both modes, whatever codewords were placed. -/
def Obligations.FinishedBuildIsComplete : Prop :=
  ∀ (v : BitVec 4) (test : Bool) (mask : BitVec 4) (s : State), versionOk v = true →
    mask.toNat < 8 → ∃ t, exec (.mxBuild v test mask) s = .next t ∧
      gridSquare (4 * v.toNat + 17) t.mx ∧
      (∀ r < 4 * v.toNat + 17, ∀ c < 4 * v.toNat + 17, cell t.mx r c ≠ .unset) ∧
      cell t.mx (4 * v.toNat + 9) 8 = .dark ∧ cell t.mx 3 3 = .dark ∧
      cell t.mx 3 (4 * v.toNat + 13) = .dark ∧ cell t.mx (4 * v.toNat + 13) 3 = .dark ∧
      t.fin = !test

/-- The counts of R154, which the spec derives: the cells that the function patterns leave to the
data, and that they are the codeword bits and the remainder cells. -/
def Obligations.FunctionPatternsLeaveTheDataCells : Prop :=
  ∀ (v mask : Nat) (test : Bool), 1 ≤ v → v ≤ 10 → mask < 8 →
    ((functionPatterns v test mask).map fun row => row.countP (· == .unset)).sum =
      [208, 359, 567, 807, 1079, 1383, 1568, 1936, 2336, 2768].getD (v - 1) 0 ∧
    ((functionPatterns v test mask).map fun row => row.countP (· == .unset)).sum =
      8 * totalcw v + [0, 7, 7, 7, 7, 7, 0, 0, 0, 0].getD (v - 1) 0

/-- R147, R148, R152, R153: `MX.GET` returns the code of a module or raises outside the grid, `MX.N`
the side length, `MK.EVAL` the mask predicate of its operands or raises for a mask of 8 to 15. -/
def Obligations.ModulesSideAndMasksAreRead : Prop :=
  (∀ (row col : Byte) (s : State),
    (row.toNat < side s → col.toNat < side s → ∃ t, exec (.mxGet row col) s = .next t ∧
      t.res = (match cell s.mx row.toNat col.toNat with
        | .unset => 0#32 | .light => 2#32 | .dark => 3#32) ∧ OnlyChanges [.res] s t) ∧
    (side s ≤ row.toNat ∨ side s ≤ col.toNat →
      exec (.mxGet row col) s = .next (faultEntry .invalidModuleAccess (encode (.mxGet row col)) s))) ∧
  (∀ s : State, ∃ t, exec .mxN s = .next t ∧
    t.res.toNat = (if s.ver = 0#4 then 0 else 4 * s.ver.toNat + 17) ∧ OnlyChanges [.res] s t) ∧
  (∀ (mask : BitVec 4) (row col : Byte) (s : State) (i j : Nat), i = row.toNat → j = col.toNat →
    (∀ h : mask.toNat < 8, ∃ t, exec (.mkEval mask row col) s = .next t ∧
      t.res = (if [(i + j) % 2 == 0, i % 2 == 0, j % 3 == 0, (i + j) % 3 == 0,
        (i / 2 + j / 3) % 2 == 0, i * j % 2 + i * j % 3 == 0, (i * j % 2 + i * j % 3) % 2 == 0,
        (i * j % 3 + (i + j) % 2) % 2 == 0][mask.toNat] then 1#32 else 0#32) ∧
      OnlyChanges [.res] s t) ∧
    (8 ≤ mask.toNat → exec (.mkEval mask row col) s =
      .next (faultEntry .invalidMaskPattern (encode (.mkEval mask row col)) s)))

/-! ### Penalty and search -/

/-- R161, R163: `n1` counts the maximal runs of the rows and columns, `n3` the starts at which the
seven modules D L D D D L D stand, for every grid of colours. -/
def Obligations.LinePenaltiesCountRunsAndWindows : Prop :=
  ∀ (n : Nat) (f : Nat → Nat → Bool),
    scoreN1 (gridOf n f) = ((linesSpec n f).map fun line =>
      (((line.splitBy (· == ·)).filter fun run => 5 ≤ run.length).map fun run =>
        3 + (run.length - 5)).sum).sum ∧
    scoreN3 (gridOf n f) = 40 * ((linesSpec n f).map fun line =>
      (List.range (n - 6)).countP fun s =>
        (line.drop s).take 7 == [true, false, true, true, true, false, true]).sum

/-- R162, R164: `n2` counts the uniform 2 x 2 blocks, `n4` is the floor of the exact percentage
formula. -/
def Obligations.AreaPenaltiesCountBlocksAndBalance : Prop :=
  ∀ (n : Nat) (f : Nat → Nat → Bool),
    scoreN2 (gridOf n f) = 3 * ((Finset.range (n - 1) ×ˢ Finset.range (n - 1)).filter fun p =>
      f p.1 p.2 = f p.1 (p.2 + 1) ∧ f p.1 p.2 = f (p.1 + 1) p.2 ∧
        f p.1 p.2 = f (p.1 + 1) (p.2 + 1)).card ∧
    (0 < n → ((scoreN4 (gridOf n f) : Nat) : Int) =
      10 * ⌊|100 * ((gridOf n f).flatten.count true : ℚ) / (n * n : ℚ) - 50| / 5⌋)

/-- R165, which the spec derives: the bounds of the components and the total at every symbol size. -/
def Obligations.PenaltiesStayBelowTheirBounds : Prop :=
  ∀ (n : Nat) (f : Nat → Nat → Bool), n ≤ 57 →
    (scoreColours (gridOf n f)).n1 ≤ 6270 ∧ (scoreColours (gridOf n f)).n2 ≤ 9408 ∧
    (scoreColours (gridOf n f)).n3 ≤ 232560 ∧ (scoreColours (gridOf n f)).n4 ≤ 100 ∧
    (scoreColours (gridOf n f)).total ≤ 248338 ∧ (scoreColours (gridOf n f)).total < 2 ^ 18

/-- R166: `MX.SCORE` scores a full matrix by its colours, writes the four components, their sum and
`RES`, and nothing else; it raises without a matrix or on an Unset cell. -/
def Obligations.MxScoreReturnsThePenalty : Prop :=
  (∀ s : State, s.Inv → s.ver ≠ 0#4 →
    (∀ r < side s, ∀ c < side s, cell s.mx r c ≠ .unset) →
    ∀ p, p = scoreColours (gridOf (side s) fun r c => cell s.mx r c == .dark) →
    ∃ t, exec .mxScore s = .next t ∧
      t.pen.toList.map BitVec.toNat = [p.n1 + p.n2 + p.n3 + p.n4, p.n1, p.n2, p.n3, p.n4] ∧
      t.res = t.pen[0] ∧ OnlyChanges [.pen, .res] s t) ∧
  (∀ s : State, s.Inv → (s.ver = 0#4 ∨ ∃ r < side s, ∃ c < side s, cell s.mx r c = .unset) →
    exec .mxScore s = .next (faultEntry .invalidSequence (encode .mxScore) s))

/-- R168: `ENC.BEST v` builds and scores the eight trials as `MX.BUILD v, 1, m` and `MX.SCORE` do,
keeps the least mask of minimum total, rebuilds with it as `MX.BUILD v, 0, best` does, and leaves the
scores, the mask, `FIN` and `RES` as the rule says. -/
def Obligations.EncBestKeepsTheLeastPenalty : Prop :=
  ∀ (v : BitVec 4) (s : State), versionOk v = true →
    ∃ (t : State) (best : Fin 8) (u u' : Fin 8 → State) (w : State),
      exec (.encBest v) s = .next t ∧
      (∀ m : Fin 8, exec (.mxBuild v true (BitVec.ofNat 4 m)) s = .next (u m) ∧
        exec .mxScore (u m) = .next (u' m) ∧ t.tpen[m] = (u' m).res) ∧
      (∀ m : Fin 8, t.tpen[best].toNat ≤ t.tpen[m].toNat) ∧
      (∀ m : Fin 8, m < best → t.tpen[best].toNat < t.tpen[m].toNat) ∧
      exec (.mxBuild v false (BitVec.ofNat 4 best)) s = .next w ∧
      t.mx = w.mx ∧ t.ver = v ∧ t.fin = true ∧ t.pen = (u' best).pen ∧ t.pen[0] = t.tpen[best] ∧
      t.bmask.toNat = best ∧ t.res.toNat = best ∧
      OnlyChanges [.ver, .matrix, .fin, .pen, .tpen, .bmask, .res] s t

/-! ### Encoder -/

/-- R170, R172: `ENC.RUN` is `EC.ASM`, `EC.ENC` and `ENC.BEST` at the least version that holds the
data list, with the side length in `RES`; when no version holds it, it raises and writes nothing
else. -/
def Obligations.EncRunIsThePipelineAtTheLeastVersion : Prop :=
  ∀ s : State,
    (∀ v : BitVec 4, versionOk v = true → (listBits s.items v.toNat).length ≤ cap v.toNat →
      (∀ u : BitVec 4, versionOk u = true → u.toNat < v.toNat →
        cap u.toNat < (listBits s.items u.toNat).length) →
      ∃ s1 s2 s3 t, exec (.ecAsm v) s = .next s1 ∧ exec (.ecEnc v) s1 = .next s2 ∧
        exec (.encBest v) s2 = .next s3 ∧ exec .encRun s = .next t ∧
        t = { s3 with res := BitVec.ofNat 32 (4 * v.toNat + 17) } ∧ t.bs.len = cap v.toNat ∧
        t.cwLen = totalcw v.toNat ∧ t.ver = v ∧ t.fin = true ∧
        OnlyChanges [.bits, .code, .ver, .matrix, .fin, .pen, .tpen, .bmask, .res] s t) ∧
    ((∀ v : BitVec 4, versionOk v = true → cap v.toNat < (listBits s.items v.toNat).length) →
      exec .encRun s = .next (faultEntry .capacityExceeded 0x71000000#32 s))

/-- The capacities that R116 and R133 derive: the largest single item of each version, and that no
version holds more than 213 bytes, so that `ENC.RUN` raises. -/
def Obligations.CapacitiesOfSingleItems : Prop :=
  (∀ (v : BitVec 4) (x : List Byte), versionOk v = true →
    (preLen [x] v.toNat ≤ cap v.toNat ↔
      x.length ≤ [14, 26, 42, 62, 84, 106, 122, 152, 180, 213].getD (v.toNat - 1) 0)) ∧
  (∀ x : List Byte, x.length ≤ 213 → ∃ v, selectVersion [x] = some v ∧
    (x.length ≤ 14 → v = 1) ∧ (x.length = 15 → v = 2) ∧ (181 ≤ x.length → v = 10)) ∧
  (∀ s : State, s.plLen = s.itemLen.sum → 213 < s.plLen →
    exec .encRun s = .next (faultEntry .capacityExceeded 0x71000000#32 s))

/-! ### Placement in another order -/

/-- The two cases of R209. `MX.DATA` before the function patterns fills every cell (column 6 too: log
entry 16), and a later `MX.TIME` then finds nothing Unset and changes nothing but `FIN`. `MX.ALGN` before
`MX.FIND` places all nine combinations for versions 7 to 10, and the finders then change cells of just
three of them. `FIN` is 0 after either. -/
def Obligations.PlacementInAnotherOrder : Prop :=
  (∀ (mask : BitVec 4) (s : State), s.Inv → s.ver ≠ 0#4 → mask.toNat < 8 →
    ∃ t, exec (.mxData mask) s = .next t ∧ t.fin = false ∧ OnlyChanges [.matrix, .fin] s t ∧
      (∀ r < side s, ∀ c < side s, cell t.mx r c ≠ .unset) ∧ exec .mxTime t = .next t) ∧
  (∀ (v : BitVec 4) (s : State), 7 ≤ v.toNat → v.toNat ≤ 10 →
    ∃ s1 t u, exec (.mxInit v) s = .next s1 ∧ exec .mxAlgn s1 = .next t ∧
      exec .mxFind t = .next u ∧ u.fin = false ∧ OnlyChanges [.ver, .matrix, .fin] s u ∧
      (alignPairs v.toNat).length = 9 ∧
      ∀ p ∈ alignPairs v.toNat,
        (∀ r c, ring p.1 p.2 r c ≤ 2 → cell t.mx r c = ofDark (ring p.1 p.2 r c ≠ 1)) ∧
        ((∃ r c, ring p.1 p.2 r c ≤ 2 ∧ cell u.mx r c ≠ cell t.mx r c) ↔
          p ∈ [(6, 6), (6, 4 * v.toNat + 10), (4 * v.toNat + 10, 6)]))
end

