-- ==== Sys2Proof/Laws/Config.lean ====
section
/-! SUPPORT. That the machine has the sizes that the parameters of 00_scope.md R6 name, where a type or
a formula fixes them. -/

namespace Sys2Proof.Machine

/-- There are `NPOLY` polynomial registers (R6, 10_state.md R21). -/
theorem preg_count : ∃ l : List PReg, l.Nodup ∧ (∀ r, r ∈ l) ∧ l.length = Config.nPoly :=
  ⟨[.p0, .p1, .p2, .p3], by decide, by intro r; cases r <;> decide, rfl⟩

/-- `MX_MAX` is the side length of the largest version (R6). -/
theorem sideOf_verMax : sideOf Config.verMax = Config.mxMax := rfl

/-- No side length is above `MX_MAX` (10_state.md R19, R26). -/
theorem side_le_mxMax {s : State} (h : s.ver.toNat ≤ Config.verMax) : side s ≤ Config.mxMax := by
  unfold side sideOf
  simp only [Config.verMax, Config.mxMax] at *
  split <;> omega

/-- `RES` and the total penalty: a word holds every number below 2^18, the bound that R6 asks of
`XLEN`. -/
theorem xlen_holds_the_total : 2 ^ 18 ≤ 2 ^ Config.xlen := by decide

end Sys2Proof.Machine
end

