-- ==== Sys2Proof/Laws/Encoding.lean ====
section
/-! SUPPORT. What each field of each format reads back as: the small lemmas of the encoder and of
`bits` (30_encoding.md R61 to R68). -/

namespace Sys2Proof

/-- A field is known from its bits. -/
theorem bits_eq {w : Word} {lo len : Nat} {x : BitVec len}
    (h : ∀ i, i < len → w.getLsbD (lo + i) = x.getLsbD i) : bits w lo len = x := by
  apply BitVec.eq_of_getLsbD_eq
  intro i hi
  simp [bits, hi, h i hi]

@[simp] theorem PReg.ofBits_toBits (r : PReg) : PReg.ofBits r.toBits = r := by cases r <;> rfl

theorem PReg.toBits_ofBits (b : BitVec 2) : (PReg.ofBits b).toBits = b := by
  revert b
  decide

/-! ### Format I24 -/

theorem fmtI24_op (op : Byte) (n : BitVec 24) : bits (fmtI24 op n) 24 8 = op := by
  refine bits_eq fun i hi => ?_
  simp only [fmtI24, BitVec.getLsbD_append]
  interval_cases i <;> simp

theorem fmtI24_n (op : Byte) (n : BitVec 24) : bits (fmtI24 op n) 0 24 = n := by
  refine bits_eq fun i hi => ?_
  simp only [fmtI24, BitVec.getLsbD_append]
  interval_cases i <;> simp

/-! ### Format Z -/

theorem fmtZ_op (op : Byte) :
    bits (fmtZ op) 24 8 = op := by
  refine bits_eq fun i hi => ?_
  simp only [fmtZ, BitVec.getLsbD_append]
  interval_cases i <;> simp

theorem fmtZ_zero (op : Byte) :
    bits (fmtZ op) 0 24 = 0#24 := by
  refine bits_eq fun i hi => ?_
  simp only [fmtZ, BitVec.getLsbD_append]
  interval_cases i <;> simp

/-! ### Format AB -/

theorem fmtAB_op (op b a : Byte) :
    bits (fmtAB op b a) 24 8 = op := by
  refine bits_eq fun i hi => ?_
  simp only [fmtAB, BitVec.getLsbD_append]
  interval_cases i <;> simp

theorem fmtAB_reserved (op b a : Byte) :
    bits (fmtAB op b a) 16 8 = 0#8 := by
  refine bits_eq fun i hi => ?_
  simp only [fmtAB, BitVec.getLsbD_append]
  interval_cases i <;> simp

theorem fmtAB_b (op b a : Byte) :
    bits (fmtAB op b a) 8 8 = b := by
  refine bits_eq fun i hi => ?_
  simp only [fmtAB, BitVec.getLsbD_append]
  interval_cases i <;> simp

theorem fmtAB_a (op b a : Byte) :
    bits (fmtAB op b a) 0 8 = a := by
  refine bits_eq fun i hi => ?_
  simp only [fmtAB, BitVec.getLsbD_append]
  interval_cases i <;> simp

/-! ### Format P -/

theorem fmtP_op (op k : Byte) (ps2 ps1 pd : PReg) :
    bits (fmtP op k ps2 ps1 pd) 24 8 = op := by
  refine bits_eq fun i hi => ?_
  simp only [fmtP, BitVec.getLsbD_append]
  interval_cases i <;> simp

theorem fmtP_reserved (op k : Byte) (ps2 ps1 pd : PReg) :
    bits (fmtP op k ps2 ps1 pd) 16 8 = 0#8 := by
  refine bits_eq fun i hi => ?_
  simp only [fmtP, BitVec.getLsbD_append]
  interval_cases i <;> simp

theorem fmtP_k (op k : Byte) (ps2 ps1 pd : PReg) :
    bits (fmtP op k ps2 ps1 pd) 8 8 = k := by
  refine bits_eq fun i hi => ?_
  simp only [fmtP, BitVec.getLsbD_append]
  interval_cases i <;> simp

theorem fmtP_reserved2 (op k : Byte) (ps2 ps1 pd : PReg) :
    bits (fmtP op k ps2 ps1 pd) 6 2 = 0#2 := by
  refine bits_eq fun i hi => ?_
  simp only [fmtP, BitVec.getLsbD_append]
  interval_cases i <;> simp

theorem fmtP_ps2 (op k : Byte) (ps2 ps1 pd : PReg) :
    bits (fmtP op k ps2 ps1 pd) 4 2 = ps2.toBits := by
  refine bits_eq fun i hi => ?_
  simp only [fmtP, BitVec.getLsbD_append]
  interval_cases i <;> simp

theorem fmtP_ps1 (op k : Byte) (ps2 ps1 pd : PReg) :
    bits (fmtP op k ps2 ps1 pd) 2 2 = ps1.toBits := by
  refine bits_eq fun i hi => ?_
  simp only [fmtP, BitVec.getLsbD_append]
  interval_cases i <;> simp

theorem fmtP_pd (op k : Byte) (ps2 ps1 pd : PReg) :
    bits (fmtP op k ps2 ps1 pd) 0 2 = pd.toBits := by
  refine bits_eq fun i hi => ?_
  simp only [fmtP, BitVec.getLsbD_append]
  interval_cases i <;> simp

/-! ### Format BP -/

theorem fmtBP_op (op : Byte) (count : BitVec 5) (value : BitVec 16) :
    bits (fmtBP op count value) 24 8 = op := by
  refine bits_eq fun i hi => ?_
  simp only [fmtBP, BitVec.getLsbD_append]
  interval_cases i <;> simp

theorem fmtBP_reserved (op : Byte) (count : BitVec 5) (value : BitVec 16) :
    bits (fmtBP op count value) 21 3 = 0#3 := by
  refine bits_eq fun i hi => ?_
  simp only [fmtBP, BitVec.getLsbD_append]
  interval_cases i <;> simp

theorem fmtBP_count (op : Byte) (count : BitVec 5) (value : BitVec 16) :
    bits (fmtBP op count value) 16 5 = count := by
  refine bits_eq fun i hi => ?_
  simp only [fmtBP, BitVec.getLsbD_append]
  interval_cases i <;> simp

theorem fmtBP_value (op : Byte) (count : BitVec 5) (value : BitVec 16) :
    bits (fmtBP op count value) 0 16 = value := by
  refine bits_eq fun i hi => ?_
  simp only [fmtBP, BitVec.getLsbD_append]
  interval_cases i <;> simp

/-! ### Format V -/

theorem fmtV_op (op : Byte) (v : BitVec 4) (test : Bool) (mask : BitVec 4) :
    bits (fmtV op v test mask) 24 8 = op := by
  refine bits_eq fun i hi => ?_
  simp only [fmtV, BitVec.getLsbD_append]
  interval_cases i <;> simp

theorem fmtV_reserved (op : Byte) (v : BitVec 4) (test : Bool) (mask : BitVec 4) :
    bits (fmtV op v test mask) 12 12 = 0#12 := by
  refine bits_eq fun i hi => ?_
  simp only [fmtV, BitVec.getLsbD_append]
  interval_cases i <;> simp

theorem fmtV_v (op : Byte) (v : BitVec 4) (test : Bool) (mask : BitVec 4) :
    bits (fmtV op v test mask) 8 4 = v := by
  refine bits_eq fun i hi => ?_
  simp only [fmtV, BitVec.getLsbD_append]
  interval_cases i <;> simp

theorem fmtV_reserved2 (op : Byte) (v : BitVec 4) (test : Bool) (mask : BitVec 4) :
    bits (fmtV op v test mask) 5 3 = 0#3 := by
  refine bits_eq fun i hi => ?_
  simp only [fmtV, BitVec.getLsbD_append]
  interval_cases i <;> simp

theorem fmtV_test (op : Byte) (v : BitVec 4) (test : Bool) (mask : BitVec 4) :
    bits (fmtV op v test mask) 4 1 = BitVec.ofBool test := by
  refine bits_eq fun i hi => ?_
  simp only [fmtV, BitVec.getLsbD_append]
  interval_cases i
  simp

theorem fmtV_mask (op : Byte) (v : BitVec 4) (test : Bool) (mask : BitVec 4) :
    bits (fmtV op v test mask) 0 4 = mask := by
  refine bits_eq fun i hi => ?_
  simp only [fmtV, BitVec.getLsbD_append]
  interval_cases i <;> simp

/-! ### Format X16 -/

theorem fmtX16_op (op : Byte) (idx : BitVec 16) :
    bits (fmtX16 op idx) 24 8 = op := by
  refine bits_eq fun i hi => ?_
  simp only [fmtX16, BitVec.getLsbD_append]
  interval_cases i <;> simp

theorem fmtX16_reserved (op : Byte) (idx : BitVec 16) :
    bits (fmtX16 op idx) 16 8 = 0#8 := by
  refine bits_eq fun i hi => ?_
  simp only [fmtX16, BitVec.getLsbD_append]
  interval_cases i <;> simp

theorem fmtX16_idx (op : Byte) (idx : BitVec 16) :
    bits (fmtX16 op idx) 0 16 = idx := by
  refine bits_eq fun i hi => ?_
  simp only [fmtX16, BitVec.getLsbD_append]
  interval_cases i <;> simp

/-! ### Format RC -/

theorem fmtRC_op (op : Byte) (mask : BitVec 4) (col row : Byte) :
    bits (fmtRC op mask col row) 24 8 = op := by
  refine bits_eq fun i hi => ?_
  simp only [fmtRC, BitVec.getLsbD_append]
  interval_cases i <;> simp

theorem fmtRC_reserved (op : Byte) (mask : BitVec 4) (col row : Byte) :
    bits (fmtRC op mask col row) 20 4 = 0#4 := by
  refine bits_eq fun i hi => ?_
  simp only [fmtRC, BitVec.getLsbD_append]
  interval_cases i <;> simp

theorem fmtRC_mask (op : Byte) (mask : BitVec 4) (col row : Byte) :
    bits (fmtRC op mask col row) 16 4 = mask := by
  refine bits_eq fun i hi => ?_
  simp only [fmtRC, BitVec.getLsbD_append]
  interval_cases i <;> simp

theorem fmtRC_col (op : Byte) (mask : BitVec 4) (col row : Byte) :
    bits (fmtRC op mask col row) 8 8 = col := by
  refine bits_eq fun i hi => ?_
  simp only [fmtRC, BitVec.getLsbD_append]
  interval_cases i <;> simp

theorem fmtRC_row (op : Byte) (mask : BitVec 4) (col row : Byte) :
    bits (fmtRC op mask col row) 0 8 = row := by
  refine bits_eq fun i hi => ?_
  simp only [fmtRC, BitVec.getLsbD_append]
  interval_cases i <;> simp

end Sys2Proof
end

