-- ==== Sys2Proof/Laws/Field.lean ====
section
/-! SUPPORT. The exponent and logarithm tables are inverse to each other, and what that gives for
`gmul` and for one step of the long division (40_galois_field.md R80 to R84; 41_polynomial.md R91 to
R94). -/

namespace Sys2Proof.Machine

/-! ### Tables -/

theorem logAt_expAt (i : Fin 255) : expAt i ≠ 0#8 ∧ logAt (expAt i).toNat = i := by
  revert i
  decide +kernel

theorem expAt_logAt (a : Byte) (h : a ≠ 0#8) : logAt a.toNat < 255 ∧ expAt (logAt a.toNat) = a := by
  revert a
  decide +kernel

@[simp] theorem glog_zero : glog 0#8 = none := rfl

theorem glog_of_ne {a : Byte} (h : a ≠ 0#8) : glog a = some (logAt a.toNat) := if_neg h

theorem gexp_ne_zero (n : Int) : gexp n ≠ 0#8 := by
  have h : (n % 255).toNat < 255 := by omega
  exact (logAt_expAt ⟨_, h⟩).1

theorem glog_gexp (n : Int) : glog (gexp n) = some (n % 255).toNat := by
  have h : (n % 255).toNat < 255 := by omega
  rw [glog_of_ne (gexp_ne_zero n)]
  exact congrArg some (logAt_expAt ⟨_, h⟩).2

theorem gexp_logAt {a : Byte} (h : a ≠ 0#8) : gexp (logAt a.toNat) = a := by
  have h' := expAt_logAt a h
  have e : ((logAt a.toNat : Int) % 255).toNat = logAt a.toNat := by omega
  rw [gexp, e, h'.2]

theorem gexp_emod (n : Int) : gexp (n % 255) = gexp n := by simp [gexp]

/-! ### The product -/

@[simp] theorem gmul_zero_left (b : Byte) : gmul 0#8 b = 0#8 := rfl

@[simp] theorem gmul_zero_right (a : Byte) : gmul a 0#8 = 0#8 := by
  unfold gmul
  cases glog a <;> rfl

theorem gmul_of_ne {a b : Byte} (ha : a ≠ 0#8) (hb : b ≠ 0#8) :
    gmul a b = gexp (logAt a.toNat + logAt b.toNat) := by
  simp only [gmul, glog_of_ne ha, glog_of_ne hb]
  rw [Int.natCast_emod, Int.natCast_add]
  exact gexp_emod _

theorem gmul_comm (a b : Byte) : gmul a b = gmul b a := by
  by_cases ha : a = 0#8
  · simp [ha]
  · by_cases hb : b = 0#8
    · simp [hb]
    · rw [gmul_of_ne ha hb, gmul_of_ne hb ha, Int.add_comm]

theorem gmul_ne_zero {a b : Byte} (ha : a ≠ 0#8) (hb : b ≠ 0#8) : gmul a b ≠ 0#8 := by
  rw [gmul_of_ne ha hb]
  exact gexp_ne_zero _

/-- The field ratio of R93 scales the divisor's leading coefficient to the dividend's. -/
theorem gmul_ratio {x y : Byte} (hx : x ≠ 0#8) (hy : y ≠ 0#8) :
    gmul y (gexp (logAt x.toNat - logAt y.toNat)) = x := by
  have hy' := glog_of_ne hy
  rw [gmul, hy', glog_gexp]
  show gexp (((logAt y.toNat + (((logAt x.toNat : Int) - logAt y.toNat) % 255).toNat) % 255 : Nat)) = x
  have e : (((logAt y.toNat + (((logAt x.toNat : Int) - logAt y.toNat) % 255).toNat) % 255 : Nat) : Int)
      = (logAt x.toNat : Int) % 255 := by omega
  rw [e, gexp_emod, gexp_logAt hx]

/-! ### Lengths -/

@[simp] theorem xorList_length (a b : List Byte) :
    (xorList a b).length = min a.length b.length := by simp [xorList]

theorem mkpoly_length (c : Poly) (k : Nat) :
    (mkpoly c k).length = (c.dropWhile (· == 0#8)).length + k := by simp [mkpoly]

theorem mkpoly_length_le (c : Poly) (k : Nat) : (mkpoly c k).length ≤ c.length + k := by
  rw [mkpoly_length]
  exact Nat.add_le_add_right (List.dropWhile_sublist _).length_le k

@[simp] theorem mkpoly_cons_zero (c : Poly) (k : Nat) : mkpoly (0#8 :: c) k = mkpoly c k := by
  simp [mkpoly]

theorem mkpoly_of_head_ne {x : Byte} (h : x ≠ 0#8) (c : Poly) (k : Nat) :
    mkpoly (x :: c) k = x :: c ++ List.replicate k 0#8 := by
  simp [mkpoly, h]

/-- What the constructor strips leaves nothing, or a nonzero leading coefficient (R91). -/
theorem mkpoly_zero_canonical (c : Poly) : mkpoly c 0 = [] ∨ (mkpoly c 0).headD 0#8 ≠ 0#8 := by
  induction c with
  | nil => exact .inl rfl
  | cons x c ih =>
    by_cases h : x = 0#8
    · subst h
      simpa using ih
    · right
      simpa [mkpoly_of_head_ne h] using h

theorem conv_length {b : Poly} (hb : b ≠ []) (a : Poly) :
    (conv a b).length = a.length + b.length - 1 := by
  have h1 : 0 < b.length := List.length_pos_iff.mpr hb
  induction a with
  | nil => simp [conv]
  | cons x a ih =>
    simp only [conv, xorList_length, List.length_append, List.length_map, List.length_replicate,
      List.length_cons, ih]
    omega

theorem pmul_length_le (a b : Poly) (ha : a ≠ []) (hb : b ≠ []) :
    (pmul a b).length ≤ a.length + b.length - 1 := by
  have h := mkpoly_length_le (conv a b) 0
  rw [conv_length hb] at h
  simpa [pmul, ha, hb] using h

/-! ### The long division -/

/-- A step of R93 on nonzero leading coefficients cancels the leading coefficient. -/
theorem pmodStep_cons {x y : Byte} (hx : x ≠ 0#8) (hy : y ≠ 0#8) (t d : Poly) :
    pmodStep (x :: t) (y :: d) =
      some (mkpoly (xorList t (d.map (fun c => gmul c (gexp (logAt x.toNat - logAt y.toNat))) ++
        List.replicate (t.length - d.length) 0#8)) 0) := by
  simp [pmodStep, glog_of_ne hx, glog_of_ne hy, xorList, gmul_ratio hx hy]

theorem pmodStep_some {t d t' : Poly} (h : pmodStep t d = some t') :
    t.headD 0#8 ≠ 0#8 ∧ d.headD 0#8 ≠ 0#8 := by
  unfold pmodStep at h
  constructor
  · intro h0
    rw [h0] at h
    simp at h
  · intro h0
    rw [h0] at h
    cases glog (t.headD 0#8) <;> simp at h

/-- Each step of R93 shortens the dividend. -/
theorem pmodStep_length_lt {t d t' : Poly} (h : pmodStep t d = some t') : t'.length < t.length := by
  obtain ⟨ht, hd⟩ := pmodStep_some h
  cases t with
  | nil => simp at ht
  | cons x t =>
    cases d with
    | nil => simp at hd
    | cons y d =>
      rw [pmodStep_cons (by simpa using ht) (by simpa using hd)] at h
      have h' := Option.some.inj h
      have hl := mkpoly_length_le (xorList t (d.map
        (fun c => gmul c (gexp (logAt x.toNat - logAt y.toNat))) ++
        List.replicate (t.length - d.length) 0#8)) 0
      rw [h', xorList_length] at hl
      simp only [List.length_cons]
      omega

/-- A step of R93 leaves a canonical list. -/
theorem pmodStep_canonical {t d t' : Poly} (h : pmodStep t d = some t') :
    t' = [] ∨ t'.headD 0#8 ≠ 0#8 := by
  unfold pmodStep at h
  split at h
  · have h' := Option.some.inj h
    rw [← h']
    exact mkpoly_zero_canonical _
  · simp at h

/-- More fuel than the dividend is long makes no difference (log entry 7). -/
theorem pmodLoop_fuel (d : Poly) (hd : d ≠ []) : ∀ (n : Nat) (t : Poly) (k l : Nat),
    t.length ≤ n → t.length < k → t.length < l → pmodLoop k t d = pmodLoop l t d := by
  intro n
  induction n with
  | zero =>
    intro t k l hn hk hl
    have ht : t.length < d.length := by
      have := List.length_pos_iff.mpr hd
      omega
    cases k with
    | zero => omega
    | succ k =>
      cases l with
      | zero => omega
      | succ l => simp [pmodLoop, ht]
  | succ n ih =>
    intro t k l hn hk hl
    cases k with
    | zero => omega
    | succ k =>
      cases l with
      | zero => omega
      | succ l =>
        simp only [pmodLoop]
        split
        · rfl
        · cases hs : pmodStep t d with
          | none => rfl
          | some t' =>
            have := pmodStep_length_lt hs
            exact ih t' k l (by omega) (by omega) (by omega)

theorem pmodLoop_length {d r : Poly} : ∀ (k : Nat) (t : Poly), t.length < k →
    pmodLoop k t d = some r → r.length < d.length ∧ r.length ≤ t.length := by
  intro k
  induction k with
  | zero => intro t h; omega
  | succ k ih =>
    intro t hk h
    simp only [pmodLoop] at h
    split at h
    · have h' := Option.some.inj h
      subst h'
      exact ⟨by assumption, le_refl _⟩
    · cases hs : pmodStep t d with
      | none => simp [hs] at h
      | some t' =>
        have hl := pmodStep_length_lt hs
        rw [hs] at h
        have := ih t' (by omega) h
        omega

/-- What the long division can answer: a remainder shorter than the divisor and no longer than the
dividend (R93). -/
theorem pmod_length {a d r : Poly} (h : pmod a d = some r) :
    r.length < d.length ∧ r.length ≤ a.length := by
  unfold pmod at h
  split at h
  · simp at h
  · exact pmodLoop_length _ _ (Nat.lt_succ_self _) h

/-! ### Products of canonical polynomials -/

theorem conv_cons (x y : Byte) (a b : Poly) : ∃ l, conv (x :: a) (y :: b) = gmul x y :: l := by
  refine ⟨xorList (b.map (gmul x) ++ List.replicate a.length 0#8) (conv a (y :: b)), ?_⟩
  simp [conv, xorList]

/-- Two nonzero leading coefficients have a nonzero leading product, so nothing is stripped (R92). -/
theorem pmul_cons {x y : Byte} (hx : x ≠ 0#8) (hy : y ≠ 0#8) (a b : Poly) :
    pmul (x :: a) (y :: b) = conv (x :: a) (y :: b) := by
  obtain ⟨l, hl⟩ := conv_cons x y a b
  simp only [pmul, List.cons_ne_nil, or_self, if_false, hl]
  rw [mkpoly_of_head_ne (gmul_ne_zero hx hy)]
  simp

theorem gmul_one (a : Byte) : gmul a 1#8 = a := by
  revert a
  decide +kernel

/-- The generator is monic and has `ec + 1` coefficients (R94). -/
theorem pgen_cons (ec : Nat) : ∃ l, pgen ec = 1#8 :: l ∧ l.length = ec := by
  induction ec with
  | zero => exact ⟨[], rfl, rfl⟩
  | succ ec ih =>
    obtain ⟨l, hl, hn⟩ := ih
    have h1 : (1#8 : Byte) ≠ 0#8 := by decide
    obtain ⟨l', hl'⟩ := conv_cons 1#8 1#8 l [gexp ec]
    have hlen := conv_length (b := [1#8, gexp ec]) (by simp) (1#8 :: l)
    refine ⟨l', ?_, ?_⟩
    · rw [pgen, hl, pmul_cons h1 h1, hl', gmul_one]
    · rw [hl'] at hlen
      simp only [List.length_cons, List.length_nil] at hlen
      omega

@[simp] theorem pgen_length (ec : Nat) : (pgen ec).length = ec + 1 := by
  obtain ⟨l, hl, hn⟩ := pgen_cons ec
  rw [hl, List.length_cons, hn]

end Sys2Proof.Machine
end

