-- ==== Sys2Proof/Laws/Matrix.lean ====
section
/-! SUPPORT. The matrix store: what a write of one cell does, that every placement keeps the grid
square, and that no placement makes a cell Unset (44_matrix_builder.md R135 to R151). -/

namespace Sys2Proof.Machine

/-! ### One cell -/

theorem cell_setCell_ne {g : Grid} {r c r' c' : Nat} (h : r' ≠ r ∨ c' ≠ c) (m : ModuleCode) :
    cell (setCell g r c m) r' c' = cell g r' c' := by
  unfold cell setCell
  simp only [List.getD_eq_getElem?_getD]
  by_cases hr : r' = r
  · subst hr
    have hc : c' ≠ c := by tauto
    rw [List.getElem?_modify_eq]
    cases hg : g[r']? with
    | none => simp
    | some row => simp [List.getElem?_set_ne (Ne.symm hc)]
  · rw [List.getElem?_modify_ne _ _ (Ne.symm hr)]

theorem cell_setCell_self {g : Grid} {n r c : Nat} (h : gridSquare n g) (hr : r < n) (hc : c < n)
    (m : ModuleCode) : cell (setCell g r c m) r c = m := by
  have hr' : r < g.length := by rw [h.1]; exact hr
  have hl := h.2 g[r] (List.getElem_mem hr')
  unfold cell setCell
  simp only [List.getD_eq_getElem?_getD, List.getElem?_modify_eq, List.getElem?_eq_getElem hr',
    Option.map_eq_map, Option.map_some, Option.getD_some]
  rw [List.getElem?_set_self (by omega)]
  rfl

/-- What one write does to every cell of a square grid. -/
theorem cell_setCell {g : Grid} {n r c : Nat} (h : gridSquare n g) (hr : r < n) (hc : c < n)
    (m : ModuleCode) (r' c' : Nat) :
    cell (setCell g r c m) r' c' = if r' = r ∧ c' = c then m else cell g r' c' := by
  split
  · rename_i e
    rw [e.1, e.2, cell_setCell_self h hr hc]
  · exact cell_setCell_ne (by tauto) m

theorem cell_setmod_ne_unset {g : Grid} {r' c' : Nat} (h : cell g r' c' ≠ .unset) (r c : Nat)
    (d : Bool) : cell (setmod g r c d) r' c' ≠ .unset := by
  by_cases e : r' = r ∧ c' = c
  · obtain ⟨rfl, rfl⟩ := e
    unfold cell setmod setCell at *
    simp only [List.getD_eq_getElem?_getD, List.getElem?_modify_eq] at *
    cases hg : g[r']? with
    | none => simp [hg] at h
    | some row =>
      simp only [hg, Option.getD_some, Option.map_eq_map, Option.map_some] at *
      have hc : c' < row.length := by
        by_contra hc
        simp [List.getElem?_eq_none (Nat.not_lt.mp hc)] at h
      rw [List.getElem?_set_self hc]
      cases d <;> simp
  · rw [setmod, cell_setCell_ne (by tauto)]
    exact h

/-! ### Shape -/

theorem gridSquare_blankGrid (n : Nat) : gridSquare n (blankGrid n) := by
  constructor
  · simp [blankGrid]
  · intro row hrow
    rw [(List.mem_replicate.mp hrow).2]
    simp

theorem gridSquare_setCell {n : Nat} {g : Grid} (h : gridSquare n g) (r c : Nat) (m : ModuleCode) :
    gridSquare n (setCell g r c m) := by
  constructor
  · rw [setCell, List.length_modify, h.1]
  · intro row hrow
    obtain ⟨i, hi, he⟩ := List.getElem_of_mem hrow
    simp only [setCell, List.length_modify] at hi
    simp only [setCell, List.getElem_modify] at he
    rw [← he]
    split
    · rw [List.length_set]
      exact h.2 _ (List.getElem_mem hi)
    · exact h.2 _ (List.getElem_mem hi)

theorem gridSquare_setmod {n : Nat} {g : Grid} (h : gridSquare n g) (r c : Nat) (d : Bool) :
    gridSquare n (setmod g r c d) := gridSquare_setCell h r c _

/-- A property that one step keeps is kept by a fold. -/
theorem foldl_keeps {α β : Type} {P : α → Prop} {f : α → β → α} (hf : ∀ a b, P a → P (f a b))
    (l : List β) {a : α} (h : P a) : P (l.foldl f a) := by
  induction l generalizing a with
  | nil => exact h
  | cons b l ih => exact ih (hf a b h)

theorem gridSquare_paint {n : Nat} {g : Grid} (h : gridSquare n g) (ws : List (Nat × Nat × Bool)) :
    gridSquare n (paint g ws) :=
  foldl_keeps (P := gridSquare n) (fun _ _ hg => gridSquare_setmod hg _ _ _) ws h

theorem gridSquare_setIfUnset {n : Nat} {g : Grid} (h : gridSquare n g) (r c : Nat) (d : Bool) :
    gridSquare n (setIfUnset g r c d) := by
  unfold setIfUnset
  split
  · exact gridSquare_setmod h r c d
  · exact h

theorem gridSquare_putFinders {n m : Nat} {g : Grid} (h : gridSquare n g) :
    gridSquare n (putFinders m g) :=
  gridSquare_paint (gridSquare_paint (gridSquare_paint h _) _) _

theorem gridSquare_putAligns {n v : Nat} {g : Grid} (h : gridSquare n g) :
    gridSquare n (putAligns v g) := by
  refine foldl_keeps (P := gridSquare n) (fun g p hg => ?_) _ h
  unfold putAlign
  split
  · exact gridSquare_paint hg _
  · exact hg

theorem gridSquare_putTiming {n m : Nat} {g : Grid} (h : gridSquare n g) :
    gridSquare n (putTiming m g) :=
  foldl_keeps (P := gridSquare n) (fun _ _ hg => gridSquare_setIfUnset hg _ _ _) _
    (foldl_keeps (P := gridSquare n) (fun _ _ hg => gridSquare_setIfUnset hg _ _ _) _ h)

theorem gridSquare_putFormat {n m k : Nat} {test : Bool} {g : Grid} (h : gridSquare n g) :
    gridSquare n (putFormat m test k g) := gridSquare_paint h _

theorem gridSquare_putVersion {n m v : Nat} {g : Grid} (h : gridSquare n g) :
    gridSquare n (putVersion m v g) := by
  unfold putVersion
  split
  · exact gridSquare_paint h _
  · exact h

theorem gridSquare_placeCell {n : Nat} {masked : Bool} {mask : Nat} {st : Grid × List Bool}
    (h : gridSquare n st.1) (p : Nat × Nat) : gridSquare n (placeCell masked mask st p).1 := by
  unfold placeCell
  split
  · split
    · exact gridSquare_setmod h _ _ _
    · exact gridSquare_setmod h _ _ _
  · exact h

theorem gridSquare_placeWalk {n m mask : Nat} {masked : Bool} {cw : List Byte} {g : Grid}
    (h : gridSquare n g) : gridSquare n (placeWalk masked m mask cw g) :=
  foldl_keeps (P := fun st : Grid × List Bool => gridSquare n st.1)
    (fun _ p hst => gridSquare_placeCell hst p) _ h

theorem gridSquare_fillColumn6 {n m mask : Nat} {masked : Bool} {g : Grid} (h : gridSquare n g) :
    gridSquare n (fillColumn6 masked m mask g) :=
  foldl_keeps (P := gridSquare n) (fun _ _ hg => gridSquare_setIfUnset hg _ _ _) _ h

theorem gridSquare_placeData {n m mask : Nat} {masked : Bool} {cw : List Byte} {g : Grid}
    (h : gridSquare n g) : gridSquare n (placeData masked m mask cw g) :=
  gridSquare_fillColumn6 (gridSquare_placeWalk h)

theorem gridSquare_functionPatterns (v : Nat) (test : Bool) (mask : Nat) :
    gridSquare (sideOf v) (functionPatterns v test mask) :=
  gridSquare_putVersion (gridSquare_putFormat (gridSquare_putTiming (gridSquare_putAligns
    (gridSquare_putFinders (gridSquare_blankGrid _)))))

theorem gridSquare_buildGrid (masked : Bool) (v : Nat) (test : Bool) (mask : Nat) (cw : List Byte) :
    gridSquare (sideOf v) (buildGrid masked v test mask cw) :=
  gridSquare_placeData (gridSquare_functionPatterns v test mask)

/-! ### No placement makes a cell Unset -/

theorem cell_paint_ne_unset {g : Grid} {r c : Nat} (h : cell g r c ≠ .unset)
    (ws : List (Nat × Nat × Bool)) : cell (paint g ws) r c ≠ .unset :=
  foldl_keeps (P := fun g : Grid => cell g r c ≠ .unset)
    (fun _ _ hg => cell_setmod_ne_unset hg _ _ _) ws h

theorem cell_setIfUnset_ne_unset {g : Grid} {r c : Nat} (h : cell g r c ≠ .unset) (r' c' : Nat)
    (d : Bool) : cell (setIfUnset g r' c' d) r c ≠ .unset := by
  unfold setIfUnset
  split
  · exact cell_setmod_ne_unset h _ _ _
  · exact h

theorem cell_placeCell_ne_unset {masked : Bool} {mask : Nat} {st : Grid × List Bool} {r c : Nat}
    (h : cell st.1 r c ≠ .unset) (p : Nat × Nat) :
    cell (placeCell masked mask st p).1 r c ≠ .unset := by
  unfold placeCell
  split
  · split
    · exact cell_setmod_ne_unset h _ _ _
    · exact cell_setmod_ne_unset h _ _ _
  · exact h

/-- Whether a square grid holds an Unset cell, said cell by cell. -/
theorem hasUnset_eq_false {n : Nat} {g : Grid} (h : gridSquare n g) :
    hasUnset g = false ↔ ∀ r c, r < n → c < n → cell g r c ≠ .unset := by
  have hcell : ∀ (r c : Nat) (hr : r < g.length) (hc : c < g[r].length), cell g r c = g[r][c] := by
    intro r c hr hc
    simp [cell, List.getElem?_eq_getElem hr, List.getElem?_eq_getElem hc]
  unfold hasUnset
  rw [List.any_eq_false]
  constructor
  · intro H r c hr hc
    have hr' : r < g.length := by rw [h.1]; exact hr
    have hc' : c < g[r].length := by rw [h.2 _ (List.getElem_mem hr')]; exact hc
    rw [hcell r c hr' hc']
    have := H g[r] (List.getElem_mem hr')
    simp only [List.any_eq_true, not_exists, not_and, beq_iff_eq] at this
    exact this _ (List.getElem_mem hc')
  · intro H row hrow
    obtain ⟨r, hr, rfl⟩ := List.getElem_of_mem hrow
    simp only [List.any_eq_true, not_exists, not_and, beq_iff_eq]
    intro m hm
    obtain ⟨c, hc, rfl⟩ := List.getElem_of_mem hm
    have hr' : r < n := by rw [← h.1]; exact hr
    have hc' : c < n := by rw [← h.2 _ (List.getElem_mem hr)]; exact hc
    rw [← hcell r c hr hc]
    exact H r c hr' hc'

/-! ### Painting -/

/-- A cell that no write names keeps its module. -/
theorem cell_paint_of_not_mem {r c : Nat} : ∀ (ws : List (Nat × Nat × Bool)) (g : Grid),
    (∀ w ∈ ws, ¬(w.1 = r ∧ w.2.1 = c)) → cell (paint g ws) r c = cell g r c := by
  intro ws
  induction ws with
  | nil => intro g _; rfl
  | cons w ws ih =>
    intro g h
    have hw := h w (List.mem_cons_self ..)
    have e : cell (setmod g w.1 w.2.1 w.2.2) r c = cell g r c :=
      cell_setCell_ne (by tauto) _
    exact (ih _ fun w' hw' => h w' (List.mem_cons_of_mem _ hw')).trans e

/-- A cell that is named gets the colour it is named with, when every write names it with that one
colour. -/
theorem cell_paint_of_mem {n r c : Nat} {d : Bool} (hr : r < n) (hc : c < n) :
    ∀ (ws : List (Nat × Nat × Bool)) (g : Grid), gridSquare n g →
    (∀ w ∈ ws, w.1 = r ∧ w.2.1 = c → w.2.2 = d) → (∃ w ∈ ws, w.1 = r ∧ w.2.1 = c) →
    cell (paint g ws) r c = ofDark d := by
  intro ws
  induction ws with
  | nil => rintro g _ _ ⟨w, hw, _⟩; cases hw
  | cons w ws ih =>
    intro g hg hcol hex
    by_cases htail : ∃ w' ∈ ws, w'.1 = r ∧ w'.2.1 = c
    · exact ih _ (gridSquare_setmod hg _ _ _) (fun w' hw' => hcol w' (List.mem_cons_of_mem _ hw'))
        htail
    · have hno : ∀ w' ∈ ws, ¬(w'.1 = r ∧ w'.2.1 = c) := fun w' hw' h' => htail ⟨w', hw', h'⟩
      obtain ⟨w', hw', h'⟩ := hex
      have hww : w' = w := by
        rcases List.mem_cons.mp hw' with e | e
        · exact e
        · exact absurd h' (hno w' e)
      subst hww
      have hd := hcol w' (List.mem_cons_self ..) h'
      have e := cell_paint_of_not_mem ws (setmod g w'.1 w'.2.1 w'.2.2) hno
      refine Eq.trans e ?_
      rw [h'.1, h'.2, hd]
      exact cell_setCell_self hg hr hc _

/-! ### What a build leaves set -/

theorem cell_setIfUnset_self {n r c : Nat} {g : Grid} (h : gridSquare n g) (hr : r < n) (hc : c < n)
    (d : Bool) : cell (setIfUnset g r c d) r c ≠ .unset := by
  unfold setIfUnset
  split
  · rw [setmod, cell_setCell_self h hr hc]
    cases d <;> simp
  · assumption

/-- A fold whose steps keep `I` and `P`, and one of whose steps makes `P` hold, ends with `P`. -/
theorem foldl_reaches {α β : Type} {I P : α → Prop} {f : α → β → α} (hI : ∀ a b, I a → I (f a b))
    (hP : ∀ a b, P a → P (f a b)) {b : β} (hb : ∀ a, I a → P (f a b)) :
    ∀ (l : List β) (a : α), I a → b ∈ l → P (l.foldl f a) := by
  intro l
  induction l with
  | nil => intro a _ hm; cases hm
  | cons x l ih =>
    intro a ha hm
    rcases List.mem_cons.mp hm with e | e
    · subst e
      exact foldl_keeps hP l (hb a ha)
    · exact ih _ (hI a x ha) e

/-- After the timing patterns no cell of column 6 is Unset (R141). -/
theorem cell_putTiming_col6 {n r : Nat} {g : Grid} (h : gridSquare n g) (hr : r < n) (h6 : 6 < n) :
    cell (putTiming n g) r 6 ≠ .unset := by
  unfold putTiming
  refine foldl_reaches (I := gridSquare n) (P := fun g : Grid => cell g r 6 ≠ .unset) (b := r)
    (f := fun g k => setIfUnset g k 6 (k % 2 == 0))
    (fun _ _ hg => gridSquare_setIfUnset hg _ _ _) (fun _ _ hg => cell_setIfUnset_ne_unset hg _ _ _)
    (fun _ hg => cell_setIfUnset_self hg hr h6 _) _ _ ?_ (List.mem_range.mpr hr)
  exact foldl_keeps (P := gridSquare n) (fun _ _ hg => gridSquare_setIfUnset hg _ _ _) _ h

/-- What `setIfUnset` does to every cell. -/
theorem cell_setIfUnset {n r' c' : Nat} {g : Grid} (h : gridSquare n g) (hr : r' < n) (hc : c' < n)
    (d : Bool) (r c : Nat) :
    cell (setIfUnset g r' c' d) r c =
      if r = r' ∧ c = c' ∧ cell g r c = .unset then ofDark d else cell g r c := by
  by_cases e : r = r' ∧ c = c'
  · obtain ⟨rfl, rfl⟩ := e
    unfold setIfUnset
    by_cases hu : cell g r c = .unset
    · simp only [hu, if_true, and_self]
      exact cell_setCell_self h hr hc _
    · simp [hu]
  · rw [if_neg (by tauto)]
    unfold setIfUnset
    split
    · exact cell_setCell_ne (by tauto) _
    · rfl

/-- What the filling of column 6 does to every cell: an Unset cell of column 6 gets the remainder
colour, and no other cell changes (R149, R209; log entry 16). -/
theorem cell_fillColumn6 {n mask : Nat} {masked : Bool} {g : Grid} (h : gridSquare n g) (h6 : 6 < n)
    (r c : Nat) :
    cell (fillColumn6 masked n mask g) r c =
      if r < n ∧ c = 6 ∧ cell g r c = .unset then ofDark (masked && maskfn mask r 6)
      else cell g r c := by
  let f := fun (g : Grid) (r : Nat) => setIfUnset g r 6 (masked && maskfn mask r 6)
  have rows : ∀ m ≤ n, gridSquare n ((List.range m).foldl f g) ∧
      cell ((List.range m).foldl f g) r c =
        if r < m ∧ c = 6 ∧ cell g r c = .unset then ofDark (masked && maskfn mask r 6)
        else cell g r c := by
    intro m
    induction m with
    | zero => intro _; exact ⟨h, by simp⟩
    | succ m ih =>
      intro hm
      obtain ⟨hsq, hc⟩ := ih (by omega)
      rw [List.range_succ, List.foldl_append]
      refine ⟨gridSquare_setIfUnset hsq _ _ _, ?_⟩
      simp only [List.foldl_cons, List.foldl_nil, f]
      rw [cell_setIfUnset hsq (by omega) h6, hc]
      by_cases hr : r = m
      · subst hr
        simp
      · by_cases hl : r < m
        · simp [hr, hl, Nat.lt_succ_of_lt hl]
        · simp [hr, hl, show ¬r < m + 1 by omega]
  exact (rows n (Nat.le_refl n)).2

theorem cell_fillColumn6_ne_unset {m mask r c : Nat} {masked : Bool} {g : Grid}
    (h : cell g r c ≠ .unset) : cell (fillColumn6 masked m mask g) r c ≠ .unset :=
  foldl_keeps (P := fun g : Grid => cell g r c ≠ .unset)
    (fun _ _ hg => cell_setIfUnset_ne_unset hg _ _ _) _ h

/-- Every cell that `placedata` visits is set afterwards (R149). -/
theorem cell_placeData_of_mem {n m mask r c : Nat} {masked : Bool} {cw : List Byte} {g : Grid}
    (h : gridSquare n g) (hr : r < n) (hc : c < n) (hm : (r, c) ∈ dataOrder m) :
    cell (placeData masked m mask cw g) r c ≠ .unset := by
  unfold placeData
  refine cell_fillColumn6_ne_unset ?_
  unfold placeWalk
  refine foldl_reaches (I := fun st : Grid × List Bool => gridSquare n st.1)
    (P := fun st : Grid × List Bool => cell st.1 r c ≠ .unset) (b := (r, c))
    (fun _ p hst => gridSquare_placeCell hst p) (fun _ p hst => cell_placeCell_ne_unset hst p)
    (fun st hst => ?_) _ _ h hm
  unfold placeCell
  split
  · split
    · rw [setmod, cell_setCell_self hst hr hc]
      split <;> simp
    · rw [setmod, cell_setCell_self hst hr hc]
      split <;> simp
  · assumption

/-- `placedata` makes no cell Unset (R149). -/
theorem cell_placeData_ne_unset {m mask r c : Nat} {masked : Bool} {cw : List Byte} {g : Grid}
    (h : cell g r c ≠ .unset) : cell (placeData masked m mask cw g) r c ≠ .unset :=
  cell_fillColumn6_ne_unset (foldl_keeps (P := fun st : Grid × List Bool => cell st.1 r c ≠ .unset)
    (fun _ p hst => cell_placeCell_ne_unset hst p) _ h)

theorem mem_pairCells {n p r c : Nat} {up : Bool} :
    (r, c) ∈ pairCells n p up ↔ r < n ∧ (c = p ∨ c = p - 1) := by
  unfold pairCells
  have e : (∃ a < n, r = a ∧ c = p ∨ r = a ∧ c = p - 1) ↔ r < n ∧ (c = p ∨ c = p - 1) := by
    constructor
    · rintro ⟨a, ha, h⟩
      omega
    · rintro ⟨hr, h⟩
      exact ⟨r, hr, by tauto⟩
  cases up <;> simpa using e

/-- The cells of the walk: every row of the two columns of every pair (R149). -/
theorem mem_dataCells {n r c : Nat} : ∀ (cols : List Nat) (up : Bool),
    (r, c) ∈ dataCells n up cols ↔ r < n ∧ ∃ p ∈ cols, c = p ∨ c = p - 1 := by
  intro cols
  induction cols with
  | nil => simp [dataCells]
  | cons p cols ih =>
    intro up
    simp only [dataCells, List.mem_append, mem_pairCells, ih, List.mem_cons, exists_eq_or_imp]
    exact and_or_left.symm

/-- Every column but column 6 belongs to a pair, at every symbol size (R149). -/
theorem pairCols_cover {v c : Nat} (h1 : 1 ≤ v) (h2 : v ≤ 10) (hc : c < sideOf v) (h6 : c ≠ 6) :
    ∃ p ∈ pairCols (sideOf v) (sideOf v - 1), c = p ∨ c = p - 1 := by
  have all : ((List.range 11).all fun v => v == 0 || (List.range (sideOf v)).all fun c =>
      c == 6 || (pairCols (sideOf v) (sideOf v - 1)).any fun p => c == p || c == p - 1) = true := by
    decide +kernel
  have hv := List.all_eq_true.mp all v (List.mem_range.mpr (by omega))
  have h0 : (v == 0) = false := by simp; omega
  rw [h0, Bool.false_or] at hv
  have hcc := List.all_eq_true.mp hv c (List.mem_range.mpr hc)
  simpa [h6] using hcc

/-- The walk visits every cell outside column 6 (R149). -/
theorem mem_dataOrder {v r c : Nat} (h1 : 1 ≤ v) (h2 : v ≤ 10) (hr : r < sideOf v)
    (hc : c < sideOf v) (h6 : c ≠ 6) : (r, c) ∈ dataOrder (sideOf v) :=
  (mem_dataCells _ _).mpr ⟨hr, pairCols_cover h1 h2 hc h6⟩

/-- After `placedata` no cell is Unset, whatever the grid was (R149, R209). -/
theorem cell_placeData_set {v mask r c : Nat} {masked : Bool} {cw : List Byte} {g : Grid}
    (h : gridSquare (sideOf v) g) (h1 : 1 ≤ v) (h2 : v ≤ 10) (hr : r < sideOf v)
    (hc : c < sideOf v) : cell (placeData masked (sideOf v) mask cw g) r c ≠ .unset := by
  by_cases h6 : c = 6
  · subst h6
    unfold placeData
    rw [cell_fillColumn6 (gridSquare_placeWalk h) hc]
    split
    · unfold ofDark
      split <;> simp
    · rename_i hn
      exact fun e => hn ⟨hr, rfl, e⟩
  · exact cell_placeData_of_mem h hr hc (mem_dataOrder h1 h2 hr hc h6)

/-- `placedata` leaves a full grid (R149, R209). -/
theorem hasUnset_placeData {v mask : Nat} {masked : Bool} {cw : List Byte} {g : Grid}
    (h : gridSquare (sideOf v) g) (h1 : 1 ≤ v) (h2 : v ≤ 10) :
    hasUnset (placeData masked (sideOf v) mask cw g) = false :=
  (hasUnset_eq_false (gridSquare_placeData h)).mpr fun _ _ hr hc => cell_placeData_set h h1 h2 hr hc

/-- On a full grid the timing patterns change nothing (R141, R209). -/
theorem putTiming_of_full {n : Nat} {g : Grid} (h : gridSquare n g) (h6 : 6 < n)
    (hf : hasUnset g = false) : putTiming n g = g := by
  have hcell := (hasUnset_eq_false h).mp hf
  have same : ∀ (f : Nat → Nat × Nat) (l : List Nat), (∀ k ∈ l, (f k).1 < n ∧ (f k).2 < n) →
      l.foldl (fun g k => setIfUnset g (f k).1 (f k).2 (k % 2 == 0)) g = g := by
    intro f l
    induction l with
    | nil => intro _; rfl
    | cons k l ih =>
      intro hl
      obtain ⟨hr, hc⟩ := hl k (List.mem_cons_self ..)
      have e : setIfUnset g (f k).1 (f k).2 (k % 2 == 0) = g := if_neg (hcell _ _ hr hc)
      rw [List.foldl_cons, e]
      exact ih fun k' hk' => hl k' (List.mem_cons_of_mem _ hk')
  unfold putTiming
  have row := same (fun k => (6, k)) (List.range n) fun k hk => ⟨h6, List.mem_range.mp hk⟩
  have col := same (fun k => (k, 6)) (List.range n) fun k hk => ⟨List.mem_range.mp hk, h6⟩
  simp only at row col ⊢
  rw [row, col]

/-- A build leaves no cell Unset (R151). -/
theorem cell_buildGrid_ne_unset {masked test : Bool} {v mask r c : Nat} (cw : List Byte)
    (h1 : 1 ≤ v) (h2 : v ≤ 10) (hr : r < sideOf v) (hc : c < sideOf v) :
    cell (buildGrid masked v test mask cw) r c ≠ .unset :=
  cell_placeData_set (gridSquare_functionPatterns v test mask) h1 h2 hr hc

/-- A build leaves a full grid (R151). -/
theorem hasUnset_buildGrid {masked test : Bool} {v mask : Nat} (cw : List Byte) (h1 : 1 ≤ v)
    (h2 : v ≤ 10) : hasUnset (buildGrid masked v test mask cw) = false :=
  hasUnset_placeData (gridSquare_functionPatterns v test mask) h1 h2

/-- The function patterns leave no cell of column 6 Unset, so that no build fills one (R151, R154). -/
theorem cell_functionPatterns_col6 {test : Bool} {v mask r : Nat} (hr : r < sideOf v) :
    cell (functionPatterns v test mask) r 6 ≠ .unset := by
  have h6 : 6 < sideOf v := by unfold sideOf; omega
  have ht : cell (putTiming (sideOf v) (putAligns v (putFinders (sideOf v)
      (blankGrid (sideOf v))))) r 6 ≠ .unset :=
    cell_putTiming_col6 (gridSquare_putAligns (gridSquare_putFinders (gridSquare_blankGrid _))) hr h6
  have hf := cell_paint_ne_unset ht (fmtWrites (sideOf v) test mask)
  unfold functionPatterns
  simp only [putVersion]
  split
  · exact cell_paint_ne_unset hf _
  · exact hf

end Sys2Proof.Machine
end

