-- ==== Sys2Proof/Laws/State.lean ====
section
/-! SUPPORT. One lemma per field per update of the state, each true by rfl, so that no later proof
unfolds a record update. -/

namespace Sys2Proof.Machine

/-! ### `setRes` -/

@[simp] theorem setRes_res (v : Word) (s : State) :
    (setRes v s).res = v := rfl
@[simp] theorem setRes_err (v : Word) (s : State) :
    (setRes v s).err = s.err := rfl
@[simp] theorem setRes_errinfo (v : Word) (s : State) :
    (setRes v s).errinfo = s.errinfo := rfl
@[simp] theorem setRes_fin (v : Word) (s : State) :
    (setRes v s).fin = s.fin := rfl
@[simp] theorem setRes_ver (v : Word) (s : State) :
    (setRes v s).ver = s.ver := rfl
@[simp] theorem setRes_bmask (v : Word) (s : State) :
    (setRes v s).bmask = s.bmask := rfl
@[simp] theorem setRes_p0 (v : Word) (s : State) :
    (setRes v s).p0 = s.p0 := rfl
@[simp] theorem setRes_p1 (v : Word) (s : State) :
    (setRes v s).p1 = s.p1 := rfl
@[simp] theorem setRes_p2 (v : Word) (s : State) :
    (setRes v s).p2 = s.p2 := rfl
@[simp] theorem setRes_p3 (v : Word) (s : State) :
    (setRes v s).p3 = s.p3 := rfl
@[simp] theorem setRes_pen (v : Word) (s : State) :
    (setRes v s).pen = s.pen := rfl
@[simp] theorem setRes_tpen (v : Word) (s : State) :
    (setRes v s).tpen = s.tpen := rfl
@[simp] theorem setRes_itemLen (v : Word) (s : State) :
    (setRes v s).itemLen = s.itemLen := rfl
@[simp] theorem setRes_plBytes (v : Word) (s : State) :
    (setRes v s).plBytes = s.plBytes := rfl
@[simp] theorem setRes_bs (v : Word) (s : State) :
    (setRes v s).bs = s.bs := rfl
@[simp] theorem setRes_cw (v : Word) (s : State) :
    (setRes v s).cw = s.cw := rfl
@[simp] theorem setRes_mx (v : Word) (s : State) :
    (setRes v s).mx = s.mx := rfl
@[simp] theorem setRes_inbox (v : Word) (s : State) :
    (setRes v s).inbox = s.inbox := rfl
@[simp] theorem setRes_rdata (v : Word) (s : State) :
    (setRes v s).rdata = s.rdata := rfl

/-! ### `setItems` -/

@[simp] theorem setItems_res (l : List Nat) (b : List Byte) (s : State) :
    (setItems l b s).res = s.res := rfl
@[simp] theorem setItems_err (l : List Nat) (b : List Byte) (s : State) :
    (setItems l b s).err = s.err := rfl
@[simp] theorem setItems_errinfo (l : List Nat) (b : List Byte) (s : State) :
    (setItems l b s).errinfo = s.errinfo := rfl
@[simp] theorem setItems_fin (l : List Nat) (b : List Byte) (s : State) :
    (setItems l b s).fin = s.fin := rfl
@[simp] theorem setItems_ver (l : List Nat) (b : List Byte) (s : State) :
    (setItems l b s).ver = s.ver := rfl
@[simp] theorem setItems_bmask (l : List Nat) (b : List Byte) (s : State) :
    (setItems l b s).bmask = s.bmask := rfl
@[simp] theorem setItems_p0 (l : List Nat) (b : List Byte) (s : State) :
    (setItems l b s).p0 = s.p0 := rfl
@[simp] theorem setItems_p1 (l : List Nat) (b : List Byte) (s : State) :
    (setItems l b s).p1 = s.p1 := rfl
@[simp] theorem setItems_p2 (l : List Nat) (b : List Byte) (s : State) :
    (setItems l b s).p2 = s.p2 := rfl
@[simp] theorem setItems_p3 (l : List Nat) (b : List Byte) (s : State) :
    (setItems l b s).p3 = s.p3 := rfl
@[simp] theorem setItems_pen (l : List Nat) (b : List Byte) (s : State) :
    (setItems l b s).pen = s.pen := rfl
@[simp] theorem setItems_tpen (l : List Nat) (b : List Byte) (s : State) :
    (setItems l b s).tpen = s.tpen := rfl
@[simp] theorem setItems_itemLen (l : List Nat) (b : List Byte) (s : State) :
    (setItems l b s).itemLen = l := rfl
@[simp] theorem setItems_plBytes (l : List Nat) (b : List Byte) (s : State) :
    (setItems l b s).plBytes = b := rfl
@[simp] theorem setItems_bs (l : List Nat) (b : List Byte) (s : State) :
    (setItems l b s).bs = s.bs := rfl
@[simp] theorem setItems_cw (l : List Nat) (b : List Byte) (s : State) :
    (setItems l b s).cw = s.cw := rfl
@[simp] theorem setItems_mx (l : List Nat) (b : List Byte) (s : State) :
    (setItems l b s).mx = s.mx := rfl
@[simp] theorem setItems_inbox (l : List Nat) (b : List Byte) (s : State) :
    (setItems l b s).inbox = s.inbox := rfl
@[simp] theorem setItems_rdata (l : List Nat) (b : List Byte) (s : State) :
    (setItems l b s).rdata = s.rdata := rfl

/-! ### `setBits` -/

@[simp] theorem setBits_res (b : BitStore) (s : State) :
    (setBits b s).res = s.res := rfl
@[simp] theorem setBits_err (b : BitStore) (s : State) :
    (setBits b s).err = s.err := rfl
@[simp] theorem setBits_errinfo (b : BitStore) (s : State) :
    (setBits b s).errinfo = s.errinfo := rfl
@[simp] theorem setBits_fin (b : BitStore) (s : State) :
    (setBits b s).fin = s.fin := rfl
@[simp] theorem setBits_ver (b : BitStore) (s : State) :
    (setBits b s).ver = s.ver := rfl
@[simp] theorem setBits_bmask (b : BitStore) (s : State) :
    (setBits b s).bmask = s.bmask := rfl
@[simp] theorem setBits_p0 (b : BitStore) (s : State) :
    (setBits b s).p0 = s.p0 := rfl
@[simp] theorem setBits_p1 (b : BitStore) (s : State) :
    (setBits b s).p1 = s.p1 := rfl
@[simp] theorem setBits_p2 (b : BitStore) (s : State) :
    (setBits b s).p2 = s.p2 := rfl
@[simp] theorem setBits_p3 (b : BitStore) (s : State) :
    (setBits b s).p3 = s.p3 := rfl
@[simp] theorem setBits_pen (b : BitStore) (s : State) :
    (setBits b s).pen = s.pen := rfl
@[simp] theorem setBits_tpen (b : BitStore) (s : State) :
    (setBits b s).tpen = s.tpen := rfl
@[simp] theorem setBits_itemLen (b : BitStore) (s : State) :
    (setBits b s).itemLen = s.itemLen := rfl
@[simp] theorem setBits_plBytes (b : BitStore) (s : State) :
    (setBits b s).plBytes = s.plBytes := rfl
@[simp] theorem setBits_bs (b : BitStore) (s : State) :
    (setBits b s).bs = b := rfl
@[simp] theorem setBits_cw (b : BitStore) (s : State) :
    (setBits b s).cw = s.cw := rfl
@[simp] theorem setBits_mx (b : BitStore) (s : State) :
    (setBits b s).mx = s.mx := rfl
@[simp] theorem setBits_inbox (b : BitStore) (s : State) :
    (setBits b s).inbox = s.inbox := rfl
@[simp] theorem setBits_rdata (b : BitStore) (s : State) :
    (setBits b s).rdata = s.rdata := rfl

/-! ### `setCode` -/

@[simp] theorem setCode_res (c : List Byte) (s : State) :
    (setCode c s).res = s.res := rfl
@[simp] theorem setCode_err (c : List Byte) (s : State) :
    (setCode c s).err = s.err := rfl
@[simp] theorem setCode_errinfo (c : List Byte) (s : State) :
    (setCode c s).errinfo = s.errinfo := rfl
@[simp] theorem setCode_fin (c : List Byte) (s : State) :
    (setCode c s).fin = s.fin := rfl
@[simp] theorem setCode_ver (c : List Byte) (s : State) :
    (setCode c s).ver = s.ver := rfl
@[simp] theorem setCode_bmask (c : List Byte) (s : State) :
    (setCode c s).bmask = s.bmask := rfl
@[simp] theorem setCode_p0 (c : List Byte) (s : State) :
    (setCode c s).p0 = s.p0 := rfl
@[simp] theorem setCode_p1 (c : List Byte) (s : State) :
    (setCode c s).p1 = s.p1 := rfl
@[simp] theorem setCode_p2 (c : List Byte) (s : State) :
    (setCode c s).p2 = s.p2 := rfl
@[simp] theorem setCode_p3 (c : List Byte) (s : State) :
    (setCode c s).p3 = s.p3 := rfl
@[simp] theorem setCode_pen (c : List Byte) (s : State) :
    (setCode c s).pen = s.pen := rfl
@[simp] theorem setCode_tpen (c : List Byte) (s : State) :
    (setCode c s).tpen = s.tpen := rfl
@[simp] theorem setCode_itemLen (c : List Byte) (s : State) :
    (setCode c s).itemLen = s.itemLen := rfl
@[simp] theorem setCode_plBytes (c : List Byte) (s : State) :
    (setCode c s).plBytes = s.plBytes := rfl
@[simp] theorem setCode_bs (c : List Byte) (s : State) :
    (setCode c s).bs = s.bs := rfl
@[simp] theorem setCode_cw (c : List Byte) (s : State) :
    (setCode c s).cw = c := rfl
@[simp] theorem setCode_mx (c : List Byte) (s : State) :
    (setCode c s).mx = s.mx := rfl
@[simp] theorem setCode_inbox (c : List Byte) (s : State) :
    (setCode c s).inbox = s.inbox := rfl
@[simp] theorem setCode_rdata (c : List Byte) (s : State) :
    (setCode c s).rdata = s.rdata := rfl

/-! ### `setMatrix` -/

@[simp] theorem setMatrix_res (v : BitVec 4) (g : Grid) (f : Bool) (s : State) :
    (setMatrix v g f s).res = s.res := rfl
@[simp] theorem setMatrix_err (v : BitVec 4) (g : Grid) (f : Bool) (s : State) :
    (setMatrix v g f s).err = s.err := rfl
@[simp] theorem setMatrix_errinfo (v : BitVec 4) (g : Grid) (f : Bool) (s : State) :
    (setMatrix v g f s).errinfo = s.errinfo := rfl
@[simp] theorem setMatrix_fin (v : BitVec 4) (g : Grid) (f : Bool) (s : State) :
    (setMatrix v g f s).fin = f := rfl
@[simp] theorem setMatrix_ver (v : BitVec 4) (g : Grid) (f : Bool) (s : State) :
    (setMatrix v g f s).ver = v := rfl
@[simp] theorem setMatrix_bmask (v : BitVec 4) (g : Grid) (f : Bool) (s : State) :
    (setMatrix v g f s).bmask = s.bmask := rfl
@[simp] theorem setMatrix_p0 (v : BitVec 4) (g : Grid) (f : Bool) (s : State) :
    (setMatrix v g f s).p0 = s.p0 := rfl
@[simp] theorem setMatrix_p1 (v : BitVec 4) (g : Grid) (f : Bool) (s : State) :
    (setMatrix v g f s).p1 = s.p1 := rfl
@[simp] theorem setMatrix_p2 (v : BitVec 4) (g : Grid) (f : Bool) (s : State) :
    (setMatrix v g f s).p2 = s.p2 := rfl
@[simp] theorem setMatrix_p3 (v : BitVec 4) (g : Grid) (f : Bool) (s : State) :
    (setMatrix v g f s).p3 = s.p3 := rfl
@[simp] theorem setMatrix_pen (v : BitVec 4) (g : Grid) (f : Bool) (s : State) :
    (setMatrix v g f s).pen = s.pen := rfl
@[simp] theorem setMatrix_tpen (v : BitVec 4) (g : Grid) (f : Bool) (s : State) :
    (setMatrix v g f s).tpen = s.tpen := rfl
@[simp] theorem setMatrix_itemLen (v : BitVec 4) (g : Grid) (f : Bool) (s : State) :
    (setMatrix v g f s).itemLen = s.itemLen := rfl
@[simp] theorem setMatrix_plBytes (v : BitVec 4) (g : Grid) (f : Bool) (s : State) :
    (setMatrix v g f s).plBytes = s.plBytes := rfl
@[simp] theorem setMatrix_bs (v : BitVec 4) (g : Grid) (f : Bool) (s : State) :
    (setMatrix v g f s).bs = s.bs := rfl
@[simp] theorem setMatrix_cw (v : BitVec 4) (g : Grid) (f : Bool) (s : State) :
    (setMatrix v g f s).cw = s.cw := rfl
@[simp] theorem setMatrix_mx (v : BitVec 4) (g : Grid) (f : Bool) (s : State) :
    (setMatrix v g f s).mx = g := rfl
@[simp] theorem setMatrix_inbox (v : BitVec 4) (g : Grid) (f : Bool) (s : State) :
    (setMatrix v g f s).inbox = s.inbox := rfl
@[simp] theorem setMatrix_rdata (v : BitVec 4) (g : Grid) (f : Bool) (s : State) :
    (setMatrix v g f s).rdata = s.rdata := rfl

/-! ### `setPen` -/

@[simp] theorem setPen_res (p : Vector Word 5) (s : State) :
    (setPen p s).res = s.res := rfl
@[simp] theorem setPen_err (p : Vector Word 5) (s : State) :
    (setPen p s).err = s.err := rfl
@[simp] theorem setPen_errinfo (p : Vector Word 5) (s : State) :
    (setPen p s).errinfo = s.errinfo := rfl
@[simp] theorem setPen_fin (p : Vector Word 5) (s : State) :
    (setPen p s).fin = s.fin := rfl
@[simp] theorem setPen_ver (p : Vector Word 5) (s : State) :
    (setPen p s).ver = s.ver := rfl
@[simp] theorem setPen_bmask (p : Vector Word 5) (s : State) :
    (setPen p s).bmask = s.bmask := rfl
@[simp] theorem setPen_p0 (p : Vector Word 5) (s : State) :
    (setPen p s).p0 = s.p0 := rfl
@[simp] theorem setPen_p1 (p : Vector Word 5) (s : State) :
    (setPen p s).p1 = s.p1 := rfl
@[simp] theorem setPen_p2 (p : Vector Word 5) (s : State) :
    (setPen p s).p2 = s.p2 := rfl
@[simp] theorem setPen_p3 (p : Vector Word 5) (s : State) :
    (setPen p s).p3 = s.p3 := rfl
@[simp] theorem setPen_pen (p : Vector Word 5) (s : State) :
    (setPen p s).pen = p := rfl
@[simp] theorem setPen_tpen (p : Vector Word 5) (s : State) :
    (setPen p s).tpen = s.tpen := rfl
@[simp] theorem setPen_itemLen (p : Vector Word 5) (s : State) :
    (setPen p s).itemLen = s.itemLen := rfl
@[simp] theorem setPen_plBytes (p : Vector Word 5) (s : State) :
    (setPen p s).plBytes = s.plBytes := rfl
@[simp] theorem setPen_bs (p : Vector Word 5) (s : State) :
    (setPen p s).bs = s.bs := rfl
@[simp] theorem setPen_cw (p : Vector Word 5) (s : State) :
    (setPen p s).cw = s.cw := rfl
@[simp] theorem setPen_mx (p : Vector Word 5) (s : State) :
    (setPen p s).mx = s.mx := rfl
@[simp] theorem setPen_inbox (p : Vector Word 5) (s : State) :
    (setPen p s).inbox = s.inbox := rfl
@[simp] theorem setPen_rdata (p : Vector Word 5) (s : State) :
    (setPen p s).rdata = s.rdata := rfl

/-! ### `setSearch` -/

@[simp] theorem setSearch_res (t : Vector Word 8) (b : BitVec 3) (s : State) :
    (setSearch t b s).res = s.res := rfl
@[simp] theorem setSearch_err (t : Vector Word 8) (b : BitVec 3) (s : State) :
    (setSearch t b s).err = s.err := rfl
@[simp] theorem setSearch_errinfo (t : Vector Word 8) (b : BitVec 3) (s : State) :
    (setSearch t b s).errinfo = s.errinfo := rfl
@[simp] theorem setSearch_fin (t : Vector Word 8) (b : BitVec 3) (s : State) :
    (setSearch t b s).fin = s.fin := rfl
@[simp] theorem setSearch_ver (t : Vector Word 8) (b : BitVec 3) (s : State) :
    (setSearch t b s).ver = s.ver := rfl
@[simp] theorem setSearch_bmask (t : Vector Word 8) (b : BitVec 3) (s : State) :
    (setSearch t b s).bmask = b := rfl
@[simp] theorem setSearch_p0 (t : Vector Word 8) (b : BitVec 3) (s : State) :
    (setSearch t b s).p0 = s.p0 := rfl
@[simp] theorem setSearch_p1 (t : Vector Word 8) (b : BitVec 3) (s : State) :
    (setSearch t b s).p1 = s.p1 := rfl
@[simp] theorem setSearch_p2 (t : Vector Word 8) (b : BitVec 3) (s : State) :
    (setSearch t b s).p2 = s.p2 := rfl
@[simp] theorem setSearch_p3 (t : Vector Word 8) (b : BitVec 3) (s : State) :
    (setSearch t b s).p3 = s.p3 := rfl
@[simp] theorem setSearch_pen (t : Vector Word 8) (b : BitVec 3) (s : State) :
    (setSearch t b s).pen = s.pen := rfl
@[simp] theorem setSearch_tpen (t : Vector Word 8) (b : BitVec 3) (s : State) :
    (setSearch t b s).tpen = t := rfl
@[simp] theorem setSearch_itemLen (t : Vector Word 8) (b : BitVec 3) (s : State) :
    (setSearch t b s).itemLen = s.itemLen := rfl
@[simp] theorem setSearch_plBytes (t : Vector Word 8) (b : BitVec 3) (s : State) :
    (setSearch t b s).plBytes = s.plBytes := rfl
@[simp] theorem setSearch_bs (t : Vector Word 8) (b : BitVec 3) (s : State) :
    (setSearch t b s).bs = s.bs := rfl
@[simp] theorem setSearch_cw (t : Vector Word 8) (b : BitVec 3) (s : State) :
    (setSearch t b s).cw = s.cw := rfl
@[simp] theorem setSearch_mx (t : Vector Word 8) (b : BitVec 3) (s : State) :
    (setSearch t b s).mx = s.mx := rfl
@[simp] theorem setSearch_inbox (t : Vector Word 8) (b : BitVec 3) (s : State) :
    (setSearch t b s).inbox = s.inbox := rfl
@[simp] theorem setSearch_rdata (t : Vector Word 8) (b : BitVec 3) (s : State) :
    (setSearch t b s).rdata = s.rdata := rfl

/-! ### `faultEntry` -/

@[simp] theorem faultEntry_res (k : ErrKind) (c : Word) (s : State) :
    (faultEntry k c s).res = s.res := rfl
@[simp] theorem faultEntry_err (k : ErrKind) (c : Word) (s : State) :
    (faultEntry k c s).err = some k := rfl
@[simp] theorem faultEntry_errinfo (k : ErrKind) (c : Word) (s : State) :
    (faultEntry k c s).errinfo = c := rfl
@[simp] theorem faultEntry_fin (k : ErrKind) (c : Word) (s : State) :
    (faultEntry k c s).fin = false := rfl
@[simp] theorem faultEntry_ver (k : ErrKind) (c : Word) (s : State) :
    (faultEntry k c s).ver = s.ver := rfl
@[simp] theorem faultEntry_bmask (k : ErrKind) (c : Word) (s : State) :
    (faultEntry k c s).bmask = s.bmask := rfl
@[simp] theorem faultEntry_p0 (k : ErrKind) (c : Word) (s : State) :
    (faultEntry k c s).p0 = s.p0 := rfl
@[simp] theorem faultEntry_p1 (k : ErrKind) (c : Word) (s : State) :
    (faultEntry k c s).p1 = s.p1 := rfl
@[simp] theorem faultEntry_p2 (k : ErrKind) (c : Word) (s : State) :
    (faultEntry k c s).p2 = s.p2 := rfl
@[simp] theorem faultEntry_p3 (k : ErrKind) (c : Word) (s : State) :
    (faultEntry k c s).p3 = s.p3 := rfl
@[simp] theorem faultEntry_pen (k : ErrKind) (c : Word) (s : State) :
    (faultEntry k c s).pen = s.pen := rfl
@[simp] theorem faultEntry_tpen (k : ErrKind) (c : Word) (s : State) :
    (faultEntry k c s).tpen = s.tpen := rfl
@[simp] theorem faultEntry_itemLen (k : ErrKind) (c : Word) (s : State) :
    (faultEntry k c s).itemLen = s.itemLen := rfl
@[simp] theorem faultEntry_plBytes (k : ErrKind) (c : Word) (s : State) :
    (faultEntry k c s).plBytes = s.plBytes := rfl
@[simp] theorem faultEntry_bs (k : ErrKind) (c : Word) (s : State) :
    (faultEntry k c s).bs = s.bs := rfl
@[simp] theorem faultEntry_cw (k : ErrKind) (c : Word) (s : State) :
    (faultEntry k c s).cw = s.cw := rfl
@[simp] theorem faultEntry_mx (k : ErrKind) (c : Word) (s : State) :
    (faultEntry k c s).mx = s.mx := rfl
@[simp] theorem faultEntry_inbox (k : ErrKind) (c : Word) (s : State) :
    (faultEntry k c s).inbox = s.inbox := rfl
@[simp] theorem faultEntry_rdata (k : ErrKind) (c : Word) (s : State) :
    (faultEntry k c s).rdata = s.rdata := rfl

/-! ### `setPoly` -/

@[simp] theorem setPoly_res (r : PReg) (p : Poly) (s : State) :
    (setPoly r p s).res = s.res := by cases r <;> rfl
@[simp] theorem setPoly_err (r : PReg) (p : Poly) (s : State) :
    (setPoly r p s).err = s.err := by cases r <;> rfl
@[simp] theorem setPoly_errinfo (r : PReg) (p : Poly) (s : State) :
    (setPoly r p s).errinfo = s.errinfo := by cases r <;> rfl
@[simp] theorem setPoly_fin (r : PReg) (p : Poly) (s : State) :
    (setPoly r p s).fin = s.fin := by cases r <;> rfl
@[simp] theorem setPoly_ver (r : PReg) (p : Poly) (s : State) :
    (setPoly r p s).ver = s.ver := by cases r <;> rfl
@[simp] theorem setPoly_bmask (r : PReg) (p : Poly) (s : State) :
    (setPoly r p s).bmask = s.bmask := by cases r <;> rfl
@[simp] theorem setPoly_pen (r : PReg) (p : Poly) (s : State) :
    (setPoly r p s).pen = s.pen := by cases r <;> rfl
@[simp] theorem setPoly_tpen (r : PReg) (p : Poly) (s : State) :
    (setPoly r p s).tpen = s.tpen := by cases r <;> rfl
@[simp] theorem setPoly_itemLen (r : PReg) (p : Poly) (s : State) :
    (setPoly r p s).itemLen = s.itemLen := by cases r <;> rfl
@[simp] theorem setPoly_plBytes (r : PReg) (p : Poly) (s : State) :
    (setPoly r p s).plBytes = s.plBytes := by cases r <;> rfl
@[simp] theorem setPoly_bs (r : PReg) (p : Poly) (s : State) :
    (setPoly r p s).bs = s.bs := by cases r <;> rfl
@[simp] theorem setPoly_cw (r : PReg) (p : Poly) (s : State) :
    (setPoly r p s).cw = s.cw := by cases r <;> rfl
@[simp] theorem setPoly_mx (r : PReg) (p : Poly) (s : State) :
    (setPoly r p s).mx = s.mx := by cases r <;> rfl
@[simp] theorem setPoly_inbox (r : PReg) (p : Poly) (s : State) :
    (setPoly r p s).inbox = s.inbox := by cases r <;> rfl
@[simp] theorem setPoly_rdata (r : PReg) (p : Poly) (s : State) :
    (setPoly r p s).rdata = s.rdata := by cases r <;> rfl

/-! ### `unitReset` -/

@[simp] theorem unitReset_res (s : State) : (unitReset s).res = State.reset.res := rfl
@[simp] theorem unitReset_err (s : State) : (unitReset s).err = State.reset.err := rfl
@[simp] theorem unitReset_errinfo (s : State) : (unitReset s).errinfo = State.reset.errinfo := rfl
@[simp] theorem unitReset_fin (s : State) : (unitReset s).fin = State.reset.fin := rfl
@[simp] theorem unitReset_ver (s : State) : (unitReset s).ver = State.reset.ver := rfl
@[simp] theorem unitReset_bmask (s : State) : (unitReset s).bmask = State.reset.bmask := rfl
@[simp] theorem unitReset_p0 (s : State) : (unitReset s).p0 = State.reset.p0 := rfl
@[simp] theorem unitReset_p1 (s : State) : (unitReset s).p1 = State.reset.p1 := rfl
@[simp] theorem unitReset_p2 (s : State) : (unitReset s).p2 = State.reset.p2 := rfl
@[simp] theorem unitReset_p3 (s : State) : (unitReset s).p3 = State.reset.p3 := rfl
@[simp] theorem unitReset_pen (s : State) : (unitReset s).pen = State.reset.pen := rfl
@[simp] theorem unitReset_tpen (s : State) : (unitReset s).tpen = State.reset.tpen := rfl
@[simp] theorem unitReset_itemLen (s : State) : (unitReset s).itemLen = State.reset.itemLen := rfl
@[simp] theorem unitReset_plBytes (s : State) : (unitReset s).plBytes = State.reset.plBytes := rfl
@[simp] theorem unitReset_bs (s : State) : (unitReset s).bs = State.reset.bs := rfl
@[simp] theorem unitReset_cw (s : State) : (unitReset s).cw = State.reset.cw := rfl
@[simp] theorem unitReset_mx (s : State) : (unitReset s).mx = State.reset.mx := rfl
@[simp] theorem unitReset_inbox (s : State) : (unitReset s).inbox = s.inbox := rfl
@[simp] theorem unitReset_rdata (s : State) : (unitReset s).rdata = s.rdata := rfl

end Sys2Proof.Machine
end

