-- ==== Sys2Proof/Laws/Ops.lean ====
section
/-! SUPPORT. The polynomial registers through every update, the frame of every update, and what the
shared operations of the machine can answer. -/

namespace Sys2Proof.Machine

/-! ### Polynomial registers -/

@[simp] theorem polyOf_setPoly_self (r : PReg) (p : Poly) (s : State) :
    polyOf r (setPoly r p s) = p := by cases r <;> rfl

theorem polyOf_setPoly_ne {r q : PReg} (h : q ≠ r) (p : Poly) (s : State) :
    polyOf q (setPoly r p s) = polyOf q s := by
  cases r <;> cases q <;> first | rfl | exact absurd rfl h

@[simp] theorem polyOf_setRes (r : PReg) (v : Word) (s : State) :
    polyOf r (setRes v s) = polyOf r s := by cases r <;> rfl

@[simp] theorem polyOf_setItems (r : PReg) (l : List Nat) (b : List Byte) (s : State) :
    polyOf r (setItems l b s) = polyOf r s := by cases r <;> rfl

@[simp] theorem polyOf_setBits (r : PReg) (b : BitStore) (s : State) :
    polyOf r (setBits b s) = polyOf r s := by cases r <;> rfl

@[simp] theorem polyOf_setCode (r : PReg) (c : List Byte) (s : State) :
    polyOf r (setCode c s) = polyOf r s := by cases r <;> rfl

@[simp] theorem polyOf_setMatrix (r : PReg) (v : BitVec 4) (g : Grid) (f : Bool) (s : State) :
    polyOf r (setMatrix v g f s) = polyOf r s := by cases r <;> rfl

@[simp] theorem polyOf_setPen (r : PReg) (p : Vector Word 5) (s : State) :
    polyOf r (setPen p s) = polyOf r s := by cases r <;> rfl

@[simp] theorem polyOf_setSearch (r : PReg) (t : Vector Word 8) (b : BitVec 3) (s : State) :
    polyOf r (setSearch t b s) = polyOf r s := by cases r <;> rfl

@[simp] theorem polyOf_faultEntry (r : PReg) (k : ErrKind) (c : Word) (s : State) :
    polyOf r (faultEntry k c s) = polyOf r s := by cases r <;> rfl

@[simp] theorem polyOf_unitReset (r : PReg) (s : State) : polyOf r (unitReset s) = [] := by
  cases r <;> rfl

/-! ### Frames -/

theorem onlyChanges_refl (l : List Elem) (s : State) : OnlyChanges l s s := by
  intro e _
  cases e <;> simp [Elem.same]

theorem OnlyChanges.trans {l : List Elem} {s t u : State} (h : OnlyChanges l s t)
    (h' : OnlyChanges l t u) : OnlyChanges l s u := by
  intro e he
  have h1 := h e he
  have h2 := h' e he
  cases e <;> simp_all [Elem.same]

theorem OnlyChanges.mono {l l' : List Elem} {s t : State} (h : OnlyChanges l s t)
    (hl : ∀ e ∈ l, e ∈ l') : OnlyChanges l' s t := fun e he => h e fun h' => he (hl e h')

theorem onlyChanges_setRes (v : Word) (s : State) : OnlyChanges [.res] s (setRes v s) := by
  intro e he
  cases e <;> simp_all [Elem.same]

theorem onlyChanges_setPoly (r : PReg) (p : Poly) (s : State) :
    OnlyChanges [.poly r] s (setPoly r p s) := by
  intro e he
  cases e with
  | poly q => exact polyOf_setPoly_ne (by simpa using he) p s
  | _ => simp [Elem.same]

theorem onlyChanges_setItems (l : List Nat) (b : List Byte) (s : State) :
    OnlyChanges [.items] s (setItems l b s) := by
  intro e he
  cases e <;> simp_all [Elem.same]

theorem onlyChanges_setBits (b : BitStore) (s : State) :
    OnlyChanges [.bits] s (setBits b s) := by
  intro e he
  cases e <;> simp_all [Elem.same]

theorem onlyChanges_setCode (c : List Byte) (s : State) :
    OnlyChanges [.code] s (setCode c s) := by
  intro e he
  cases e <;> simp_all [Elem.same]

theorem onlyChanges_setMatrix (v : BitVec 4) (g : Grid) (f : Bool) (s : State) :
    OnlyChanges [.ver, .matrix, .fin] s (setMatrix v g f s) := by
  intro e he
  cases e <;> simp_all [Elem.same]

theorem onlyChanges_setMatrix_same_ver (g : Grid) (f : Bool) (s : State) :
    OnlyChanges [.matrix, .fin] s (setMatrix s.ver g f s) := by
  intro e he
  cases e <;> simp_all [Elem.same]

theorem onlyChanges_setPen (p : Vector Word 5) (s : State) :
    OnlyChanges [.pen] s (setPen p s) := by
  intro e he
  cases e <;> simp_all [Elem.same]

theorem onlyChanges_setSearch (t : Vector Word 8) (b : BitVec 3) (s : State) :
    OnlyChanges [.tpen, .bmask] s (setSearch t b s) := by
  intro e he
  cases e <;> simp_all [Elem.same]

theorem onlyChanges_faultEntry (k : ErrKind) (c : Word) (s : State) :
    OnlyChanges [.err, .errinfo, .fin] s (faultEntry k c s) := by
  intro e he
  cases e <;> simp_all [Elem.same]

/-- The search of R168 writes the matrix, its version and `FIN`, the scores and `BMASK`. -/
theorem onlyChanges_searchBest (v : BitVec 4) (s : State) :
    OnlyChanges [.ver, .matrix, .fin, .pen, .tpen, .bmask] s (searchBest v s) := by
  intro e he
  cases e <;> simp_all [Elem.same, searchBest]

@[simp] theorem searchBest_ver (v : BitVec 4) (s : State) : (searchBest v s).ver = v := rfl

@[simp] theorem searchBest_fin (v : BitVec 4) (s : State) : (searchBest v s).fin = true := rfl

@[simp] theorem searchBest_err (v : BitVec 4) (s : State) : (searchBest v s).err = s.err := rfl

@[simp] theorem searchBest_errinfo (v : BitVec 4) (s : State) :
    (searchBest v s).errinfo = s.errinfo := rfl

@[simp] theorem searchBest_bs (v : BitVec 4) (s : State) : (searchBest v s).bs = s.bs := rfl

@[simp] theorem searchBest_cw (v : BitVec 4) (s : State) : (searchBest v s).cw = s.cw := rfl

@[simp] theorem searchBest_res (v : BitVec 4) (s : State) : (searchBest v s).res = s.res := rfl

@[simp] theorem searchBest_itemLen (v : BitVec 4) (s : State) :
    (searchBest v s).itemLen = s.itemLen := rfl

@[simp] theorem searchBest_plBytes (v : BitVec 4) (s : State) :
    (searchBest v s).plBytes = s.plBytes := rfl

@[simp] theorem searchBest_inbox (v : BitVec 4) (s : State) :
    (searchBest v s).inbox = s.inbox := rfl

@[simp] theorem searchBest_rdata (v : BitVec 4) (s : State) :
    (searchBest v s).rdata = s.rdata := rfl

@[simp] theorem polyOf_searchBest (r : PReg) (v : BitVec 4) (s : State) :
    polyOf r (searchBest v s) = polyOf r s := by cases r <;> rfl

/-! ### Shared answers -/

theorem raise_eq (k : ErrKind) (i : Instr) (s : State) :
    raise k i s = .next (faultEntry k (encode i) s) := rfl

theorem placed_eq (g : Grid) (s : State) : placed g s = .next (setMatrix s.ver g false s) := rfl

theorem next_inj {s t : State} (h : (Host.Outcome.next s : Result) = .next t) : s = t := by
  injection h

theorem raise_next {k : ErrKind} {i : Instr} {s t : State} (h : raise k i s = .next t) :
    t = faultEntry k (encode i) s := (next_inj h).symm

theorem placed_next {g : Grid} {s t : State} (h : placed g s = .next t) :
    t = setMatrix s.ver g false s := (next_inj h).symm

@[simp] theorem maskIndex_of_lt {m : BitVec 4} (h : m.toNat < 8) : maskIndex m = some m.toNat := by
  simp [maskIndex, h]

@[simp] theorem maskIndex_of_le {m : BitVec 4} (h : 8 ≤ m.toNat) : maskIndex m = none := by
  simp [maskIndex, Nat.not_lt.mpr h]

theorem side_of_ver_ne {s : State} (h : s.ver ≠ 0#4) : side s = sideOf s.ver.toNat := by
  exact if_neg h

/-- The four ways in which a command word is answered (30_encoding.md R75). -/
theorem issue_cases (w : Word) (s : State) :
    (s.err ≠ none ∧ w = 0x01000000#32 ∧ issue w s = exec .srst s) ∨
    (s.err ≠ none ∧ w ≠ 0x01000000#32 ∧ issue w s = .next s) ∨
    (s.err = none ∧ (∃ e, decode w = .error e) ∧
      issue w s = .next (faultEntry .invalidCommand w s)) ∨
    (s.err = none ∧ ∃ i, decode w = .ok i ∧ issue w s = exec i s) := by
  unfold issue inFault
  cases he : s.err with
  | none =>
    cases hd : decode w with
    | error e => exact .inr (.inr (.inl ⟨rfl, ⟨e, rfl⟩, by simp⟩))
    | ok i => exact .inr (.inr (.inr ⟨rfl, i, rfl, by simp⟩))
  | some k =>
    by_cases hw : w = 0x01000000#32
    · exact .inl ⟨by simp, hw, by simp [hw]⟩
    · exact .inr (.inl ⟨by simp, hw, if_neg hw⟩)

end Sys2Proof.Machine
end

