-- ==== Sys2Proof/Laws/PerInstr.lean ====
section
/-! SUPPORT. The families of statements made for each constructor of `Instr`. -/

/-- The top byte of every instruction's word is its opcode (30_encoding.md R60, R70). -/
def Sys2Proof.Laws.Opcode.Statement (i : Sys2Proof.Instr) : Prop :=
  Sys2Proof.bits (Sys2Proof.encode i) 24 8 = i.opcode

namespace Sys2Proof.Laws.Opcode

theorem nop : Statement .nop := fmtZ_op ..
theorem srst : Statement .srst := fmtZ_op ..
theorem gfExp (n : BitVec 24) : Statement (.gfExp n) := fmtI24_op ..
theorem gfLog (a : Byte) : Statement (.gfLog a) := fmtAB_op ..
theorem gfMul (a b : Byte) : Statement (.gfMul a b) := fmtAB_op ..
theorem pClr (pd : PReg) : Statement (.pClr pd) := fmtP_op ..
theorem pPush (pd : PReg) (k : Byte) : Statement (.pPush pd k) := fmtP_op ..
theorem pMk (pd ps1 : PReg) (k : Byte) : Statement (.pMk pd ps1 k) := fmtP_op ..
theorem pMul (pd ps1 ps2 : PReg) : Statement (.pMul pd ps1 ps2) := fmtP_op ..
theorem pMod (pd ps1 ps2 : PReg) : Statement (.pMod pd ps1 ps2) := fmtP_op ..
theorem pGen (pd : PReg) (k : Byte) : Statement (.pGen pd k) := fmtP_op ..
theorem pLen (ps1 : PReg) : Statement (.pLen ps1) := fmtP_op ..
theorem pGet (ps1 : PReg) (k : Byte) : Statement (.pGet ps1 k) := fmtP_op ..
theorem bsClr : Statement .bsClr := fmtZ_op ..
theorem bsPut (value : BitVec 16) (count : BitVec 5) : Statement (.bsPut value count) := fmtBP_op ..
theorem bsPutb (a : Bool) : Statement (.bsPutb a) := fmtAB_op ..
theorem bsLen : Statement .bsLen := fmtZ_op ..
theorem bsRdb (idx : BitVec 16) : Statement (.bsRdb idx) := fmtX16_op ..
theorem plClr : Statement .plClr := fmtZ_op ..
theorem plSeg : Statement .plSeg := fmtZ_op ..
theorem plPush (a : Byte) : Statement (.plPush a) := fmtAB_op ..
theorem ecAsm (v : BitVec 4) : Statement (.ecAsm v) := fmtV_op ..
theorem ecEnc (v : BitVec 4) : Statement (.ecEnc v) := fmtV_op ..
theorem cwLen : Statement .cwLen := fmtZ_op ..
theorem cwRd (idx : BitVec 16) : Statement (.cwRd idx) := fmtX16_op ..
theorem ecCap (v : BitVec 4) : Statement (.ecCap v) := fmtV_op ..
theorem mxInit (v : BitVec 4) : Statement (.mxInit v) := fmtV_op ..
theorem mxFind : Statement .mxFind := fmtZ_op ..
theorem mxAlgn : Statement .mxAlgn := fmtZ_op ..
theorem mxTime : Statement .mxTime := fmtZ_op ..
theorem mxFmt (test : Bool) (mask : BitVec 4) : Statement (.mxFmt test mask) := fmtV_op ..
theorem mxVinf : Statement .mxVinf := fmtZ_op ..
theorem mxData (mask : BitVec 4) : Statement (.mxData mask) := fmtV_op ..
theorem mxBuild (v : BitVec 4) (test : Bool) (mask : BitVec 4) : Statement (.mxBuild v test mask) := fmtV_op ..
theorem mxScore : Statement .mxScore := fmtZ_op ..
theorem mxGet (row col : Byte) : Statement (.mxGet row col) := fmtRC_op ..
theorem mxN : Statement .mxN := fmtZ_op ..
theorem mkEval (mask : BitVec 4) (row col : Byte) : Statement (.mkEval mask row col) := fmtRC_op ..
theorem mxRdp (a : BitVec 3) : Statement (.mxRdp a) := fmtAB_op ..
theorem encBest (v : BitVec 4) : Statement (.encBest v) := fmtV_op ..
theorem encRun : Statement .encRun := fmtZ_op ..
theorem encRdt (mask : BitVec 4) : Statement (.encRdt mask) := fmtV_op ..

end Sys2Proof.Laws.Opcode
end

