-- ==== Sys2Proof/Laws/Stream.lean ====
section
/-! SUPPORT. The bit store: each append adds its bits at the end and keeps the canonical form; the item
store, the assembly and the block split: lengths and what the parts add up to
(42_bitstream.md R105 to R108; 10_state.md R23, R24; 43_error_correction.md R122, R125). -/

namespace Sys2Proof.Machine

@[simp] theorem putbit_len (b : BitStore) (x : Bool) : (putbit b x).len = b.len + 1 := rfl

@[simp] theorem putbits_len (v n : Nat) (b : BitStore) : (putbits b v n).len = b.len + n := by
  induction n generalizing b with
  | zero => rfl
  | succ n ih => simp only [putbits, ih, putbit_len]; omega

@[simp] theorem putBytes_len (xs : List Byte) (b : BitStore) :
    (putBytes b xs).len = b.len + 8 * xs.length := by
  unfold putBytes
  induction xs generalizing b with
  | nil => rfl
  | cons x xs ih => simp only [List.foldl_cons, ih, putbits_len, List.length_cons]; omega

theorem bitsEmpty_ok : bitsEmpty.Ok := ⟨by decide, by decide, by decide⟩

/-- A byte whose low `8 - k` bits are 0 has its low `7 - k` bits 0 after bit `7 - k` is ORed in. -/
theorem tail_or : ∀ k : Fin 8, ∀ x : Byte, x <<< k.val = 0 →
    (x ||| (0x80#8 >>> k.val)) <<< (k.val + 1) = 0 := by decide +kernel

theorem tail_keep : ∀ k : Fin 8, ∀ x : Byte, x <<< k.val = 0 → x <<< (k.val + 1) = 0 := by
  decide +kernel

/-- `putbit` keeps the canonical form. -/
theorem putbit_ok {b : BitStore} (h : b.Ok) (x : Bool) (hl : b.len < Config.bsMaxBits) :
    (putbit b x).Ok := by
  obtain ⟨h1, h2, h3⟩ := h
  have hbuf : (if b.len % 8 = 0 then b.buf ++ [0#8] else b.buf).length = b.len / 8 + 1 := by
    split
    · simp
      omega
    · omega
  have hold : ((if b.len % 8 = 0 then b.buf ++ [0#8] else b.buf).getD (b.len / 8) 0#8) <<< (b.len % 8)
      = 0#8 := by
    split
    · have e : b.len / 8 = b.buf.length := by omega
      simp [e]
    · exact h3 (by assumption)
  refine ⟨?_, ?_, ?_⟩
  · simpa using hl
  · simp only [putbit]
    split
    · rw [List.length_modify, hbuf]; omega
    · rw [hbuf]; omega
  · intro h0
    simp only [putbit] at h0 ⊢
    have e1 : (b.len + 1) / 8 = b.len / 8 := by omega
    have e2 : (b.len + 1) % 8 = b.len % 8 + 1 := by omega
    rw [e1, e2]
    have hk : b.len % 8 < 8 := by omega
    generalize hB : (if b.len % 8 = 0 then b.buf ++ [0#8] else b.buf) = B at hbuf hold
    split
    · have hlt : b.len / 8 < B.length := by omega
      rw [List.getD_eq_getElem?_getD, List.getElem?_modify_eq]
      rw [List.getD_eq_getElem?_getD] at hold
      rw [List.getElem?_eq_getElem hlt] at hold ⊢
      exact tail_or ⟨_, hk⟩ _ hold
    · exact tail_keep ⟨_, hk⟩ _ hold

/-- `putbits` keeps the canonical form. -/
theorem putbits_ok (v n : Nat) {b : BitStore} (h : b.Ok) (hl : b.len + n ≤ Config.bsMaxBits) :
    (putbits b v n).Ok := by
  induction n generalizing b with
  | zero => exact h
  | succ n ih =>
    simp only [putbits]
    exact ih (putbit_ok h _ (by omega)) (by simp only [putbit_len]; omega)

/-- `putBytes` keeps the canonical form. -/
theorem putBytes_ok (xs : List Byte) {b : BitStore} (h : b.Ok)
    (hl : b.len + 8 * xs.length ≤ Config.bsMaxBits) : (putBytes b xs).Ok := by
  unfold putBytes
  induction xs generalizing b with
  | nil => exact h
  | cons x xs ih =>
    simp only [List.length_cons] at hl
    exact ih (putbits_ok _ _ h (by omega)) (by simp only [putbits_len]; omega)

/-- Bit `j` of a byte after bit `7 - k` is ORed in. -/
theorem getMsbD_or_bit : ∀ (k j : Fin 8) (x : Byte),
    (x ||| (0x80#8 >>> k.val)).getMsbD j.val = (x.getMsbD j.val || decide (j = k)) := by
  decide +kernel

/-- A byte whose low `8 - k` bits are 0 has bit `k`, counted from the left, 0. -/
theorem getMsbD_tail : ∀ (k : Fin 8) (x : Byte), x <<< k.val = 0 → x.getMsbD k.val = false := by
  decide +kernel

/-- The byte in which the next bit falls has its unused bits 0, whether it is there or opened now. -/
theorem next_byte_tail {b : BitStore} (h : b.Ok) :
    (if b.len % 8 = 0 then b.buf ++ [0#8] else b.buf).length = b.len / 8 + 1 ∧
    ((if b.len % 8 = 0 then b.buf ++ [0#8] else b.buf).getD (b.len / 8) 0#8) <<< (b.len % 8)
      = 0#8 := by
  obtain ⟨h1, h2, h3⟩ := h
  constructor
  · split
    · simp
      omega
    · omega
  · split
    · have e : b.len / 8 = b.buf.length := by omega
      simp [e]
    · exact h3 (by assumption)

/-- What `putbit` does to every bit of the stream (R106). -/
theorem bitAt_putbit {b : BitStore} (h : b.Ok) (x : Bool) {k : Nat} (hk : k ≤ b.len) :
    bitAt (putbit b x) k = if k = b.len then x else bitAt b k := by
  obtain ⟨hl, ht⟩ := next_byte_tail h
  have hopen : ∀ i, i < b.buf.length →
      (if b.len % 8 = 0 then b.buf ++ [0#8] else b.buf).getD i 0#8 = b.buf.getD i 0#8 := by
    intro i hi
    split
    · simp [List.getD_eq_getElem?_getD, List.getElem?_append_left hi]
    · rfl
  have h2 := h.bufLen
  unfold bitAt putbit
  simp only
  generalize (if b.len % 8 = 0 then b.buf ++ [0#8] else b.buf) = B at hl ht hopen
  have hm : b.len % 8 < 8 := by omega
  have hkm : k % 8 < 8 := by omega
  have hB : b.len / 8 < B.length := by omega
  cases x with
  | true =>
    simp only [if_true, List.getD_eq_getElem?_getD]
    by_cases hbyte : b.len / 8 = k / 8
    · rw [← hbyte, List.getElem?_modify_eq, List.getElem?_eq_getElem hB]
      simp only [Option.map_eq_map, Option.map_some, Option.getD_some]
      rw [getMsbD_or_bit ⟨_, hm⟩ ⟨_, hkm⟩]
      by_cases e : k = b.len
      · simp [e]
      · have e' : k % 8 ≠ b.len % 8 := by omega
        have hi : b.len / 8 < b.buf.length := by omega
        have := hopen _ hi
        rw [List.getD_eq_getElem?_getD, List.getElem?_eq_getElem hB] at this
        simp only [Option.getD_some] at this
        simp [e, e', this, List.getD_eq_getElem?_getD]
    · have hi : k / 8 < b.buf.length := by omega
      rw [List.getElem?_modify_ne _ _ hbyte]
      have := hopen _ hi
      rw [List.getD_eq_getElem?_getD, List.getD_eq_getElem?_getD] at this
      rw [this, if_neg (by rintro rfl; exact hbyte rfl)]
  | false =>
    simp only [Bool.false_eq_true, if_false]
    by_cases e : k = b.len
    · rw [if_pos e, e]
      exact getMsbD_tail ⟨_, hm⟩ _ ht
    · rw [if_neg e, hopen _ (by omega)]

/-- `putbit` appends its bit (R106). -/
theorem bitsOf_putbit {b : BitStore} (h : b.Ok) (x : Bool) :
    bitsOf (putbit b x) = bitsOf b ++ [x] := by
  unfold bitsOf
  rw [putbit_len, List.range_succ, List.map_append]
  congr 1
  · refine List.map_congr_left fun k hk => ?_
    have := List.mem_range.mp hk
    rw [bitAt_putbit h x (by omega), if_neg (by omega)]
  · simp [bitAt_putbit h x (Nat.le_refl _)]

theorem natBits_succ (v n : Nat) : natBits v (n + 1) = v.testBit n :: natBits v n := by
  unfold natBits
  rw [List.range_succ_eq_map]
  simp only [List.map_cons, List.map_map]
  congr 1
  refine List.map_congr_left fun i hi => ?_
  have := List.mem_range.mp hi
  simp only [Function.comp]
  congr 1
  omega

/-- `putbits` appends the low `n` bits of its value, bit `n-1` first (R107). -/
theorem bitsOf_putbits (v n : Nat) {b : BitStore} (h : b.Ok) (hl : b.len + n ≤ Config.bsMaxBits) :
    bitsOf (putbits b v n) = bitsOf b ++ natBits v n := by
  induction n generalizing b with
  | zero => simp [putbits, natBits]
  | succ n ih =>
    simp only [putbits]
    rw [ih (putbit_ok h _ (by omega)) (by rw [putbit_len]; omega), bitsOf_putbit h, natBits_succ]
    simp

theorem bitsOf_putBytes (xs : List Byte) {b : BitStore} (h : b.Ok)
    (hl : b.len + 8 * xs.length ≤ Config.bsMaxBits) :
    bitsOf (putBytes b xs) = bitsOf b ++ xs.flatMap fun x => natBits x.toNat 8 := by
  induction xs generalizing b with
  | nil => simp [putBytes]
  | cons x xs ih =>
    simp only [List.length_cons] at hl
    have e : putBytes b (x :: xs) = putBytes (putbits b x.toNat 8) xs := rfl
    rw [e, ih (putbits_ok _ _ h (by omega)) (by rw [putbits_len]; omega),
      bitsOf_putbits _ _ h (by omega)]
    simp

theorem bitsOf_bitsEmpty : bitsOf bitsEmpty = [] := rfl

@[simp] theorem natBits_length (v n : Nat) : (natBits v n).length = n := by simp [natBits]

/-- `pre(v)` is the length of the data list's bits (R122). -/
theorem listBits_length (items : List (List Byte)) (v : Nat) :
    (listBits items v).length = preLen items v := by
  unfold listBits preLen
  rw [List.length_flatMap]
  congr 1
  refine List.map_congr_left fun x _ => ?_
  simp [List.length_flatMap]
  omega

/-! ### Assembly -/

@[simp] theorem putItem_len (v : Nat) (b : BitStore) (x : List Byte) :
    (putItem v b x).len = b.len + (4 + ccbits v + 8 * x.length) := by
  simp only [putItem, putBytes_len, putbits_len]
  omega

theorem putItems_len (v : Nat) (items : List (List Byte)) (b : BitStore) :
    (items.foldl (putItem v) b).len = b.len + preLen items v := by
  unfold preLen
  induction items generalizing b with
  | nil => rfl
  | cons x items ih =>
    simp only [List.foldl_cons, ih, putItem_len, List.map_cons, List.sum_cons]
    omega

theorem terminate_len_le {v : Nat} {b : BitStore} (h : b.len ≤ cap v) :
    (terminate v b).len ≤ cap v := by
  unfold terminate
  split
  · simpa using by assumption
  · exact h

theorem alignByte_len (b : BitStore) : (alignByte b).len = (b.len + 7) / 8 * 8 := by
  simp only [alignByte, putbits_len]
  omega

theorem padLoop_len (v : Nat) : ∀ (fuel k : Nat) (b : BitStore), b.len % 8 = 0 → b.len ≤ cap v →
    cap v ≤ b.len + 8 * fuel → (padLoop v fuel k b).len = cap v := by
  intro fuel
  induction fuel with
  | zero => intro k b _ h1 h2; simp only [padLoop]; omega
  | succ fuel ih =>
    intro k b h0 h1 h2
    simp only [padLoop]
    split
    · have hc : cap v = 8 * datacw v := rfl
      refine ih _ _ ?_ ?_ ?_ <;> simp only [putbits_len] <;> omega
    · omega

/-- A list that fits assembles to exactly the capacity (R122). -/
theorem streamOf_len {items : List (List Byte)} {v : Nat} (h : preLen items v ≤ cap v) :
    (streamOf items v).len = cap v := by
  unfold streamOf
  have h1 : (terminate v (items.foldl (putItem v) bitsEmpty)).len ≤ cap v := by
    refine terminate_len_le ?_
    rw [putItems_len]
    simpa [bitsEmpty] using h
  have hc : cap v = 8 * datacw v := rfl
  refine padLoop_len v _ _ _ ?_ ?_ ?_
  · rw [alignByte_len]; omega
  · rw [alignByte_len]; omega
  · rw [alignByte_len]; omega

/-- What `assemble` can answer (R122). -/
theorem assemble_cases (items : List (List Byte)) (v : Nat) :
    (cap v < preLen items v ∧ assemble items v = none) ∨
    (preLen items v ≤ cap v ∧ assemble items v = some (streamOf items v)) := by
  unfold assemble
  by_cases h : preLen items v > cap v
  · exact .inl ⟨h, if_pos h⟩
  · exact .inr ⟨Nat.not_lt.mp h, if_neg h⟩

/-! ### Items -/

@[simp] theorem splitItems_length (lens : List Nat) (bytes : List Byte) :
    (splitItems lens bytes).length = lens.length := by
  induction lens generalizing bytes with
  | nil => rfl
  | cons n lens ih => simp [splitItems, ih]

/-- The items together are the payload bytes (R23). -/
theorem splitItems_flatten (lens : List Nat) (bytes : List Byte) (h : bytes.length = lens.sum) :
    (splitItems lens bytes).flatten = bytes := by
  induction lens generalizing bytes with
  | nil => simpa [splitItems, eq_comm] using List.length_eq_zero_iff.mp h
  | cons n lens ih =>
    simp only [List.sum_cons] at h
    rw [splitItems, List.flatten_cons, ih _ (by rw [List.length_drop]; omega), List.take_append_drop]

/-- Each item has the length that the store holds for it (R23). -/
theorem splitItems_lengths (lens : List Nat) (bytes : List Byte) (h : bytes.length = lens.sum) :
    (splitItems lens bytes).map List.length = lens := by
  induction lens generalizing bytes with
  | nil => rfl
  | cons n lens ih =>
    simp only [List.sum_cons] at h
    rw [splitItems, List.map_cons, ih _ (by rw [List.length_drop]; omega), List.length_take]
    congr 1
    omega

/-! ### Block coding -/

theorem splitBlocks_lengths (bs : List RSBlock) (bytes : List Byte)
    (h : bytes.length = (bs.map RSBlock.data).sum) :
    (splitBlocks bs bytes).map List.length = bs.map RSBlock.data := by
  induction bs generalizing bytes with
  | nil => rfl
  | cons b bs ih =>
    simp only [List.map_cons, List.sum_cons] at h
    rw [splitBlocks, List.map_cons, ih _ (by rw [List.length_drop]; omega), List.length_take,
      List.map_cons]
    congr 1
    omega

theorem splitBlocks_flatten (bs : List RSBlock) (bytes : List Byte)
    (h : bytes.length = (bs.map RSBlock.data).sum) : (splitBlocks bs bytes).flatten = bytes := by
  induction bs generalizing bytes with
  | nil => simpa [splitBlocks, eq_comm] using List.length_eq_zero_iff.mp h
  | cons b bs ih =>
    simp only [List.map_cons, List.sum_cons] at h
    rw [splitBlocks, List.flatten_cons, ih _ (by rw [List.length_drop]; omega),
      List.take_append_drop]

end Sys2Proof.Machine
end

