-- ==== Sys2Proof/Machine/Pseudo.lean ====
section
/-! DEFINITION. The pseudo-instructions of 30_encoding.md R74, and a host that writes a list of
commands one after the other. -/

namespace Sys2Proof.Machine

/-- `PL.BYTES b0, ..., b(k-1)` (R74). -/
def plBytesCmds (bytes : List Byte) : List Instr := .plSeg :: bytes.map .plPush

/-- The bytes of a text, one per character; `none` when a character's code is above 255 (R74). -/
def latin1 (text : List Char) : Option (List Byte) :=
  if text.all (fun c => c.toNat ≤ 255) then some (text.map fun c => BitVec.ofNat 8 c.toNat) else none

/-- `PL.STR "text"` (R74). -/
def plStrCmds (text : List Char) : Option (List Instr) := (latin1 text).map plBytesCmds

/-- `P.SET pd, c0, ..., c(k-1)` (R74). -/
def pSetCmds (pd : PReg) (cs : List Byte) : List Instr := .pClr pd :: cs.map (.pPush pd)

/-- `ENCODE "text"` (R74). -/
def encodeCmds (text : List Char) : Option (List Instr) :=
  (plStrCmds text).map fun cs => .plClr :: cs ++ [.encRun]

/-- The host's writes that issue a list of commands in order (20_memory.md R47). -/
def cmdWrites (is : List Instr) : List Access := is.map fun i => cmdWrite (encode i)

end Sys2Proof.Machine
end

