-- ==== Sys2Proof/Machine/Assembler.lean ====
section
/-! DEFINITION. The assembler's spelling of commands and pseudo-instructions (30_encoding.md R73,
R74): one line of a listing is read into the commands it stands for. -/

namespace Sys2Proof.Machine

/-- An operand as written: a number or a polynomial register (R73). -/
inductive AsmOperand where
  | num (n : Int)
  | preg (r : PReg)
deriving DecidableEq, Repr

/-- The value of a digit of a base up to 16. -/
def digitOf (base : Nat) (c : Char) : Option Nat :=
  let v :=
    if '0' ≤ c ∧ c ≤ '9' then some (c.toNat - '0'.toNat)
    else if 'a' ≤ c ∧ c ≤ 'f' then some (c.toNat - 'a'.toNat + 10)
    else if 'A' ≤ c ∧ c ≤ 'F' then some (c.toNat - 'A'.toNat + 10)
    else none
  v.filter (· < base)

/-- A run of digits, most significant first; `none` when it holds anything else. -/
def digitsFrom (base acc : Nat) : List Char → Option Nat
  | [] => some acc
  | c :: cs => (digitOf base c).bind fun d => digitsFrom base (acc * base + d) cs

/-- A number without a sign: hexadecimal with `0x`, binary with `0b`, else decimal (R73). -/
def unsignedOf : List Char → Option Nat
  | [] => none
  | '0' :: 'x' :: c :: cs => digitsFrom 16 0 (c :: cs)
  | '0' :: 'b' :: c :: cs => digitsFrom 2 0 (c :: cs)
  | c :: cs => digitsFrom 10 0 (c :: cs)

/-- An operand (R73); a leading minus sign makes a negative number. -/
def operandOf : List Char → Option AsmOperand
  | ['p', '0'] => some (.preg .p0)
  | ['p', '1'] => some (.preg .p1)
  | ['p', '2'] => some (.preg .p2)
  | ['p', '3'] => some (.preg .p3)
  | '-' :: cs => (unsignedOf cs).map fun n => .num (-(n : Int))
  | cs => (unsignedOf cs).map fun n => .num (n : Int)

/-- A text without the blanks at its ends. -/
def trimBlanks (cs : List Char) : List Char :=
  ((cs.dropWhile (· == ' ')).reverse.dropWhile (· == ' ')).reverse

/-- The pieces of a text between the separators. -/
def splitAtSep (sep : Char) : List Char → List (List Char)
  | [] => [[]]
  | c :: cs =>
    match splitAtSep sep cs with
    | [] => [[c]]
    | p :: ps => if c = sep then [] :: p :: ps else (c :: p) :: ps

/-- The operands of a line after its mnemonic. -/
def operandsOf (cs : List Char) : Option (List AsmOperand) :=
  if trimBlanks cs = [] then some []
  else (splitAtSep ',' cs).mapM fun p => operandOf (trimBlanks p)

/-- A number that an unsigned field of `w` bits holds. -/
def fieldOf (w : Nat) (n : Int) : Option (BitVec w) :=
  if 0 ≤ n ∧ n < 2 ^ w then some (BitVec.ofNat w n.toNat) else none

/-- A number that a one-bit field holds. -/
def flagOf (n : Int) : Option Bool := (fieldOf 1 n).map (· == 1)

/-- A number that the signed field `n24` holds (R62). -/
def signed24Of (n : Int) : Option (BitVec 24) :=
  if -8388608 ≤ n ∧ n ≤ 8388607 then some (BitVec.ofInt 24 n) else none

/-- The numbers of a list of operands as bytes. -/
def bytesOf (ops : List AsmOperand) : Option (List Byte) :=
  ops.mapM fun o =>
    match o with
    | .num n => fieldOf 8 n
    | .preg _ => none

/-- A command without operands. -/
def asmPlain (m : String) : Option Instr :=
  match m with
  | "NOP" => some .nop
  | "SRST" => some .srst
  | "BS.CLR" => some .bsClr
  | "BS.LEN" => some .bsLen
  | "PL.CLR" => some .plClr
  | "PL.SEG" => some .plSeg
  | "CW.LEN" => some .cwLen
  | "MX.FIND" => some .mxFind
  | "MX.ALGN" => some .mxAlgn
  | "MX.TIME" => some .mxTime
  | "MX.VINF" => some .mxVinf
  | "MX.SCORE" => some .mxScore
  | "MX.N" => some .mxN
  | "ENC.RUN" => some .encRun
  | _ => none

/-- A command with one number. -/
def asmOne (m : String) (n : Int) : Option Instr :=
  match m with
  | "GF.EXP" => (signed24Of n).map .gfExp
  | "GF.LOG" => (fieldOf 8 n).map .gfLog
  | "BS.PUTB" => (flagOf n).map .bsPutb
  | "BS.RDB" => (fieldOf 16 n).map .bsRdb
  | "PL.PUSH" => (fieldOf 8 n).map .plPush
  | "EC.ASM" => (fieldOf 4 n).map .ecAsm
  | "EC.ENC" => (fieldOf 4 n).map .ecEnc
  | "CW.RD" => (fieldOf 16 n).map .cwRd
  | "EC.CAP" => (fieldOf 4 n).map .ecCap
  | "MX.INIT" => (fieldOf 4 n).map .mxInit
  | "MX.DATA" => (fieldOf 4 n).map .mxData
  | "MX.RDP" => (fieldOf 3 n).map .mxRdp
  | "ENC.BEST" => (fieldOf 4 n).map .encBest
  | "ENC.RDT" => (fieldOf 4 n).map .encRdt
  | _ => none

/-- A command with two numbers, in the operand order of R70. -/
def asmTwo (m : String) (x y : Int) : Option Instr :=
  match m with
  | "GF.MUL" => (fieldOf 8 x).bind fun a => (fieldOf 8 y).map fun b => .gfMul a b
  | "BS.PUT" => (fieldOf 16 x).bind fun v => (fieldOf 5 y).map fun c => .bsPut v c
  | "MX.FMT" => (flagOf x).bind fun t => (fieldOf 4 y).map fun k => .mxFmt t k
  | "MX.GET" => (fieldOf 8 x).bind fun r => (fieldOf 8 y).map fun c => .mxGet r c
  | _ => none

/-- A command with three numbers, in the operand order of R70. -/
def asmThree (m : String) (x y z : Int) : Option Instr :=
  match m with
  | "MX.BUILD" =>
    (fieldOf 4 x).bind fun v => (flagOf y).bind fun t => (fieldOf 4 z).map fun k => .mxBuild v t k
  | "MK.EVAL" =>
    (fieldOf 4 x).bind fun k => (fieldOf 8 y).bind fun r => (fieldOf 8 z).map fun c => .mkEval k r c
  | _ => none

/-- A polynomial command, in the operand order of R70. -/
def asmPoly (m : String) (ops : List AsmOperand) : Option Instr :=
  match ops with
  | [.preg a] =>
    if m = "P.CLR" then some (.pClr a) else if m = "P.LEN" then some (.pLen a) else none
  | [.preg a, .num k] =>
    (fieldOf 8 k).bind fun k =>
      if m = "P.PUSH" then some (.pPush a k)
      else if m = "P.GEN" then some (.pGen a k)
      else if m = "P.GET" then some (.pGet a k)
      else none
  | [.preg a, .preg b, .num k] =>
    if m = "P.MK" then (fieldOf 8 k).map fun k => .pMk a b k else none
  | [.preg a, .preg b, .preg c] =>
    if m = "P.MUL" then some (.pMul a b c)
    else if m = "P.MOD" then some (.pMod a b c)
    else none
  | _ => none

/-- A command of R70 or one of the two pseudo-instructions with number operands (R74). -/
def asmCommand (m : String) (ops : List AsmOperand) : Option (List Instr) :=
  if m = "PL.BYTES" then (bytesOf ops).map plBytesCmds
  else if m = "P.SET" then
    match ops with
    | .preg pd :: cs => (bytesOf cs).map (pSetCmds pd)
    | _ => none
  else
    let one :=
      match ops with
      | [] => asmPlain m
      | [.num n] => asmOne m n
      | [.num x, .num y] => asmTwo m x y
      | [.num x, .num y, .num z] => asmThree m x y z
      | _ => asmPoly m ops
    (one.filter Instr.wf).map fun i => [i]

/-- The text between the first two double quotes. -/
def quoted (cs : List Char) : Option (List Char) :=
  match splitAtSep '"' cs with
  | before :: text :: after :: _ =>
    if trimBlanks before = [] ∧ ((trimBlanks after).head?.all (· == ';')) then some text else none
  | _ => none

/-- The commands of one line of a listing (R73, R74): none for a blank line or a comment, `none` for
a line that is not of the syntax. -/
def asmLine (line : List Char) : Option (List Instr) :=
  let line := trimBlanks line
  let m := String.ofList (line.takeWhile fun c => c != ' ' && c != ';')
  let rest := line.dropWhile fun c => c != ' ' && c != ';'
  if m = "PL.STR" then (quoted rest).bind plStrCmds
  else if m = "ENCODE" then (quoted rest).bind encodeCmds
  else
    let code := rest.takeWhile (· != ';')
    if m = "" then some [] else (operandsOf code).bind (asmCommand m)

end Sys2Proof.Machine
end

