-- ==== Sys2Proof/Tests/Slice0.lean ====
section
/-! SUPPORT. The model's own tests: ill-formed terms, words written out from the formats R61 to R68,
one-step results that the spec prints, and for each statement with premises a state and operands that
meet them. Every expected value is the spec's. -/

namespace Sys2Proof.Tests

open Sys2Proof.Machine

/-! ### Well-formedness: one ill-formed term for each check (30_encoding.md R70, column "extra") -/

theorem test_wf_refuses_count_17 : (Instr.bsPut 0 17).defect = some .countRange := by decide
theorem test_wf_takes_count_16 : (Instr.bsPut 0 16).wf = true := by decide
theorem test_wf_refuses_version_0 : (Instr.ecAsm 0).defect = some .versionRange ∧
    (Instr.ecEnc 0).defect = some .versionRange ∧ (Instr.ecCap 0).defect = some .versionRange ∧
    (Instr.mxInit 0).defect = some .versionRange ∧
    (Instr.mxBuild 0 false 0).defect = some .versionRange ∧
    (Instr.encBest 0).defect = some .versionRange := by decide
theorem test_wf_refuses_version_11 : (Instr.ecAsm 11).wf = false ∧ (Instr.ecEnc 15).wf = false ∧
    (Instr.ecCap 11).wf = false ∧ (Instr.mxInit 11).wf = false ∧ (Instr.mxBuild 11 true 7).wf = false ∧
    (Instr.encBest 12).wf = false := by decide
theorem test_wf_refuses_score_index_5 : (Instr.mxRdp 5).defect = some .scoreIndexRange := by decide
theorem test_wf_takes_mask_15 : (Instr.encRdt 15).wf = true ∧ (Instr.mxFmt true 8).wf = true := by
  decide

/-! ### Decoding: every command's word, its fields written out in the order of its format -/

theorem test_decode_system : decode (0x00#8 ++ 0#24) = .ok .nop ∧ decode (0x01#8 ++ 0#24) = .ok .srst := by
  decide

/-- I24: op, n24 (R62). AB: op, 0, b, a (R63). -/
theorem test_decode_galois_field :
    decode (0x10#8 ++ 0b111111111111111111111111#24) = .ok (.gfExp (-1)) ∧
    decode (0x11#8 ++ 0#8 ++ 0#8 ++ 0b00011101#8) = .ok (.gfLog 29) ∧
    decode (0x12#8 ++ 0#8 ++ 0b11001010#8 ++ 0b01010011#8) = .ok (.gfMul 0x53 0xCA) := by decide

/-- P: op, 0, k, 0, ps2, ps1, pd (R64). -/
theorem test_decode_polynomial :
    decode (0x20#8 ++ 0#8 ++ 0#8 ++ 0#2 ++ 0b00#2 ++ 0b00#2 ++ 0b10#2) = .ok (.pClr .p2) ∧
    decode (0x21#8 ++ 0#8 ++ 0b00010010#8 ++ 0#2 ++ 0b00#2 ++ 0b00#2 ++ 0b01#2) =
      .ok (.pPush .p1 0x12) ∧
    decode (0x22#8 ++ 0#8 ++ 0b00000010#8 ++ 0#2 ++ 0b00#2 ++ 0b01#2 ++ 0b00#2) =
      .ok (.pMk .p0 .p1 2) ∧
    decode (0x23#8 ++ 0#8 ++ 0#8 ++ 0#2 ++ 0b01#2 ++ 0b00#2 ++ 0b10#2) = .ok (.pMul .p2 .p0 .p1) ∧
    decode (0x24#8 ++ 0#8 ++ 0#8 ++ 0#2 ++ 0b10#2 ++ 0b01#2 ++ 0b11#2) = .ok (.pMod .p3 .p1 .p2) ∧
    decode (0x25#8 ++ 0#8 ++ 0b00001010#8 ++ 0#2 ++ 0b00#2 ++ 0b00#2 ++ 0b01#2) =
      .ok (.pGen .p1 10) ∧
    decode (0x26#8 ++ 0#8 ++ 0#8 ++ 0#2 ++ 0b00#2 ++ 0b11#2 ++ 0b00#2) = .ok (.pLen .p3) ∧
    decode (0x27#8 ++ 0#8 ++ 0b00000001#8 ++ 0#2 ++ 0b00#2 ++ 0b01#2 ++ 0b00#2) =
      .ok (.pGet .p1 1) := by decide

/-- BP: op, 0, count, value (R65). X16: op, 0, idx (R67). -/
theorem test_decode_bit_stream :
    decode (0x30#8 ++ 0#24) = .ok .bsClr ∧
    decode (0x31#8 ++ 0#3 ++ 0b01000#5 ++ 0b0000000001000001#16) = .ok (.bsPut 0x41 8) ∧
    decode (0x32#8 ++ 0#8 ++ 0#8 ++ 0b00000001#8) = .ok (.bsPutb true) ∧
    decode (0x33#8 ++ 0#24) = .ok .bsLen ∧
    decode (0x34#8 ++ 0#8 ++ 0b0000000100000010#16) = .ok (.bsRdb 0x102) := by decide

/-- V: op, 0, v, 0, test, mask (R66). -/
theorem test_decode_items_and_error_correction :
    decode (0x40#8 ++ 0#24) = .ok .plClr ∧ decode (0x41#8 ++ 0#24) = .ok .plSeg ∧
    decode (0x42#8 ++ 0#8 ++ 0#8 ++ 0b01000001#8) = .ok (.plPush 0x41) ∧
    decode (0x50#8 ++ 0#12 ++ 0b0001#4 ++ 0#3 ++ 0#1 ++ 0#4) = .ok (.ecAsm 1) ∧
    decode (0x51#8 ++ 0#12 ++ 0b0111#4 ++ 0#3 ++ 0#1 ++ 0#4) = .ok (.ecEnc 7) ∧
    decode (0x52#8 ++ 0#24) = .ok .cwLen ∧
    decode (0x53#8 ++ 0#8 ++ 0b0000000000010000#16) = .ok (.cwRd 16) ∧
    decode (0x54#8 ++ 0#12 ++ 0b1010#4 ++ 0#3 ++ 0#1 ++ 0#4) = .ok (.ecCap 10) := by decide

/-- RC: op, 0, mask, col, row (R68). -/
theorem test_decode_matrix :
    decode (0x60#8 ++ 0#12 ++ 0b0001#4 ++ 0#8) = .ok (.mxInit 1) ∧
    decode (0x61#8 ++ 0#24) = .ok .mxFind ∧ decode (0x62#8 ++ 0#24) = .ok .mxAlgn ∧
    decode (0x63#8 ++ 0#24) = .ok .mxTime ∧
    decode (0x64#8 ++ 0#12 ++ 0#4 ++ 0#3 ++ 0b1#1 ++ 0b0101#4) = .ok (.mxFmt true 5) ∧
    decode (0x65#8 ++ 0#24) = .ok .mxVinf ∧
    decode (0x66#8 ++ 0#12 ++ 0#4 ++ 0#3 ++ 0#1 ++ 0b0100#4) = .ok (.mxData 4) ∧
    decode (0x67#8 ++ 0#12 ++ 0b0011#4 ++ 0#3 ++ 0b1#1 ++ 0b0100#4) = .ok (.mxBuild 3 true 4) ∧
    decode (0x68#8 ++ 0#24) = .ok .mxScore ∧
    decode (0x69#8 ++ 0#4 ++ 0#4 ++ 0b00001000#8 ++ 0b00001101#8) = .ok (.mxGet 13 8) ∧
    decode (0x6A#8 ++ 0#24) = .ok .mxN ∧
    decode (0x6B#8 ++ 0#4 ++ 0b0101#4 ++ 0b00000011#8 ++ 0b00000010#8) = .ok (.mkEval 5 2 3) ∧
    decode (0x6C#8 ++ 0#8 ++ 0#8 ++ 0#5 ++ 0b011#3) = .ok (.mxRdp 3) := by decide

theorem test_decode_encoder :
    decode (0x70#8 ++ 0#12 ++ 0b0001#4 ++ 0#8) = .ok (.encBest 1) ∧
    decode (0x71#8 ++ 0#24) = .ok .encRun ∧
    decode (0x72#8 ++ 0#12 ++ 0#4 ++ 0#3 ++ 0#1 ++ 0b0010#4) = .ok (.encRdt 2) := by decide

/-- The kinds of illegal word that R71 lists. -/
theorem test_decode_refuses :
    decode 0xFFFFFFFF#32 = .error .unassignedOpcode ∧ decode 0x02000000#32 = .error .unassignedOpcode ∧
    decode 0x00000001#32 = .error .reservedBit ∧ decode 0x11000100#32 = .error .reservedBit ∧
    decode 0x23000040#32 = .error .reservedBit ∧ decode 0x64000105#32 = .error .reservedBit ∧
    decode 0x31110000#32 = .error .countRange ∧ decode 0x50000000#32 = .error .versionRange ∧
    decode 0x67000B00#32 = .error .versionRange ∧
    decode 0x6C000005#32 = .error .scoreIndexRange := by decide

/-- No two rows of R70 take one word: their opcodes differ. -/
theorem test_rows_do_not_overlap :
    (opcodeRows.map fun r => bits r.pattern 24 8).Nodup ∧ opcodeRows.length = 42 := by decide

/-- Every row's pattern lies inside its mask. -/
theorem test_rows_patterns_inside_masks :
    ∀ r ∈ opcodeRows, r.pattern &&& ~~~r.mask = 0#32 := by decide

/-- The host's probe places a word so that the next step runs it. -/
theorem test_probe_runs_gf_mul :
    decodeTableWord 32 0x1200CA53 = some (.gfMul 0x53 0xCA) ∧
    step (State.reset.withFetchWord 32 0x1200CA53) = exec (.gfMul 0x53 0xCA) State.reset :=
  ⟨by decide, rfl⟩

/-! ### One-step results that the spec prints -/

/-- What the tests look at in an answer: the fields a statement names. -/
def ofNext {α : Type} (f : State → α) : Result → Option α
  | .next t => some (f t)
  | .fault _ => none
  | .refused _ => none

/-- A state with four polynomial registers. -/
def withPolys (a b c d : Poly) : State := { State.reset with p0 := a, p1 := b, p2 := c, p3 := d }

/-- A state with a data list. -/
def withItems (items : List (List Byte)) : State :=
  { State.reset with itemLen := items.map List.length, plBytes := items.flatten }

/-- A state with a version-`v` matrix all of whose cells hold `m`. -/
def withMatrix (v : BitVec 4) (m : ModuleCode) : State :=
  { State.reset with
    ver := v
    mx := List.replicate (sideOf v.toNat) (List.replicate (sideOf v.toNat) m) }

/-- A state with a bit store of `8 * k` zero bits. -/
def withZeroBits (k : Nat) : State := { State.reset with bs := ⟨8 * k, List.replicate k 0#8⟩ }

/-- A state after a fault. -/
def faulted : State := faultEntry .invalidFieldOperand 0x11000000#32 State.reset

/-- R86: the corner cases 8, -1 and the two ends of the range. -/
theorem test_gf_exp :
    ofNext State.res (exec (.gfExp 8) State.reset) = some 29 ∧
    ofNext State.res (exec (.gfExp (-1)) State.reset) = some 142 ∧
    ofNext State.res (exec (.gfExp 0x7FFFFF) State.reset) = some 204 ∧
    ofNext State.res (exec (.gfExp 0x800000) State.reset) = some 204 := by decide

/-- R87: `GF.LOG 29` is 8, `GF.LOG 1` is 0, `GF.LOG 255` is 175. -/
theorem test_gf_log :
    ofNext State.res (exec (.gfLog 29) State.reset) = some 8 ∧
    ofNext State.res (exec (.gfLog 1) State.reset) = some 0 ∧
    ofNext State.res (exec (.gfLog 255) State.reset) = some 175 := by decide

/-- R176's example: `GF.LOG 0` puts `ERR = 4`, `ERRINFO = 0x11000000`. -/
theorem test_gf_log_zero : exec (.gfLog 0) State.reset = .next faulted ∧ statusWord faulted = 4 :=
  ⟨rfl, by decide⟩

/-- R88: the printed products. -/
theorem test_gf_mul :
    ofNext State.res (exec (.gfMul 0x53 0xCA) State.reset) = some 143 ∧
    ofNext State.res (exec (.gfMul 255 255) State.reset) = some 226 ∧
    ofNext State.res (exec (.gfMul 2 128) State.reset) = some 29 := by decide

/-- R97's example, and the all-zero source of R91. -/
theorem test_p_mk :
    ofNext State.p0 (exec (.pMk .p0 .p1 2) (withPolys [] [0, 0, 5, 0] [] [])) = some [5, 0, 0, 0] ∧
    ofNext State.p0 (exec (.pMk .p0 .p1 3) (withPolys [] [0, 0] [] [])) = some [0, 0, 0] := by decide

/-- R98's examples; the destination is also a source. -/
theorem test_p_mul :
    ofNext State.p0 (exec (.pMul .p0 .p0 .p1) (withPolys [2, 0, 1] [3, 1] [] [])) =
      some [6, 2, 3, 1] ∧
    ofNext State.p2 (exec (.pMul .p2 .p0 .p1) (withPolys [0, 0, 5] [7] [9] [])) = some [27] := by
  decide

/-- R99's worked example and its two faults. -/
theorem test_p_mod :
    ofNext State.p3 (exec (.pMod .p3 .p0 .p1) (withPolys [18, 52, 86, 0, 0] [1, 3, 2] [] [])) =
      some [152, 232] ∧
    ofNext State.err (exec (.pMod .p3 .p0 .p1) (withPolys [0, 1, 1] [1, 1] [] [])) =
      some (some .invalidFieldOperand) ∧
    ofNext State.err (exec (.pMod .p3 .p0 .p1) (withPolys [1, 1, 1] [0, 1] [] [])) =
      some (some .invalidFieldOperand) := by decide

/-- R100's example. -/
theorem test_p_gen : ofNext State.p1 (exec (.pGen .p1 10) State.reset) =
    some [1, 216, 194, 159, 111, 199, 94, 95, 113, 157, 193] := by decide +kernel

/-- R101, R102 after R100's example. -/
theorem test_p_len_and_get :
    ofNext State.res (exec (.pLen .p1) (withPolys [] [1, 216, 194] [] [])) = some 3 ∧
    ofNext State.res (exec (.pGet .p1 1) (withPolys [] [1, 216, 194] [] [])) = some 216 ∧
    ofNext State.err (exec (.pGet .p1 3) (withPolys [] [1, 216, 194] [] [])) =
      some (some .invalidIndex) := by decide

/-- R110's example, its third put: bits `0100 00000001 01000001`. -/
theorem test_bs_put : ofNext State.bs (exec (.bsPut 0x41 8)
    { State.reset with bs := ⟨12, [0x40, 0x10]⟩ }) = some ⟨20, [0x40, 0x14, 0x10]⟩ := by decide

/-- R111's example. -/
theorem test_bs_putb :
    ofNext State.bs (exec (.bsPutb true) State.reset) = some ⟨1, [0x80]⟩ := by decide

/-- R113's example: byte 2 reads 0x10, byte 3 faults. -/
theorem test_bs_rdb :
    ofNext State.res (exec (.bsRdb 2) { State.reset with bs := ⟨20, [0x40, 0x14, 0x10]⟩ }) =
      some 0x10 ∧
    ofNext State.err (exec (.bsRdb 3) { State.reset with bs := ⟨20, [0x40, 0x14, 0x10]⟩ }) =
      some (some .invalidIndex) := by decide

/-- R119: the byte goes to the last item. -/
theorem test_pl_push : ofNext State.items (exec (.plPush 0x42) (withItems [[0x41], []])) =
    some [[0x41], [0x42]] := by decide

/-- R123's example: items [[0x41]] at version 1. -/
theorem test_ec_asm : ofNext State.bs (exec (.ecAsm 1) (withItems [[0x41]])) =
    some ⟨128, [0x40, 0x14, 0x10, 0xEC, 0x11, 0xEC, 0x11, 0xEC, 0x11, 0xEC, 0x11, 0xEC, 0x11, 0xEC,
      0x11, 0xEC]⟩ := by decide +kernel

/-- R128's example. -/
theorem test_ec_enc : ofNext State.cw (exec (.ecEnc 1) { State.reset with
      bs := ⟨128, [0x40, 0x14, 0x10, 0xEC, 0x11, 0xEC, 0x11, 0xEC, 0x11, 0xEC, 0x11, 0xEC, 0x11, 0xEC,
        0x11, 0xEC]⟩ }) =
    some [0x40, 0x14, 0x10, 0xEC, 0x11, 0xEC, 0x11, 0xEC, 0x11, 0xEC, 0x11, 0xEC, 0x11, 0xEC, 0x11,
      0xEC, 0x6B, 0x70, 0xF4, 0x18, 0xA3, 0x7A, 0x11, 0x5F, 0x34, 0xFC] := by decide +kernel

/-- R127's toy illustration. -/
theorem test_interleave_skips : interleave [[0xA0, 0xA1], [0xB0, 0xB1, 0xB2]] =
    [0xA0, 0xB0, 0xA1, 0xB1, 0xB2] := by decide

/-- R142, R145: the printed words. -/
theorem test_bch_words :
    (List.range 8).map bch15 =
      [0x5412, 0x5125, 0x5E7C, 0x5B4B, 0x45F9, 0x40CE, 0x4F97, 0x4AA0] ∧
    [7, 8, 9, 10].map bch18 = [0x07C94, 0x085BC, 0x09A99, 0x0A4D3] := by decide

/-- R132: two of the printed generators. -/
theorem test_generators :
    pgen 7 = [1, 127, 122, 154, 164, 11, 68, 117] ∧
    pgen 16 = [1, 59, 13, 104, 189, 68, 209, 30, 8, 163, 65, 41, 229, 98, 50, 36, 59] := by
  decide +kernel

/-- R144's example on a version-1 grid: rows 1 and 2 of column 8 Dark, row 0 Light, row 20 Dark. -/
theorem test_mx_fmt : ofNext (fun t => [cell t.mx 0 8, cell t.mx 1 8, cell t.mx 7 8, cell t.mx 20 8])
    (exec (.mxFmt false 5) (withMatrix 1 .unset)) = some [.light, .dark, .dark, .dark] := by
  decide +kernel

/-- R141's example: (6,8) Dark, (6,9) Light, transposed too. -/
theorem test_mx_time : ofNext (fun t => [cell t.mx 6 8, cell t.mx 6 9, cell t.mx 8 6, cell t.mx 9 6])
    (exec .mxTime (withMatrix 1 .unset)) = some [.dark, .light, .dark, .light] := by decide +kernel

/-- R146's example at version 7. -/
theorem test_mx_vinf : ofNext (fun t => [cell t.mx 0 36, cell t.mx 36 0, cell t.mx 0 34, cell t.mx 35 0])
    (exec .mxVinf (withMatrix 7 .unset)) = some [.dark, .dark, .light, .light] := by decide +kernel

/-- The walk begins at the bottom right corner, right cell first, upward (R150's example). -/
theorem test_walk_begins : (dataOrder 21).take 8 =
    [(20, 20), (20, 19), (19, 20), (19, 19), (18, 20), (18, 19), (17, 20), (17, 19)] := by decide

/-- R148's example. -/
theorem test_mk_eval : ofNext State.res (exec (.mkEval 5 2 3) State.reset) = some 1 := by decide

/-- R165's toy grids: `#####` over `.....` and so on scores (6, 0, 0, 0); seven rows of `#.###.#`
score (35, 36, 280, 40); a 7 x 7 Dark grid scores (70, 108, 0, 100). -/
theorem test_score_toys :
    scoreColours [[true, true, true, true, true], [false, false, false, false, false],
      [true, false, true, false, true], [false, true, false, true, false],
      [true, false, true, false, true]] = ⟨6, 0, 0, 0⟩ ∧
    scoreColours (List.replicate 7 finderLike) = ⟨35, 36, 280, 40⟩ ∧
    scoreColours (List.replicate 7 (List.replicate 7 true)) = ⟨70, 108, 0, 100⟩ := by
  decide +kernel

/-- R204: what some commands do as the first after reset. -/
theorem test_first_commands :
    ofNext State.res (exec .mxN State.reset) = some 0 ∧
    ofNext State.err (exec (.mxGet 0 0) State.reset) = some (some .invalidModuleAccess) ∧
    ofNext State.err (exec .mxFind State.reset) = some (some .invalidSequence) ∧
    ofNext State.err (exec (.ecEnc 1) State.reset) = some (some .invalidSequence) := by decide

/-- R74: `ENCODE "A"` is `PL.CLR`, `PL.SEG`, `PL.PUSH 0x41`, `ENC.RUN`. -/
theorem test_encode_pseudo :
    encodeCmds ['A'] = some [.plClr, .plSeg, .plPush 0x41, .encRun] := by decide

/-! ### Witnesses: states and operands that meet the premises of the statements -/

/-- Every version's all-equal matrix meets the invariant. -/
theorem withMatrix_inv (v : BitVec 4) (m : ModuleCode) (h0 : v ≠ 0#4) (h : v.toNat ≤ 10) :
    (withMatrix v m).Inv where
  itemSum := rfl
  itemMax := Nat.zero_le _
  payloadMax := Nat.zero_le _
  bits := bitsEmpty_ok
  codeMax := Nat.zero_le _
  polyMax := by intro r; cases r <;> exact Nat.zero_le _
  verMax := h
  square := by
    have e : side (withMatrix v m) = sideOf v.toNat := if_neg h0
    rw [e]
    exact ⟨List.length_replicate, fun row hrow => by rw [(List.mem_replicate.mp hrow).2]; simp⟩
  finFull := by intro h; cases h
  finNoErr := by intro h; cases h
  penSum := rfl

/-- A cell of an all-equal matrix. -/
theorem cell_withMatrix (v : BitVec 4) (m : ModuleCode) {r c : Nat} (hr : r < sideOf v.toNat)
    (hc : c < sideOf v.toNat) : cell (withMatrix v m).mx r c = m := by
  simp [cell, withMatrix, List.getD_eq_getElem?_getD, hr, hc]

theorem withZeroBits_ok (k : Nat) (h : k ≤ 256) : (withZeroBits k).bs.Ok where
  lenMax := by simp only [withZeroBits, Config.bsMaxBits]; omega
  bufLen := by simp only [withZeroBits, List.length_replicate]; omega
  tailZero := by intro h; simp only [withZeroBits] at h; omega

theorem witness_DecodeOfEncodeIsTheInstruction : (Instr.bsPut 0xFFFF 16).wf = true ∧
    (Instr.mxBuild 10 true 15).wf = true ∧ (Instr.mxRdp 4).wf = true := by decide

theorem witness_EncodeOfDecodedIsTheWord : decode 0x24000039#32 = .ok (.pMod .p1 .p2 .p3) := by decide

theorem witness_WordIsACommandExactlyWhenARowTakesIt :
    (State.reset.err = none ∧ ∀ r ∈ opcodeRows, r.takes 0x31110000#32 = false) ∧
    (∀ r ∈ opcodeRows, bits r.pattern 24 8 ≠ bits 0xFF000000#32 24 8) ∧
    (∃ r ∈ opcodeRows, bits r.pattern 24 8 = bits 0x11000100#32 24 8 ∧
      0x11000100#32 &&& r.mask ≠ r.pattern) ∧
    (bits 0x31110000#32 24 8 = 0x31#8 ∧ 17 ≤ (bits 0x31110000#32 16 5).toNat) ∧
    (bits 0x70000000#32 24 8 = 0x70#8 ∧ bits 0x70000000#32 8 4 = 0#4) ∧
    (bits 0x50000B00#32 24 8 = 0x50#8 ∧ 11 ≤ (bits 0x50000B00#32 8 4).toNat) ∧
    (bits 0x6C000005#32 24 8 = 0x6C#8 ∧ 5 ≤ (bits 0x6C000005#32 0 3).toNat) ∧
    versionOk 1 = true ∧ versionOk 10 = true := by decide

theorem witness_StepRunsTheDecodedCommand :
    decode 0x12000303#32 = .ok (.gfMul 3 3) ∧ State.reset.err = none := by decide

theorem witness_CommandProcedureAndOrderOfChecks :
    faulted.err ≠ none ∧
    (State.reset.err = none ∧ ∀ r ∈ opcodeRows, r.takes 0x00000001#32 = false) ∧
    (∃ r ∈ opcodeRows, r.takes 0x12000303#32 = true) ∧ State.reset.ver = 0#4 ∧
    ((withMatrix 1 .unset).ver ≠ 0#4 ∧ 8 ≤ (8 : BitVec 4).toNat) ∧ State.reset.itemCnt = 0 ∧
    ((withItems [List.replicate 256 0#8]).itemCnt ≠ 0 ∧
      (withItems [List.replicate 256 0#8]).plLen = 256) ∧
    hasUnset (withMatrix 1 .unset).mx = true := by decide +kernel

theorem witness_FaultStateDiscardsEverythingButSrst :
    faulted.err ≠ none ∧ (0x12000202#32 : Word) ≠ 0x01000000#32 := by decide

theorem witness_StepStopsExactlyOnAnUnsupportedAccess :
    (∃ a ∈ ({ State.reset with inbox := [.read 0x14 4] }).inbox.head?, a.supported = false) ∧
    (∃ a ∈ ({ State.reset with inbox := [.write 0x04 2 0] }).inbox.head?, a.supported = false) ∧
    (∀ a ∈ ({ State.reset with inbox := [.read 0x10 4] }).inbox.head?, a.supported = true) ∧
    (∀ a ∈ State.reset.inbox.head?, a.supported = true) := by decide

theorem witness_NopKeepsAndSrstResetsEveryElement :
    bits 0x00000001#32 24 8 = 0#8 ∧ (0x00000001#32 : Word) ≠ 0#32 ∧ State.reset.err = none := by decide

theorem witness_FaultsArePrecise : State.reset.err = none ∧
    issue 0x11000000#32 State.reset = .next faulted ∧ exec (.gfLog 0) State.reset = .next faulted ∧
    faulted.err ≠ none := ⟨rfl, rfl, rfl, by decide⟩

theorem witness_OnlyTheListedCommandsRaiseEachKind : State.reset.err = none ∧
    exec (.gfLog 0) State.reset = .next faulted ∧ faulted.err = some .invalidFieldOperand ∧
    issue 0xFFFFFFFF#32 State.reset = .next (faultEntry .invalidCommand 0xFFFFFFFF#32 State.reset) :=
  ⟨rfl, rfl, rfl, rfl⟩

theorem witness_ResIsWrittenOnlyByValueReturningCommands :
    (exec .bsClr State.reset = .next State.reset ∧ Instr.bsClr.returnsValue = false) ∧
    (exec .bsLen State.reset = .next State.reset ∧ Instr.bsLen.returnsValue = true) :=
  ⟨⟨rfl, rfl⟩, ⟨rfl, rfl⟩⟩

theorem witness_FinFollowsItsList : State.reset.err = none ∧
    exec .nop State.reset = .next State.reset ∧ access .reset State.reset = .next State.reset :=
  ⟨rfl, rfl, rfl⟩

theorem witness_CommandsAnswerAndWriteOnlyTheirElements : State.reset.err = none := rfl

theorem witness_ReadCommandsChangeOnlyResAndRepeat : Instr.cwLen.readsOnly = true ∧
    State.reset.err = none ∧ exec .cwLen State.reset = .next State.reset := ⟨rfl, rfl, rfl⟩

theorem witness_BitsAreNeverRemoved : (withZeroBits 255).bs.Ok ∧
    exec (.bsPut 0x8001 16) (withZeroBits 255) =
      .next (faultEntry .invalidIndex 0x31108001#32 (withZeroBits 255)) ∧
    exec (.bsPutb true) State.reset = .next { State.reset with bs := ⟨1, [0x80#8]⟩ } :=
  ⟨withZeroBits_ok 255 (by decide), rfl, rfl⟩

theorem witness_EncRunDependsOnTheItemsOnly : ∃ t t', State.reset.itemLen = (withPolys [1] [] [] []).itemLen ∧
    State.reset.err = none ∧ exec .encRun State.reset = .next t ∧
    exec .encRun (withPolys [1] [] [] []) = .next t' := ⟨_, _, rfl, rfl, rfl, rfl⟩

theorem witness_StepKeepsTheInvariant : (withMatrix 10 .dark).Inv ∧
    step (withMatrix 10 .dark) = .next (withMatrix 10 .dark) :=
  ⟨withMatrix_inv 10 .dark (by decide) (by decide), rfl⟩

theorem witness_GfLogReturnsTheExponent : (1#8 : Byte) ≠ 0#8 ∧ (255#8 : Byte) ≠ 0#8 := by decide

theorem witness_FieldProductLaws : (255#8 : Byte) ≠ 0#8 := by decide

theorem witness_PolyRegistersAreFilledAndRead :
    (polyOf .p0 State.reset).length ≠ 256 ∧
    (polyOf .p1 (withPolys [] (List.replicate 256 1#8) [] [])).length = 256 ∧
    (255#8 : Byte).toNat < (polyOf .p1 (withPolys [] (List.replicate 256 1#8) [] [])).length ∧
    (polyOf .p0 State.reset).length ≤ (0#8 : Byte).toNat := by decide +kernel

theorem witness_PolyMkStripsThenExtends :
    (polyOf .p1 (withPolys [] [0, 0, 5, 0] [] []) = List.replicate 2 0#8 ++ [5, 0] ∧
      canonical [5, 0] ∧ [(5 : Byte), 0].length + (254#8 : Byte).toNat ≤ 256 ∧
      256 < [(5 : Byte), 0].length + (255#8 : Byte).toNat) ∧
    (polyOf .p1 (withPolys [] [0, 0] [] []) = List.replicate 2 0#8 ++ [] ∧ canonical []) :=
  ⟨⟨rfl, by unfold canonical; decide, by decide, by decide⟩, rfl, by unfold canonical; decide⟩

theorem witness_PolyMulWritesTheConvolution :
    polyOf .p2 (withPolys [1] [2] [] []) = [] ∧ polyOf .p0 (withPolys [1] [2] [] []) ≠ [] ∧
    polyOf .p1 (withPolys [1] [2] [] []) ≠ [] ∧
    (polyOf .p0 (withPolys (List.replicate 128 1) (List.replicate 129 1) [] [])).length +
      (polyOf .p1 (withPolys (List.replicate 128 1) (List.replicate 129 1) [] [])).length - 1 ≤ 256 ∧
    256 < (polyOf .p0 (withPolys (List.replicate 128 1) (List.replicate 130 1) [] [])).length +
      (polyOf .p1 (withPolys (List.replicate 128 1) (List.replicate 130 1) [] [])).length - 1 := by
  decide +kernel

theorem witness_LongDivisionStepByStep :
    (([1, 3, 2] : Poly) ≠ [] ∧ ([5, 6] : Poly).length < ([1, 3, 2] : Poly).length) ∧
    (([1, 1] : Poly) ≠ [] ∧ ([1, 1] : Poly).length ≤ ([0, 1, 1] : Poly).length ∧
      ([0, 1, 1] : Poly).headD 0 = 0#8) ∧
    (([1, 3, 2] : Poly).length ≤ ([1, 3, 2] : Poly).length ∧ ([1, 3, 2] : Poly).headD 0 ≠ 0#8) := by
  decide

theorem witness_PolyModWritesTheRemainder :
    (polyOf .p1 (withPolys [5, 6] [1, 3, 2] [] []) ≠ [] ∧
      (polyOf .p0 (withPolys [5, 6] [1, 3, 2] [] [])).length <
        (polyOf .p1 (withPolys [5, 6] [1, 3, 2] [] [])).length) ∧
    ((polyOf .p0 (withPolys [5, 6, 1] [1, 3, 2] [] [])).headD 0 ≠ 0#8 ∧
      (polyOf .p1 (withPolys [5, 6, 1] [1, 3, 2] [] [])).headD 0 ≠ 0#8) ∧
    (polyOf .p2 (withPolys [5, 6] [1, 3, 2] [] []) = []) ∧
    ((polyOf .p1 (withPolys [1, 1, 1] [0, 1] [] [])).length ≤
        (polyOf .p0 (withPolys [1, 1, 1] [0, 1] [] [])).length ∧
      (polyOf .p1 (withPolys [1, 1, 1] [0, 1] [] [])).headD 0 = 0#8) := by decide

theorem witness_MultiplesLeaveNoRemainder : canonical [] ∧ canonical [1, 3, 2] ∧
    ([1, 3, 2] : Poly) ≠ [] := by unfold canonical; decide

theorem witness_PutAppendsMostSignificantBitFirst :
    ((withZeroBits 254).bs.Ok ∧ (withZeroBits 254).bs.len + (16 : BitVec 5).toNat ≤ 2048) ∧
    ((withZeroBits 256).bs.Ok ∧ 2048 < (withZeroBits 256).bs.len + (1 : BitVec 5).toNat) ∧
    (withZeroBits 255).bs.len + 1 ≤ 2048 ∧ 2048 < (withZeroBits 256).bs.len + 1 :=
  ⟨⟨withZeroBits_ok 254 (by decide), by decide⟩, ⟨withZeroBits_ok 256 (by decide), by decide⟩,
    by decide, by decide⟩

theorem witness_BitStoreIsClearedAndRead : (withZeroBits 256).bs.Ok ∧
    (255 : BitVec 16).toNat < ((withZeroBits 256).bs.len + 7) / 8 ∧
    ((withZeroBits 256).bs.len + 7) / 8 ≤ (256 : BitVec 16).toNat :=
  ⟨withZeroBits_ok 256 (by decide), by decide, by decide⟩

theorem witness_ItemCommandsBuildTheDataList :
    ((withItems [[1], []]).plLen = (withItems [[1], []]).itemLen.sum ∧
      (withItems [[1], []]).itemCnt ≠ 8 ∧ (withItems [[1], []]).itemCnt ≠ 0 ∧
      (withItems [[1], []]).plLen ≠ 256) ∧
    ((withItems (List.replicate 8 [])).itemCnt = 8 ∧
      (withItems (List.replicate 8 [])).plLen = (withItems (List.replicate 8 [])).itemLen.sum) ∧
    State.reset.itemCnt = 0 ∧
    ((withItems [List.replicate 256 0]).plLen = 256 ∧
      (withItems [List.replicate 256 0]).plLen = (withItems [List.replicate 256 0]).itemLen.sum) := by
  decide +kernel

theorem witness_AssembledStreamIsTheSpecifiedBits : versionOk 1 = true ∧
    (listBits (withItems [List.replicate 14 0]).items 1).length ≤ cap 1 ∧
    cap 1 < (listBits (withItems [List.replicate 15 0]).items 1).length := by decide +kernel

theorem witness_EcEncCodesEveryBlock : versionOk 10 = true ∧ (withZeroBits 216).bs.Ok ∧
    (withZeroBits 216).bs.len = cap 10 ∧ (withZeroBits 216).bs.len ≠ cap 9 :=
  ⟨by decide, withZeroBits_ok 216 (by decide), by decide, by decide⟩

theorem witness_InterleaveIsColumnMajor :
    ([[1, 2], [3, 4, 5]] : List (List Byte))[1]? = some [3, 4, 5] ∧
    ([3, 4, 5] : List Byte)[2]? = some 5 := by decide

theorem witness_CodewordsCapacitiesAndScoresAreRead : versionOk 1 = true ∧ versionOk 10 = true ∧
    (0 : BitVec 16).toNat < ({ State.reset with cw := [1] }).cw.length ∧
    ({ State.reset with cw := [1] }).cwLen ≤ (1 : BitVec 16).toNat ∧ (4 : BitVec 3).toNat < 5 ∧
    (7 : BitVec 4).toNat < 8 ∧ 8 ≤ (8 : BitVec 4).toNat := by decide

theorem witness_MxInitBlanksTheGrid : versionOk 1 = true ∧ versionOk 10 = true := by decide

theorem witness_StatusShowsItsFields : faulted.err = some .invalidFieldOperand ∧
    (faultEntry .capacityExceeded 0#32 State.reset).err = some .capacityExceeded ∧
    (faultEntry .invalidSequence 0#32 State.reset).err = some .invalidSequence := by decide

theorem witness_PolyGenWritesTheGenerator : 0 < 1 ∧ 254 < 255 := by decide

theorem witness_AreaPenaltiesCountBlocksAndBalance : 0 < 1 ∧ 0 < 57 := by decide

theorem witness_MxTimePlacesTheTimingPatterns :
    ((withMatrix 1 .unset).Inv ∧ (withMatrix 1 .unset).ver ≠ 0#4 ∧
      cell (withMatrix 1 .unset).mx 6 20 = .unset ∧ cell (withMatrix 1 .unset).mx 20 6 = .unset) ∧
    ((withMatrix 10 .light).Inv ∧ (withMatrix 10 .light).ver ≠ 0#4) ∧ State.reset.ver = 0#4 :=
  ⟨⟨withMatrix_inv 1 .unset (by decide) (by decide), by decide,
      cell_withMatrix 1 .unset (by decide) (by decide),
      cell_withMatrix 1 .unset (by decide) (by decide)⟩,
    ⟨withMatrix_inv 10 .light (by decide) (by decide), by decide⟩, rfl⟩

/-- Beside the premises: no cell falls under two of the clauses with different bits, since the fifteen
bits go to thirty cells that are all different, none the dark module's. -/
theorem witness_MxFmtPlacesTheFormatInformation :
    ((withMatrix 1 .unset).Inv ∧ (withMatrix 1 .unset).ver ≠ 0#4) ∧
    ((withMatrix 10 .dark).Inv ∧ (withMatrix 10 .dark).ver ≠ 0#4) ∧ State.reset.ver = 0#4 ∧
    (7 : BitVec 4).toNat < 8 ∧ 8 ≤ (8 : BitVec 4).toNat ∧
    ((13, 8) :: ((List.range 15).map fun i => (fmtCells 21 i).1) ++
      (List.range 15).map fun i => (fmtCells 21 i).2).Nodup :=
  ⟨⟨withMatrix_inv 1 .unset (by decide) (by decide), by decide⟩,
    ⟨withMatrix_inv 10 .dark (by decide) (by decide), by decide⟩, rfl, by decide, by decide,
    by decide⟩

theorem witness_MxFindPlacesTheFinders : (withMatrix 1 .unset).Inv ∧
    (withMatrix 1 .unset).ver ≠ 0#4 ∧ ring 3 3 7 7 ≤ 4 ∧
    (∀ p ∈ [(3, 3), (3, side (withMatrix 1 .unset) - 4), (side (withMatrix 1 .unset) - 4, 3)],
      4 < ring p.1 p.2 8 8) :=
  ⟨withMatrix_inv 1 .unset (by decide) (by decide), by decide, by decide, by decide⟩

theorem witness_MxAlgnPlacesTheAlignmentPatterns : (withMatrix 2 .unset).Inv ∧
    (withMatrix 2 .unset).ver ≠ 0#4 ∧ 18 ∈ alignPos 2 ∧ ring 18 18 16 20 ≤ 2 ∧
    cell (withMatrix 2 .unset).mx 18 18 = .unset ∧
    (∀ pr ∈ alignPos 2, ∀ pc ∈ alignPos 2, ¬ring pr pc 15 15 ≤ 2) :=
  ⟨withMatrix_inv 2 .unset (by decide) (by decide), by decide, by decide, by decide,
    cell_withMatrix 2 .unset (by decide) (by decide), by decide⟩

theorem witness_MxVinfPlacesTheVersionInformation :
    ((withMatrix 6 .unset).Inv ∧ (withMatrix 6 .unset).ver.toNat < 7) ∧
    ((withMatrix 7 .unset).Inv ∧ 7 ≤ (withMatrix 7 .unset).ver.toNat) :=
  ⟨⟨withMatrix_inv 6 .unset (by decide) (by decide), by decide⟩,
    ⟨withMatrix_inv 7 .unset (by decide) (by decide), by decide⟩⟩

theorem witness_MxDataFillsTheUnsetCellsInOrder :
    ({ withMatrix 1 .unset with cw := [0x40] }.ver ≠ 0#4 ∧ (7 : BitVec 4).toNat < 8 ∧
      8 ≤ (8 : BitVec 4).toNat ∧ State.reset.ver = 0#4) ∧
    0 < 8 * { withMatrix 1 .unset with cw := [0x40] }.cwLen ∧
    ¬8 < 8 * { withMatrix 1 .unset with cw := [0x40] }.cwLen ∧
    (unsetOrder (side (withMatrix 1 .unset)) (withMatrix 1 .unset).mx)[0]? = some (20, 20) ∧
    (unsetOrder (side (withMatrix 1 .unset)) (withMatrix 1 .unset).mx)[8]? = some (16, 20) ∧
    cell (withMatrix 1 .unset).mx 0 6 = .unset ∧
    (0, 6) ∉ unsetOrder (side (withMatrix 1 .dark)) (withMatrix 1 .dark).mx ∧
    ¬cell (withMatrix 1 .dark).mx 0 6 = .unset := by decide +kernel

theorem witness_MxDataFillsTheUnsetCellsInOrder_inv :
    { withMatrix 1 .unset with cw := [0x40] }.Inv where
  __ := withMatrix_inv 1 .unset (by decide) (by decide)
  codeMax := by decide

theorem witness_PlacementInAnotherOrder : (withMatrix 1 .unset).Inv ∧ (withMatrix 1 .unset).ver ≠ 0#4 ∧
    (7 : BitVec 4).toNat < 8 ∧ 0 < side (withMatrix 1 .unset) ∧ 7 ≤ (7 : BitVec 4).toNat ∧
    (10 : BitVec 4).toNat ≤ 10 ∧ (6, 6) ∈ alignPairs 7 ∧ (50, 50) ∈ alignPairs 10 ∧
    ring 6 6 4 8 ≤ 2 :=
  ⟨withMatrix_inv 1 .unset (by decide) (by decide), by decide, by decide, by decide, by decide,
    by decide, by decide, by decide, by decide⟩

theorem witness_PlacementWalkVisitsEachCellOnce : versionOk 1 = true ∧ 21 = 4 * (1 : BitVec 4).toNat + 17 := by
  decide

theorem witness_MxBuildEqualsTheSequence : ∃ t, versionOk 1 = true ∧ (0 : BitVec 4).toNat < 8 ∧
    8 ≤ (15 : BitVec 4).toNat ∧ exec (.mxBuild 1 false 0) State.reset = .next t :=
  ⟨_, by decide, by decide, by decide, rfl⟩

theorem witness_FinishedBuildIsComplete : versionOk 10 = true ∧ (7 : BitVec 4).toNat < 8 := by decide

theorem witness_FunctionPatternsLeaveTheDataCells : 1 ≤ 10 ∧ 10 ≤ 10 ∧ 7 < 8 := by decide

theorem witness_ModulesSideAndMasksAreRead :
    (20 : Byte).toNat < side (withMatrix 1 .dark) ∧ side (withMatrix 1 .dark) ≤ (21 : Byte).toNat ∧
    (7 : BitVec 4).toNat < 8 ∧ 8 ≤ (8 : BitVec 4).toNat := by decide

theorem witness_PenaltiesStayBelowTheirBounds : 57 ≤ 57 := by decide

theorem witness_MxScoreReturnsThePenalty :
    ((withMatrix 1 .dark).Inv ∧ (withMatrix 1 .dark).ver ≠ 0#4 ∧
      ∀ r < side (withMatrix 1 .dark), ∀ c < side (withMatrix 1 .dark),
        cell (withMatrix 1 .dark).mx r c ≠ .unset) ∧
    ((withMatrix 1 .unset).Inv ∧ cell (withMatrix 1 .unset).mx 20 20 = .unset) := by
  refine ⟨⟨withMatrix_inv 1 .dark (by decide) (by decide), by decide, fun r hr c hc => ?_⟩,
    withMatrix_inv 1 .unset (by decide) (by decide),
    cell_withMatrix 1 .unset (by decide) (by decide)⟩
  rw [cell_withMatrix 1 .dark hr hc]
  decide

theorem witness_EncBestKeepsTheLeastPenalty : versionOk 1 = true ∧ versionOk 10 = true := by decide

theorem witness_EncRunIsThePipelineAtTheLeastVersion :
    (versionOk 2 = true ∧ (listBits (withItems [List.replicate 15 0]).items 2).length ≤ cap 2 ∧
      ∀ u : BitVec 4, versionOk u = true → u.toNat < (2 : BitVec 4).toNat →
        cap u.toNat < (listBits (withItems [List.replicate 15 0]).items u.toNat).length) ∧
    (∀ v : BitVec 4, versionOk v = true →
      cap v.toNat < (listBits (withItems [List.replicate 214 0]).items v.toNat).length) := by
  refine ⟨⟨by decide, ?_, ?_⟩, ?_⟩
  · rw [listBits_length]; decide +kernel
  · intro u; rw [listBits_length]; revert u; decide +kernel
  · intro v; rw [listBits_length]; revert v; decide +kernel

theorem witness_CapacitiesOfSingleItems : versionOk 10 = true ∧
    (List.replicate 213 0#8).length ≤ 213 ∧
    ((withItems [List.replicate 214 0]).plLen = (withItems [List.replicate 214 0]).itemLen.sum ∧
      213 < (withItems [List.replicate 214 0]).plLen) := by decide +kernel

end Sys2Proof.Tests
end

namespace Sys2Proof.Machine

/-! ### The fields of `STATUS` (10_state.md R16) -/

@[simp] theorem statusWord_err (s : State) : bits (statusWord s) 0 4 = errCode s := by
  refine bits_eq fun i hi => ?_
  simp only [statusWord, BitVec.getLsbD_append]
  interval_cases i <;> simp

@[simp] theorem statusWord_fin (s : State) : bits (statusWord s) 4 1 = BitVec.ofBool s.fin := by
  refine bits_eq fun i hi => ?_
  simp only [statusWord, BitVec.getLsbD_append]
  interval_cases i
  simp

@[simp] theorem statusWord_reserved (s : State) : bits (statusWord s) 5 3 = 0#3 := by
  refine bits_eq fun i hi => ?_
  simp only [statusWord, BitVec.getLsbD_append]
  interval_cases i <;> simp

@[simp] theorem statusWord_ver (s : State) : bits (statusWord s) 8 4 = s.ver := by
  refine bits_eq fun i hi => ?_
  simp only [statusWord, BitVec.getLsbD_append]
  interval_cases i <;> simp

@[simp] theorem statusWord_bmask (s : State) : bits (statusWord s) 12 3 = s.bmask := by
  refine bits_eq fun i hi => ?_
  simp only [statusWord, BitVec.getLsbD_append]
  interval_cases i <;> simp

@[simp] theorem statusWord_high (s : State) : bits (statusWord s) 15 17 = 0#17 := by
  refine bits_eq fun i hi => ?_
  simp only [statusWord, BitVec.getLsbD_append]
  interval_cases i <;> simp

theorem errCode_of_none {s : State} (h : s.err = none) : errCode s = 0#4 := by simp [errCode, h]

theorem errCode_of_some {s : State} {k : ErrKind} (h : s.err = some k) : errCode s = k.code := by
  simp [errCode, h]

/-- The codes of R180 count the seven kinds from 1. -/
theorem ErrKind.code_toNat (k : ErrKind) : k.code.toNat =
    [ErrKind.capacityExceeded, .invalidModuleAccess, .invalidMaskPattern, .invalidFieldOperand,
      .invalidCommand, .invalidIndex, .invalidSequence].idxOf k + 1 := by
  cases k <;> rfl

/-- Only the state without a fault has the code 0 (R16). -/
theorem errCode_eq_zero_iff (s : State) : errCode s = 0#4 ↔ s.err = none := by
  refine ⟨fun h0 => ?_, errCode_of_none⟩
  cases he : s.err with
  | none => rfl
  | some k =>
    rw [errCode_of_some he] at h0
    have hk := k.code_toNat
    rw [h0] at hk
    exact absurd hk (Nat.succ_ne_zero _).symm

/-- Settles O9: each field is read from the concatenation of R16; the steps compute. -/
theorem statusShowsItsFields : Obligations.StatusShowsItsFields := by
  unfold Obligations.StatusShowsItsFields
  refine ⟨fun s => ⟨?_, fun k hk => ?_, ?_, statusWord_reserved s, statusWord_ver s,
    statusWord_bmask s, statusWord_high s⟩, rfl, fun s rest v => ⟨rfl, rfl⟩⟩
  · rw [statusWord_err, errCode_eq_zero_iff]
  · rw [statusWord_err, errCode_of_some hk, ErrKind.code_toNat]
  · rw [statusWord_fin]
    cases s.fin <;> decide

/-! ### `RES` in two runs (10_state.md R11) -/

/-- An update of the state, applied to an answer that is a next state. -/
def onNext (f : State → State) : Result → Result
  | .next t => .next (f t)
  | .fault r => .fault r
  | .refused r => .refused r

@[simp] theorem onNext_next (f : State → State) (t : State) :
    onNext f (.next t) = .next (f t) := rfl

@[simp] theorem onNext_raise_setRes (x : Word) (k : ErrKind) (i : Instr) (s : State) :
    onNext (setRes x) (raise k i s) = raise k i (setRes x s) := rfl

@[simp] theorem onNext_ite (f : State → State) (c : Prop) [Decidable c] (r r' : Result) :
    onNext f (if c then r else r') = if c then onNext f r else onNext f r' := apply_ite ..

theorem setPoly_setRes (r : PReg) (p : Poly) (x : Word) (s : State) :
    setPoly r p (setRes x s) = setRes x (setPoly r p s) := by cases r <;> rfl

@[simp] theorem setRes_self (s : State) : setRes s.res s = s := rfl

@[simp] theorem side_setRes (x : Word) (s : State) : side (setRes x s) = side s := rfl

@[simp] theorem items_setRes (x : Word) (s : State) : (setRes x s).items = s.items := rfl

/-- A command that returns no value, `SRST` apart, carries whatever `RES` holds through. -/
theorem exec_setRes_of_no_value {i : Instr} (hi : i.returnsValue = false) (hs : i ≠ .srst)
    (x : Word) (s : State) : exec i (setRes x s) = onNext (setRes x) (exec i s) := by
  cases i with
  | nop | bsClr | plClr | mxInit => rfl
  | srst => exact absurd rfl hs
  | pClr | pGen => exact congrArg Host.Outcome.next (setPoly_setRes ..)
  | pPush | pMk | pMul =>
    simp [exec, execPPush, execPMk, execPMul, setPoly_setRes]
  | pMod pd ps1 ps2 =>
    simp only [exec, execPMod, polyOf_setRes]
    cases pmod (polyOf ps1 s) (polyOf ps2 s) with
    | none => rfl
    | some r => exact congrArg Host.Outcome.next (setPoly_setRes ..)
  | bsPut | bsPutb | plSeg | plPush | ecEnc | mxFind | mxAlgn | mxTime | mxVinf =>
    simp only [exec, execBsPut, execBsPutb, execPlSeg, execPlPush, execEcEnc, execMxFind, execMxAlgn,
      execMxTime, execMxVinf, onNext_ite]
    rfl
  | ecAsm v =>
    simp only [exec, execEcAsm, items_setRes]
    cases assemble s.items v.toNat <;> rfl
  | mxFmt test mask =>
    simp only [exec, execMxFmt, onNext_ite]
    cases maskIndex mask <;> rfl
  | mxData mask =>
    simp only [exec, execMxData, onNext_ite]
    cases maskIndex mask <;> rfl
  | mxBuild v test mask =>
    simp only [exec, execMxBuild]
    cases maskIndex mask <;> rfl
  | _ => cases hi

/-- A read command raises, or writes `RES` and nothing else, and both whatever `RES` holds
(20_memory.md R45). -/
theorem exec_setRes_of_readsOnly {i : Instr} (hi : i.readsOnly = true) (x : Word) (s : State) :
    (∃ k, exec i s = raise k i s ∧ exec i (setRes x s) = raise k i (setRes x s)) ∨
    ∃ v, exec i s = .next (setRes v s) ∧ exec i (setRes x s) = .next (setRes v s) := by
  cases i with
  | gfExp | gfMul | bsLen | cwLen | ecCap | mxN | mxRdp => exact .inr ⟨_, rfl, rfl⟩
  | pLen ps1 => exact .inr ⟨_, rfl, by rw [exec, execPLen, polyOf_setRes]; rfl⟩
  | bsRdb idx =>
    by_cases hidx : idx.toNat ≥ (s.bs.len + 7) / 8
    · exact .inl ⟨_, if_pos hidx, if_pos hidx⟩
    · exact .inr ⟨_, if_neg hidx, if_neg hidx⟩
  | mxGet row col =>
    by_cases hout : row.toNat ≥ side s ∨ col.toNat ≥ side s
    · exact .inl ⟨_, if_pos hout, if_pos hout⟩
    · exact .inr ⟨_, if_neg hout, if_neg hout⟩
  | gfLog | pGet | cwRd | mkEval | encRdt =>
    simp only [exec, execGfLog, execPGet, execCwRd, execMkEval, execEncRdt, polyOf_setRes, setRes_cw]
    split
    · exact .inl ⟨_, rfl, rfl⟩
    · exact .inr ⟨_, rfl, rfl⟩
  | _ => cases hi

theorem exec_of_readsOnly {i : Instr} (hi : i.readsOnly = true) (s : State) :
    (∃ k, exec i s = raise k i s) ∨ ∃ v, exec i s = .next (setRes v s) :=
  (exec_setRes_of_readsOnly hi s.res s).imp (fun ⟨k, e, _⟩ => ⟨k, e⟩) fun ⟨v, e, _⟩ => ⟨v, e⟩

/-- A command that returns a value raises, or leads to one state, whatever `RES` holds. -/
theorem exec_setRes_of_value {i : Instr} (hi : i.returnsValue = true) (x : Word) (s : State) :
    (∃ k, exec i s = raise k i s ∧ exec i (setRes x s) = raise k i (setRes x s)) ∨
    ∃ t, exec i s = .next t ∧ exec i (setRes x s) = .next t := by
  cases i with
  | gfExp | gfLog | gfMul | pLen | pGet | bsLen | bsRdb | cwLen | cwRd | ecCap | mxGet | mxN | mkEval
  | mxRdp | encRdt =>
    exact (exec_setRes_of_readsOnly rfl x s).imp_right fun ⟨v, e⟩ => ⟨_, e⟩
  | encBest v => exact .inr ⟨_, rfl, rfl⟩
  | mxScore =>
    by_cases hver : s.ver = 0#4
    · exact .inl ⟨_, if_pos hver, if_pos hver⟩
    · by_cases hun : hasUnset s.mx = true
      · exact .inl ⟨_, (if_neg hver).trans (if_pos hun), (if_neg hver).trans (if_pos hun)⟩
      · exact .inr ⟨_, (if_neg hver).trans (if_neg hun), (if_neg hver).trans (if_neg hun)⟩
  | encRun =>
    simp only [exec, execEncRun, items_setRes]
    split
    · exact .inl ⟨_, rfl, rfl⟩
    · exact .inr ⟨_, rfl, rfl⟩
  | _ => cases hi

/-- Settles O14: `SRST` forgets the whole state, a command that returns no value carries `RES` through,
and one that returns a value raises or does not depend on it. -/
theorem resIsWrittenOnlyByValueReturningCommands :
    Obligations.ResIsWrittenOnlyByValueReturningCommands := by
  unfold Obligations.ResIsWrittenOnlyByValueReturningCommands
  refine ⟨fun i s t h hi hs => ?_, fun i s t x h => ?_⟩
  · have hself := exec_setRes_of_no_value hi hs s.res s
    rw [setRes_self, h, onNext_next] at hself
    calc t.res = (setRes s.res t).res := congrArg State.res (next_inj hself)
      _ = s.res := rfl
  · change ∃ t', exec i (setRes x s) = .next t' ∧ setRes t.res t' = t ∧ _
    cases hi : i.returnsValue with
    | false =>
      by_cases hs : i = .srst
      · subst hs
        exact ⟨t, h, rfl, nofun⟩
      · rw [exec_setRes_of_no_value hi hs, h]
        exact ⟨setRes x t, rfl, rfl, nofun⟩
    | true =>
      rcases exec_setRes_of_value hi x s with ⟨k, e, ex⟩ | ⟨u, e, ex⟩
      · have ht := raise_next (e.symm.trans h)
        subst ht
        exact ⟨_, ex, rfl, fun _ _ herr => nomatch herr⟩
      · have ht := next_inj (e.symm.trans h)
        subst ht
        exact ⟨u, ex, rfl, fun _ _ _ => rfl⟩

/-! ### Capacities and block sizes of the versions -/

theorem rsGroups_of_gt {v : Nat} (h : 10 < v) : rsGroups v = [] := by
  obtain ⟨k, rfl⟩ := Nat.exists_eq_add_of_le' h
  rfl

/-- A bound that holds of the rows of R121, and of no row, holds at every version number. -/
theorem blocks_all {P : List RSBlock → Prop} (h10 : ∀ v ≤ 10, P (blocks v)) (hnil : P []) (v : Nat) :
    P (blocks v) := by
  by_cases h : v ≤ 10
  · exact h10 v h
  · rwa [blocks, rsGroups_of_gt (Nat.not_le.mp h)]

/-- No capacity is above `BS_MAX_BITS` (R121, R6). -/
theorem cap_le_bsMaxBits (v : Nat) : cap v ≤ Config.bsMaxBits :=
  blocks_all (P := fun bs => 8 * (bs.map RSBlock.data).sum ≤ Config.bsMaxBits)
    (by decide) (by decide) v

/-- No version has more codewords than `CW_MAX` (R121, R6). -/
theorem totalcw_le_cwMax (v : Nat) : totalcw v ≤ Config.cwMax :=
  blocks_all (P := fun bs => (bs.map RSBlock.total).sum ≤ Config.cwMax) (by decide) (by decide) v

theorem data_le_total {v : Nat} : ∀ b ∈ blocks v, b.data ≤ b.total :=
  blocks_all (P := fun bs => ∀ b ∈ bs, b.data ≤ b.total) (by decide) (by decide) v

/-! ### The assembled stream is canonical -/

theorem putItem_ok {v : Nat} {b : BitStore} {x : List Byte} (h : b.Ok)
    (hl : (putItem v b x).len ≤ Config.bsMaxBits) : (putItem v b x).Ok := by
  rw [putItem_len] at hl
  refine putBytes_ok _ (putbits_ok _ _ (putbits_ok _ _ h (by omega)) ?_) ?_
  · rw [putbits_len]; omega
  · rw [putbits_len, putbits_len]; omega

theorem putItems_ok {v : Nat} {items : List (List Byte)} {b : BitStore} (h : b.Ok)
    (hl : b.len + preLen items v ≤ Config.bsMaxBits) : (items.foldl (putItem v) b).Ok := by
  induction items generalizing b with
  | nil => exact h
  | cons x items ih =>
    simp only [preLen, List.map_cons, List.sum_cons] at hl ih
    refine ih (putItem_ok h ?_) ?_ <;> rw [putItem_len] <;> omega

theorem terminate_ok {v : Nat} {b : BitStore} (h : b.Ok) : (terminate v b).Ok := by
  unfold terminate
  split
  · exact putbits_ok _ _ h (Nat.le_trans ‹_› (cap_le_bsMaxBits v))
  · exact h

theorem alignByte_ok {b : BitStore} (h : b.Ok) : (alignByte b).Ok := by
  have hmax := h.lenMax
  simp only [Config.bsMaxBits] at hmax
  refine putbits_ok _ _ h ?_
  simp only [Config.bsMaxBits]
  omega

theorem padLoop_ok {v : Nat} (fuel k : Nat) {b : BitStore} (h : b.Ok) (h8 : b.len % 8 = 0) :
    (padLoop v fuel k b).Ok := by
  induction fuel generalizing k b with
  | zero => exact h
  | succ fuel ih =>
    simp only [padLoop]
    split
    · have hcap := cap_le_bsMaxBits v
      have hc : cap v = 8 * datacw v := rfl
      refine ih _ (putbits_ok _ _ h ?_) ?_
      · omega
      · rw [putbits_len]; omega
    · exact h

/-- A list that fits assembles to a canonical stream (R122, R31). -/
theorem streamOf_ok {items : List (List Byte)} {v : Nat} (h : preLen items v ≤ cap v) :
    (streamOf items v).Ok := by
  have hitems : (items.foldl (putItem v) bitsEmpty).Ok :=
    putItems_ok bitsEmpty_ok (by simpa [bitsEmpty] using h.trans (cap_le_bsMaxBits v))
  refine padLoop_ok _ _ (alignByte_ok (terminate_ok hitems)) ?_
  rw [alignByte_len]
  omega

/-! ### The number of codewords -/

/-- What index `m` of every list adds to the interleave. -/
theorem filterMap_index_length (m : Nat) (ls : List (List Byte)) :
    (ls.map fun l => min m l.length).sum + (ls.filterMap fun l => l[m]?).length =
      (ls.map fun l => min (m + 1) l.length).sum := by
  induction ls with
  | nil => rfl
  | cons l ls ih =>
    simp only [List.map_cons, List.sum_cons, List.filterMap_cons]
    by_cases hm : m < l.length
    · simp only [List.getElem?_eq_getElem hm, List.length_cons]
      omega
    · simp only [List.getElem?_eq_none (Nat.not_lt.mp hm)]
      omega

theorem interleave_upto_length (m : Nat) (ls : List (List Byte)) :
    ((List.range m).flatMap fun i => ls.filterMap fun l => l[i]?).length =
      (ls.map fun l => min m l.length).sum := by
  induction m with
  | zero => simp
  | succ m ih =>
    rw [List.range_succ, List.flatMap_append, List.length_append, ih, ← filterMap_index_length]
    simp

/-- The interleave has no more elements than its lists together (R127). -/
theorem interleave_length_le (ls : List (List Byte)) :
    (interleave ls).length ≤ (ls.map List.length).sum := by
  rw [interleave, interleave_upto_length]
  exact List.sum_le_sum fun l _ => Nat.min_le_right _ _

theorem ecOf_length (ec : Nat) (d : List Byte) : (ecOf ec d).length = ec := by
  have hrem : ((pmod (mkpoly d ec) (pgen ec)).getD []).length ≤ ec := by
    cases hp : pmod (mkpoly d ec) (pgen ec) with
    | none => exact Nat.zero_le _
    | some r =>
      have hlt := (pmod_length hp).1
      rw [pgen_length] at hlt
      exact Nat.le_of_lt_succ hlt
  simp only [ecOf, List.length_append, List.length_replicate]
  exact Nat.sub_add_cancel hrem

theorem splitBlocks_sum_le (bs : List RSBlock) (bytes : List Byte) :
    ((splitBlocks bs bytes).map List.length).sum ≤ (bs.map RSBlock.data).sum := by
  induction bs generalizing bytes with
  | nil => rfl
  | cons b bs ih =>
    simp only [splitBlocks, List.map_cons, List.sum_cons, List.length_take]
    exact Nat.add_le_add (Nat.min_le_left _ _) (ih _)

theorem ecBlocks_sum_le (bs : List RSBlock) (ds : List (List Byte)) :
    ((List.zipWith (fun b d => ecOf b.ec d) bs ds).map List.length).sum ≤
      (bs.map RSBlock.ec).sum := by
  induction bs generalizing ds with
  | nil => rfl
  | cons b bs ih =>
    cases ds with
    | nil => exact Nat.zero_le _
    | cons d ds =>
      simp only [List.zipWith_cons_cons, List.map_cons, List.sum_cons, ecOf_length]
      exact Nat.add_le_add_left (ih ds) _

theorem sum_data_add_sum_ec (bs : List RSBlock) (h : ∀ b ∈ bs, b.data ≤ b.total) :
    (bs.map RSBlock.data).sum + (bs.map RSBlock.ec).sum = (bs.map RSBlock.total).sum := by
  rw [← List.sum_map_add]
  exact congrArg List.sum (List.map_congr_left fun b hb => Nat.add_sub_cancel' (h b hb))

/-- A version's codewords are no more than its table row says (R121, R125 to R127). -/
theorem codewordsOf_length_le (v : Nat) (buf : List Byte) :
    (codewordsOf v buf).length ≤ totalcw v := by
  rw [codewordsOf, List.length_append, totalcw, ← sum_data_add_sum_ec _ data_le_total]
  exact Nat.add_le_add ((interleave_length_le _).trans (splitBlocks_sum_le _ _))
    ((interleave_length_le _).trans (ecBlocks_sum_le _ _))

theorem codewordsOf_length_le_cwMax (v : Nat) (buf : List Byte) :
    (codewordsOf v buf).length ≤ Config.cwMax :=
  (codewordsOf_length_le v buf).trans (totalcw_le_cwMax v)

/-! ### The invariant through each update of the state -/

section Updates

variable {s : State}

theorem inv_withInbox (h : s.Inv) (l : List Access) : ({ s with inbox := l } : State).Inv :=
  { h with }

theorem inv_withRdata (h : s.Inv) (w : Word) : ({ s with rdata := w } : State).Inv := { h with }

theorem inv_setRes (h : s.Inv) (w : Word) : (setRes w s).Inv := { h with }

theorem inv_faultEntry (h : s.Inv) (k : ErrKind) (w : Word) : (faultEntry k w s).Inv :=
  { h with finFull := nofun, finNoErr := nofun }

theorem inv_setPoly (h : s.Inv) (r : PReg) {p : Poly} (hp : p.length ≤ Config.plenMax) :
    (setPoly r p s).Inv := by
  have hpoly : ∀ q, (polyOf q (setPoly r p s)).length ≤ Config.plenMax := by
    intro q
    by_cases hq : q = r
    · rw [hq, polyOf_setPoly_self]; exact hp
    · rw [polyOf_setPoly_ne hq]; exact h.polyMax q
  cases r <;> exact { h with polyMax := hpoly }

theorem inv_setItems (h : s.Inv) {lens : List Nat} {bytes : List Byte}
    (hsum : bytes.length = lens.sum) (hcnt : lens.length ≤ Config.itemMax)
    (hmax : bytes.length ≤ Config.payloadMax) : (setItems lens bytes s).Inv :=
  { h with itemSum := hsum, itemMax := hcnt, payloadMax := hmax }

theorem inv_setBits (h : s.Inv) {b : BitStore} (hb : b.Ok) : (setBits b s).Inv :=
  { h with bits := hb }

theorem inv_setCode (h : s.Inv) {cw : List Byte} (hcw : cw.length ≤ Config.cwMax) :
    (setCode cw s).Inv :=
  { h with codeMax := hcw }

/-- The registers of a score hold the total and its four parts, so they add up in any width (R166). -/
theorem inv_setPen (h : s.Inv) (p : Penalty) : (setPen (penOf p) s).Inv :=
  { h with penSum := by simp [penOf, wordOf, Penalty.total, BitVec.ofNat_add] }

theorem inv_setSearch (h : s.Inv) (t : Vector Word 8) (best : BitVec 3) :
    (setSearch t best s).Inv := { h with }

theorem versionOk_iff {v : BitVec 4} : versionOk v = true ↔ 1 ≤ v.toNat ∧ v.toNat ≤ 10 :=
  decide_eq_true_iff

theorem ver_ne_zero_of_versionOk {v : BitVec 4} (hv : versionOk v = true) : v ≠ 0#4 := by
  rintro rfl
  exact absurd hv (by decide)

/-- A new matrix of a legal version is square; `FIN` may be set when it is full and there is no
fault (R26, R31, R32). -/
theorem inv_setMatrix (h : s.Inv) {v : BitVec 4} {g : Grid} {fin : Bool} (hv : versionOk v = true)
    (hg : gridSquare (sideOf v.toNat) g) (hfull : fin = true → hasUnset g = false)
    (herr : fin = true → s.err = none) : (setMatrix v g fin s).Inv :=
  { h with
    verMax := (versionOk_iff.mp hv).2
    square := by
      rw [side_of_ver_ne (ver_ne_zero_of_versionOk hv)]
      exact hg
    finFull := fun hf => ⟨ver_ne_zero_of_versionOk hv, hfull hf⟩
    finNoErr := herr }

/-- A build of a legal version may set `FIN`: it leaves no cell Unset (R151). -/
theorem inv_setMatrix_buildGrid (h : s.Inv) (he : s.err = none) {v : BitVec 4}
    (hv : versionOk v = true) (masked test : Bool) (mask : Nat) (fin : Bool) :
    (setMatrix v (buildGrid masked v.toNat test mask s.cw) fin s).Inv :=
  have ⟨h1, h10⟩ := versionOk_iff.mp hv
  inv_setMatrix h hv (gridSquare_buildGrid ..) (fun _ => hasUnset_buildGrid s.cw h1 h10) fun _ => he

/-- A placement keeps the version and clears `FIN` (R155). -/
theorem inv_setMatrix_place (h : s.Inv) {g : Grid} (hg : gridSquare (side s) g) :
    (setMatrix s.ver g false s).Inv :=
  { h with square := hg, finFull := nofun, finNoErr := nofun }

theorem inv_searchBest (h : s.Inv) (he : s.err = none) {v : BitVec 4} (hv : versionOk v = true) :
    (searchBest v s).Inv :=
  inv_setSearch (inv_setPen (inv_setMatrix_buildGrid h he hv ..) _) ..

end Updates

/-- Every store of the reset state is empty and its `FIN` is 0 (R30). -/
theorem inv_reset : State.reset.Inv where
  itemSum := rfl
  itemMax := by decide
  payloadMax := by decide
  bits := bitsEmpty_ok
  codeMax := by decide
  polyMax r := by cases r <;> decide
  verMax := by decide
  square := ⟨rfl, nofun⟩
  finFull := nofun
  finNoErr := nofun
  penSum := by decide

theorem inv_unitReset (s : State) : (unitReset s).Inv :=
  inv_withRdata (inv_withInbox inv_reset s.inbox) s.rdata

/-- Settles O21, clause by clause from the empty stores of the reset state (`inv_reset`). -/
theorem resetMeetsTheInvariant : Obligations.ResetMeetsTheInvariant := inv_reset

/-! ### Well-formed commands and selected versions -/

/-- A word that is a command is well formed (30_encoding.md R70, R71). -/
theorem wf_of_decode {w : Word} {i : Instr} (h : decode w = .ok i) : i.wf = true := by
  unfold decode at h
  split at h
  · cases h
  · split at h
    · cases h
    · rename_i hd
      injection h with h
      rw [← h, Instr.wf, hd, Option.isNone_none]

/-- What `select` answers is a legal version that holds the list (46_encoder.md R170). -/
theorem selectVersion_some {items : List (List Byte)} {v : Nat} (h : selectVersion items = some v) :
    (1 ≤ v ∧ v ≤ 10) ∧ preLen items v ≤ cap v := by
  have hfit := List.find?_some h
  refine ⟨?_, of_decide_eq_true hfit⟩
  have hall : ∀ u ∈ [1, 2, 3, 4, 5, 6, 7, 8, 9, 10], 1 ≤ u ∧ u ≤ 10 := by decide
  exact hall v (List.mem_of_find?_eq_some h)

/-! ### The invariant through each command -/

/-- An answer that is a next state meets the invariant. -/
def AnswerInv (r : Result) : Prop := ∀ t, r = .next t → t.Inv

section Commands

variable {s : State}

theorem answerInv_next (h : s.Inv) : AnswerInv (.next s) := fun _ e => next_inj e ▸ h

theorem answerInv_refused (r : Refusal) : AnswerInv (.refused r) := nofun

theorem answerInv_raise (h : s.Inv) {k : ErrKind} {i : Instr} : AnswerInv (raise k i s) :=
  answerInv_next (inv_faultEntry h k _)

/-- A check that raises may be passed over: what stands behind it decides (R75, R189). -/
theorem answerInv_check (h : s.Inv) {c : Prop} [Decidable c] {k : ErrKind} {i : Instr} {r : Result}
    (hr : ¬c → AnswerInv r) : AnswerInv (if c then raise k i s else r) := by
  split
  · exact answerInv_raise h
  · exact hr ‹_›

theorem answerInv_setPoly (h : s.Inv) (r : PReg) {p : Poly} (hp : p.length ≤ Config.plenMax) :
    AnswerInv (.next (setPoly r p s)) := answerInv_next (inv_setPoly h r hp)

theorem answerInv_placed (h : s.Inv) {g : Grid} (hg : gridSquare (side s) g) :
    AnswerInv (placed g s) := answerInv_next (inv_setMatrix_place h hg)

theorem answerInv_of_readsOnly (h : s.Inv) {i : Instr} (hi : i.readsOnly = true) :
    AnswerInv (exec i s) := by
  rcases exec_of_readsOnly hi s with ⟨k, hk⟩ | ⟨v, hv⟩
  · rw [hk]; exact answerInv_raise h
  · rw [hv]; exact answerInv_next (inv_setRes h v)

/-! #### Polynomial registers -/

theorem answerInv_pPush (h : s.Inv) (pd : PReg) (k : Byte) : AnswerInv (execPPush pd k s) :=
  answerInv_check h fun hlen => answerInv_setPoly h pd (by
    rw [List.length_append]
    exact Nat.lt_of_le_of_ne (h.polyMax pd) hlen)

theorem answerInv_pMk (h : s.Inv) (pd ps1 : PReg) (k : Byte) : AnswerInv (execPMk pd ps1 k s) :=
  answerInv_check h fun hlen => answerInv_setPoly h pd (Nat.not_lt.mp hlen)

/-- A product that the length check lets through fits its register (R92, R98). -/
theorem pmul_length_le_of_check {a b : Poly} {n : Nat}
    (h : ¬(a.length > 0 ∧ b.length > 0 ∧ a.length + b.length - 1 > n)) : (pmul a b).length ≤ n := by
  by_cases hnil : a = [] ∨ b = []
  · simp [pmul, hnil]
  · obtain ⟨ha, hb⟩ := not_or.mp hnil
    have hle := pmul_length_le a b ha hb
    have hposa := List.length_pos_iff.mpr ha
    have hposb := List.length_pos_iff.mpr hb
    omega

theorem answerInv_pMul (h : s.Inv) (pd ps1 ps2 : PReg) : AnswerInv (execPMul pd ps1 ps2 s) :=
  answerInv_check h fun hlen => answerInv_setPoly h pd (pmul_length_le_of_check hlen)

theorem answerInv_pMod (h : s.Inv) (pd ps1 ps2 : PReg) : AnswerInv (execPMod pd ps1 ps2 s) := by
  unfold execPMod
  split
  · exact answerInv_raise h
  · exact answerInv_setPoly h pd ((pmod_length ‹_›).2.trans (h.polyMax ps1))

theorem answerInv_pGen (h : s.Inv) (pd : PReg) (k : Byte) : AnswerInv (execPGen pd k s) :=
  answerInv_setPoly h pd (by rw [pgen_length]; exact k.isLt)

/-! #### The bit store -/

theorem answerInv_bsPut (h : s.Inv) (value : BitVec 16) (count : BitVec 5) :
    AnswerInv (execBsPut value count s) :=
  answerInv_check h fun hlen =>
    answerInv_next (inv_setBits h (putbits_ok _ _ h.bits (Nat.not_lt.mp hlen)))

theorem answerInv_bsPutb (h : s.Inv) (a : Bool) : AnswerInv (execBsPutb a s) :=
  answerInv_check h fun hlen =>
    answerInv_next (inv_setBits h (putbit_ok h.bits _ (Nat.not_lt.mp hlen)))

theorem answerInv_ecAsm (h : s.Inv) (v : BitVec 4) : AnswerInv (execEcAsm v s) := by
  unfold execEcAsm
  rcases assemble_cases s.items v.toNat with ⟨-, e⟩ | ⟨hfit, e⟩
  · rw [e]; exact answerInv_raise h
  · rw [e]; exact answerInv_next (inv_setBits h (streamOf_ok hfit))

/-! #### The item store and the codeword store -/

theorem answerInv_plSeg (h : s.Inv) : AnswerInv (execPlSeg s) :=
  answerInv_check h fun hcnt => answerInv_next (inv_setItems h
    (by rw [List.sum_append, List.sum_singleton]; exact h.itemSum)
    (by rw [List.length_append]; exact Nat.lt_of_le_of_ne h.itemMax hcnt) h.payloadMax)

@[simp] theorem bumpLast_length (lens : List Nat) : (bumpLast lens).length = lens.length :=
  List.length_modify ..

theorem bumpLast_concat (init : List Nat) (last : Nat) :
    bumpLast (init ++ [last]) = init ++ [last + 1] := by
  simp [bumpLast, List.modify_eq_take_drop]

/-- A byte more in the last item is a byte more in all (R119). -/
theorem bumpLast_sum {lens : List Nat} (h : lens ≠ []) : (bumpLast lens).sum = lens.sum + 1 := by
  rw [← List.dropLast_append_getLast h, bumpLast_concat]
  simp [Nat.add_assoc]

theorem answerInv_plPush (h : s.Inv) (a : Byte) : AnswerInv (execPlPush a s) :=
  answerInv_check h fun hcnt => answerInv_check h fun hmax => answerInv_next (inv_setItems h
    (by
      rw [bumpLast_sum (List.length_pos_iff.mp (Nat.pos_of_ne_zero hcnt)), List.length_append]
      exact congrArg (· + 1) h.itemSum)
    (by rw [bumpLast_length]; exact h.itemMax)
    (by rw [List.length_append]; exact Nat.lt_of_le_of_ne h.payloadMax hmax))

theorem answerInv_ecEnc (h : s.Inv) (v : BitVec 4) : AnswerInv (execEcEnc v s) :=
  answerInv_check h fun _ => answerInv_next (inv_setCode h (codewordsOf_length_le_cwMax _ _))

/-! #### The matrix -/

theorem answerInv_mxInit (h : s.Inv) {v : BitVec 4} (hv : versionOk v = true) :
    AnswerInv (execMxInit v s) :=
  answerInv_next (inv_setMatrix h hv (gridSquare_blankGrid _) nofun nofun)

theorem answerInv_mxFind (h : s.Inv) : AnswerInv (execMxFind s) :=
  answerInv_check h fun _ => answerInv_placed h (gridSquare_putFinders h.square)

theorem answerInv_mxAlgn (h : s.Inv) : AnswerInv (execMxAlgn s) :=
  answerInv_check h fun _ => answerInv_placed h (gridSquare_putAligns h.square)

theorem answerInv_mxTime (h : s.Inv) : AnswerInv (execMxTime s) :=
  answerInv_check h fun _ => answerInv_placed h (gridSquare_putTiming h.square)

theorem answerInv_mxFmt (h : s.Inv) (test : Bool) (mask : BitVec 4) :
    AnswerInv (execMxFmt test mask s) := by
  refine answerInv_check h fun _ => ?_
  split
  · exact answerInv_raise h
  · exact answerInv_placed h (gridSquare_putFormat h.square)

theorem answerInv_mxVinf (h : s.Inv) : AnswerInv (execMxVinf s) :=
  answerInv_check h fun _ => answerInv_placed h (gridSquare_putVersion h.square)

theorem answerInv_mxData (h : s.Inv) (mask : BitVec 4) :
    AnswerInv (execMxData mask s) := by
  refine answerInv_check h fun _ => ?_
  split
  · exact answerInv_raise h
  · exact answerInv_placed h (gridSquare_placeData h.square)

theorem answerInv_mxBuild (h : s.Inv) (he : s.err = none) {v : BitVec 4}
    (hv : versionOk v = true) (test : Bool) (mask : BitVec 4) :
    AnswerInv (execMxBuild v test mask s) := by
  unfold execMxBuild
  split
  · exact answerInv_raise h
  · exact answerInv_next (inv_setMatrix_buildGrid h he hv ..)

theorem answerInv_mxScore (h : s.Inv) : AnswerInv (execMxScore s) :=
  answerInv_check h fun _ => answerInv_check h fun _ =>
    answerInv_next (inv_setRes (inv_setPen h _) _)

/-! #### The search and the facade -/

theorem answerInv_encBest (h : s.Inv) (he : s.err = none) {v : BitVec 4}
    (hv : versionOk v = true) : AnswerInv (execEncBest v s) :=
  answerInv_next (inv_setRes (inv_searchBest h he hv) _)

theorem answerInv_encRun (h : s.Inv) (he : s.err = none) : AnswerInv (execEncRun s) := by
  unfold execEncRun
  split
  · exact answerInv_raise h
  · rename_i v hsel
    obtain ⟨⟨h1, h10⟩, hfit⟩ := selectVersion_some hsel
    have hv : versionOk (BitVec.ofNat 4 v) = true := by
      rw [versionOk_iff, BitVec.toNat_ofNat]
      omega
    have hbits := inv_setBits h (streamOf_ok hfit)
    have hcode := inv_setCode hbits (codewordsOf_length_le_cwMax v (streamOf s.items v).buf)
    exact answerInv_next (inv_setRes (inv_searchBest hcode he hv) _)

/-- The version field of a well-formed command is in range (R66, R70). -/
theorem versionOk_of_defect {v : BitVec 4}
    (h : (if versionOk v then none else some Illegal.versionRange).isNone = true) :
    versionOk v = true := by
  by_contra hn
  simp [hn] at h

/-! #### Every command -/

/-- Outside the fault state every well-formed command keeps the invariant (R31). -/
theorem answerInv_exec (h : s.Inv) (he : s.err = none) {i : Instr} (hi : i.wf = true) :
    AnswerInv (exec i s) := by
  cases i with
  | nop => exact answerInv_next h
  | srst => exact answerInv_next (inv_unitReset s)
  | pClr pd => exact answerInv_setPoly h pd (Nat.zero_le _)
  | pPush pd k => exact answerInv_pPush h pd k
  | pMk pd ps1 k => exact answerInv_pMk h pd ps1 k
  | pMul pd ps1 ps2 => exact answerInv_pMul h pd ps1 ps2
  | pMod pd ps1 ps2 => exact answerInv_pMod h pd ps1 ps2
  | pGen pd k => exact answerInv_pGen h pd k
  | bsClr => exact answerInv_next (inv_setBits h bitsEmpty_ok)
  | bsPut value count => exact answerInv_bsPut h value count
  | bsPutb a => exact answerInv_bsPutb h a
  | plClr => exact answerInv_next (inv_setItems h rfl (Nat.zero_le _) (Nat.zero_le _))
  | plSeg => exact answerInv_plSeg h
  | plPush a => exact answerInv_plPush h a
  | ecAsm v => exact answerInv_ecAsm h v
  | ecEnc v => exact answerInv_ecEnc h v
  | mxInit v => exact answerInv_mxInit h (versionOk_of_defect hi)
  | mxFind => exact answerInv_mxFind h
  | mxAlgn => exact answerInv_mxAlgn h
  | mxTime => exact answerInv_mxTime h
  | mxFmt test mask => exact answerInv_mxFmt h test mask
  | mxVinf => exact answerInv_mxVinf h
  | mxData mask => exact answerInv_mxData h mask
  | mxBuild v test mask => exact answerInv_mxBuild h he (versionOk_of_defect hi) test mask
  | mxScore => exact answerInv_mxScore h
  | encBest v => exact answerInv_encBest h he (versionOk_of_defect hi)
  | encRun => exact answerInv_encRun h he
  | gfExp | gfLog | gfMul | pLen | pGet | bsLen | bsRdb | cwLen | cwRd | ecCap | mxGet | mxN | mkEval
  | mxRdp | encRdt => exact answerInv_of_readsOnly h rfl

/-! ### The invariant through each access of the host -/

theorem answerInv_issue (h : s.Inv) (w : Word) : AnswerInv (issue w s) := by
  rcases issue_cases w s with ⟨-, -, e⟩ | ⟨-, -, e⟩ | ⟨-, -, e⟩ | ⟨he, i, hi, e⟩ <;> rw [e]
  · exact answerInv_next (inv_unitReset s)
  · exact answerInv_next h
  · exact answerInv_next (inv_faultEntry h _ w)
  · exact answerInv_exec h he (wf_of_decode hi)

theorem answerInv_access (h : s.Inv) (a : Access) : AnswerInv (access a s) := by
  cases a with
  | read off width =>
    simp only [access]
    split
    · exact answerInv_next (inv_withRdata h _)
    · exact answerInv_refused _
  | write off width v =>
    simp only [access]
    split
    · split
      · exact answerInv_issue h v
      · exact answerInv_next h
    · exact answerInv_refused _
  | reset => exact answerInv_next (inv_unitReset s)

theorem answerInv_step (h : s.Inv) : AnswerInv (step s) := by
  unfold step
  split
  · exact answerInv_next h
  · exact answerInv_access (inv_withInbox h _) _

end Commands

/-- Settles O20: a step is one access, an access at most one command, and each command keeps every
clause of the invariant. -/
theorem stepKeepsTheInvariant : Obligations.StepKeepsTheInvariant :=
  fun _ t h => answerInv_step h t

end Sys2Proof.Machine

namespace Sys2Proof.Machine

/-! ### The accesses of the host's window (20_memory.md R41, R42) -/

theorem step_of_inbox_nil {s : State} (h : s.inbox = []) : step s = .next s := by
  simp only [step, h]

theorem step_of_inbox_cons {s : State} {a : Access} {rest : List Access} (h : s.inbox = a :: rest) :
    step s = access a { s with inbox := rest } := by
  simp only [step, h]

theorem windowOk_iff {off width : Nat} :
    windowOk off width = true ↔ width = 4 ∧ off ∈ [0x00, 0x04, 0x08, 0x0C, 0x10] := by
  simp only [windowOk, decide_eq_true_eq, List.mem_cons, List.not_mem_nil, or_false]
  omega

theorem supported_read (off width : Nat) :
    (Access.read off width).supported = windowOk off width := by
  rw [Bool.eq_iff_iff, windowOk_iff, Access.supported, Bool.and_eq_true, beq_iff_eq,
    List.contains_iff_mem]

theorem supported_write (off width : Nat) (v : Word) :
    (Access.write off width v).supported = windowOk off width := supported_read off width

theorem access_read {off width : Nat} (h : windowOk off width = true) (s : State) :
    access (.read off width) s = .next { s with rdata := windowRead off s } := if_pos h

theorem step_read {off width : Nat} (h : windowOk off width = true) (rest : List Access) (s : State) :
    step { s with inbox := .read off width :: rest } =
      .next { s with inbox := rest, rdata := windowRead off s } :=
  access_read h { s with inbox := rest }

theorem access_write_readOnly {off width : Nat} (h : windowOk off width = true) (hcmd : off ≠ 0x04)
    (v : Word) (s : State) : access (.write off width v) s = .next s :=
  (if_pos h).trans (if_neg hcmd)

theorem access_of_not_supported {a : Access} (h : a.supported = false) (s : State) :
    access a s = .refused .unsupportedAccess := by
  cases a with
  | read off width =>
    rw [supported_read] at h
    exact if_neg (Bool.eq_false_iff.mp h)
  | write off width v =>
    rw [supported_write] at h
    exact if_neg (Bool.eq_false_iff.mp h)
  | reset => cases h

/-- Settles O8: each read is `windowRead` at one of the five offsets; a write issues a command at the
offset of `CMD` only. -/
theorem windowReadsAndWrites : Obligations.WindowReadsAndWrites := by
  unfold Obligations.WindowReadsAndWrites
  refine fun s rest v => ⟨step_read (off := 0x00) rfl rest s, step_read (off := 0x04) rfl rest s,
    step_read (off := 0x08) rfl rest s, step_read (off := 0x0C) rfl rest s,
    step_read (off := 0x10) rfl rest s, rfl, fun off hoff => ?_⟩
  have hro : ∀ o ∈ [0x00, 0x08, 0x0C, 0x10], windowOk o 4 = true ∧ o ≠ 0x04 := by decide
  obtain ⟨hok, hcmd⟩ := hro off hoff
  exact access_write_readOnly hok hcmd v _

/-! ### Read commands (20_memory.md R45) -/

/-- Settles O17: a read command that completes wrote one value to `RES`, and its answer does not
depend on what `RES` held before. -/
theorem readCommandsChangeOnlyResAndRepeat : Obligations.ReadCommandsChangeOnlyResAndRepeat := by
  unfold Obligations.ReadCommandsChangeOnlyResAndRepeat
  intro i s t hi _ h herr
  rcases exec_setRes_of_readsOnly hi t.res s with ⟨k, e, -⟩ | ⟨v, e, hrepeat⟩
  · have ht := raise_next (e.symm.trans h)
    subst ht
    cases herr
  · have ht := next_inj (e.symm.trans h)
    subst ht
    exact ⟨onlyChanges_setRes v s, hrepeat⟩

/-! ### Every command, and every supported access, answers a next state (R42, R75, R184) -/

/-- The answer is a next state. -/
def AnswersNext (r : Result) : Prop := ∃ t, r = .next t

theorem answersNext_next (s : State) : AnswersNext (.next s) := ⟨s, rfl⟩

theorem answersNext_raise (k : ErrKind) (i : Instr) (s : State) : AnswersNext (raise k i s) :=
  answersNext_next _

theorem answersNext_placed (g : Grid) (s : State) : AnswersNext (placed g s) := answersNext_next _

/-- A check that raises may be passed over: fault entry is a next state too (R184). -/
theorem answersNext_check {c : Prop} [Decidable c] {k : ErrKind} {i : Instr} {s : State} {r : Result}
    (hr : AnswersNext r) : AnswersNext (if c then raise k i s else r) := by
  split
  · exact answersNext_raise k i s
  · exact hr

/-- A command that returns a value raises or completes. -/
theorem answersNext_of_value {i : Instr} (hi : i.returnsValue = true) (s : State) :
    AnswersNext (exec i s) := by
  rcases exec_setRes_of_value hi s.res s with ⟨k, e, -⟩ | ⟨t, e, -⟩
  · rw [e]; exact answersNext_raise k i s
  · exact ⟨t, e⟩

theorem answersNext_exec (i : Instr) (s : State) : AnswersNext (exec i s) := by
  cases i with
  | nop | srst | pClr | pGen | bsClr | plClr | mxInit => exact answersNext_next _
  | pPush | pMk | pMul | bsPut | bsPutb | plSeg | ecEnc => exact answersNext_check (answersNext_next _)
  | plPush => exact answersNext_check (answersNext_check (answersNext_next _))
  | mxFind | mxAlgn | mxTime | mxVinf => exact answersNext_check (answersNext_placed _ s)
  | pMod | ecAsm | mxBuild =>
    simp only [exec, execPMod, execEcAsm, execMxBuild]
    split
    · exact answersNext_raise ..
    · exact answersNext_next _
  | mxFmt | mxData =>
    refine answersNext_check ?_
    split
    · exact answersNext_raise ..
    · exact answersNext_placed ..
  | gfExp | gfLog | gfMul | pLen | pGet | bsLen | bsRdb | cwLen | cwRd | ecCap | mxGet | mxN | mkEval
  | mxRdp | mxScore | encBest | encRun | encRdt => exact answersNext_of_value rfl s

theorem answersNext_issue (w : Word) (s : State) : AnswersNext (issue w s) := by
  rcases issue_cases w s with ⟨-, -, e⟩ | ⟨-, -, e⟩ | ⟨-, -, e⟩ | ⟨-, i, -, e⟩ <;> rw [e]
  · exact answersNext_exec .srst s
  · exact answersNext_next s
  · exact answersNext_next _
  · exact answersNext_exec i s

theorem answersNext_access {a : Access} (h : a.supported = true) (s : State) :
    AnswersNext (access a s) := by
  cases a with
  | read off width =>
    rw [supported_read] at h
    rw [access_read h]
    exact answersNext_next _
  | write off width v =>
    rw [supported_write] at h
    by_cases hcmd : off = 0x04
    · obtain ⟨rfl, -⟩ := windowOk_iff.mp h
      subst hcmd
      exact answersNext_issue v s
    · rw [access_write_readOnly h hcmd]
      exact answersNext_next s
  | reset => exact answersNext_next _

theorem access_refused_iff (a : Access) (s : State) :
    access a s = .refused .unsupportedAccess ↔ a.supported = false := by
  cases hsup : a.supported with
  | false => exact iff_of_true (access_of_not_supported hsup s) rfl
  | true =>
    obtain ⟨t, ht⟩ := answersNext_access hsup s
    rw [ht]
    exact iff_of_false nofun nofun

/-- Settles O10: with no access to come a step answers the state itself; else it answers the oldest
access, which is refused exactly when the window does not support it. -/
theorem stepStopsExactlyOnAnUnsupportedAccess :
    Obligations.StepStopsExactlyOnAnUnsupportedAccess := by
  unfold Obligations.StepStopsExactlyOnAnUnsupportedAccess
  intro s
  cases hin : s.inbox with
  | nil => simp [step_of_inbox_nil hin]
  | cons a rest =>
    rw [step_of_inbox_cons hin, access_refused_iff]
    simp only [List.head?_cons, Option.mem_some_iff, exists_eq_left', forall_eq', true_and]
    exact fun h => answersNext_access h _

end Sys2Proof.Machine

namespace Sys2Proof

/-! ### Words that agree on ranges of bits -/

/-- The bit positions of a list of ranges `(lo, len)`. -/
def covers (ranges : List (Nat × Nat)) (j : Nat) : Bool :=
  ranges.any fun r => decide (r.1 ≤ j ∧ j < r.1 + r.2)

/-- Two words have the same bits in every range of the list. -/
def Agree (ranges : List (Nat × Nat)) (u w : Word) : Prop :=
  ∀ r ∈ ranges, bits u r.1 r.2 = bits w r.1 r.2

@[simp] theorem bits_zero (lo len : Nat) : bits 0#32 lo len = 0#len := by
  simp [bits]

theorem bits_eq_bits_iff {u w : Word} {lo len : Nat} :
    bits u lo len = bits w lo len ↔ ∀ j, lo ≤ j → j < lo + len → u.getLsbD j = w.getLsbD j := by
  constructor
  · intro h j hlo hhi
    have hbit := congrArg (BitVec.getLsbD · (j - lo)) h
    have hlen : j - lo < len := by omega
    simpa [bits, hlen, Nat.add_sub_cancel' hlo] using hbit
  · intro h
    refine bits_eq fun i hi => ?_
    simpa [bits, hi] using h (lo + i) (by omega) (by omega)

theorem agree_iff {ranges : List (Nat × Nat)} {u w : Word} :
    Agree ranges u w ↔ ∀ j, covers ranges j = true → u.getLsbD j = w.getLsbD j := by
  simp only [Agree, bits_eq_bits_iff, covers, List.any_eq_true, decide_eq_true_eq]
  exact ⟨fun h j ⟨r, hr, hlo, hhi⟩ => h r hr j hlo hhi,
    fun h r hr j hlo hhi => h j ⟨r, hr, hlo, hhi⟩⟩

/-- Agreement on some ranges is agreement on all others whose bits they cover. -/
theorem Agree.of_covers {ranges ranges' : List (Nat × Nat)} {u w : Word} (h : Agree ranges u w)
    (hc : ∀ j < 32, covers ranges' j = true → covers ranges j = true) : Agree ranges' u w := by
  rw [agree_iff] at h ⊢
  intro j hj
  by_cases hlt : j < 32
  · exact h j (hc j hlt hj)
  · rw [BitVec.getLsbD_of_ge _ _ (Nat.not_lt.mp hlt), BitVec.getLsbD_of_ge _ _ (Nat.not_lt.mp hlt)]

theorem Agree.eq {ranges : List (Nat × Nat)} {u w : Word} (h : Agree ranges u w)
    (hc : ∀ j < 32, covers ranges j = true) : u = w :=
  BitVec.eq_of_getLsbD_eq fun j hj => agree_iff.mp h j (hc j hj)

/-- A range of zeros from other ranges of zeros that cover it. -/
theorem bits_eq_zero_of_covers {ranges : List (Nat × Nat)} {w : Word} {lo len : Nat}
    (hz : ∀ r ∈ ranges, bits w r.1 r.2 = 0#r.2)
    (hc : ∀ j < 32, covers [(lo, len)] j = true → covers ranges j = true) :
    bits w lo len = 0#len := by
  have h : Agree ranges w 0#32 := fun r hr => by rw [hz r hr, bits_zero]
  simpa [Agree] using h.of_covers hc

/-- A mask and match test (R71) compares the ranges of the mask. -/
theorem and_eq_iff_agree {ranges : List (Nat × Nat)} {w mask pattern : Word}
    (hmask : ∀ j < 32, mask.getLsbD j = covers ranges j) (hpat : pattern &&& mask = pattern) :
    w &&& mask = pattern ↔ Agree ranges w pattern := by
  rw [agree_iff]
  constructor
  · intro h j hj
    by_cases hlt : j < 32
    · rw [← h, BitVec.getLsbD_and, hmask j hlt, hj, Bool.and_true]
    · rw [BitVec.getLsbD_of_ge _ _ (Nat.not_lt.mp hlt), BitVec.getLsbD_of_ge _ _ (Nat.not_lt.mp hlt)]
  · intro h
    rw [← hpat]
    refine BitVec.eq_of_getLsbD_eq fun j hj => ?_
    rw [BitVec.getLsbD_and, BitVec.getLsbD_and, hmask j hj]
    cases hcov : covers ranges j with
    | false => simp
    | true => rw [h j hcov]

/-! ### The words of a format are those with its fields (R61 to R68) -/

@[simp] theorem PReg.ofBits_zero : PReg.ofBits 0#2 = .p0 := rfl

@[simp] theorem PReg.toBits_p0 : PReg.p0.toBits = 0#2 := rfl

theorem toBits_pregAt (w : Word) (lo : Nat) : (pregAt w lo).toBits = bits w lo 2 :=
  PReg.toBits_ofBits _

theorem fmtZ_eq_iff {w : Word} {op : Byte} :
    fmtZ op = w ↔ bits w 24 8 = op ∧ bits w 0 24 = 0#24 := by
  constructor
  · rintro rfl
    exact ⟨fmtZ_op .., fmtZ_zero ..⟩
  · rintro ⟨hop, hz⟩
    refine Agree.eq (ranges := [(24, 8), (0, 24)]) ?_ (by decide)
    simp [Agree, fmtZ_op, fmtZ_zero, hop, hz]

theorem fmtP_eq_iff {w : Word} {op k : Byte} {ps2 ps1 pd : PReg} :
    fmtP op k ps2 ps1 pd = w ↔ bits w 24 8 = op ∧ bits w 16 8 = 0#8 ∧ bits w 8 8 = k ∧
      bits w 6 2 = 0#2 ∧ bits w 4 2 = ps2.toBits ∧ bits w 2 2 = ps1.toBits ∧
      bits w 0 2 = pd.toBits := by
  constructor
  · rintro rfl
    exact ⟨fmtP_op .., fmtP_reserved .., fmtP_k .., fmtP_reserved2 .., fmtP_ps2 .., fmtP_ps1 ..,
      fmtP_pd ..⟩
  · rintro ⟨hop, h16, hk, h6, hps2, hps1, hpd⟩
    refine Agree.eq (ranges := [(24, 8), (16, 8), (8, 8), (6, 2), (4, 2), (2, 2), (0, 2)]) ?_
      (by decide)
    simp [Agree, fmtP_op, fmtP_reserved, fmtP_k, fmtP_reserved2, fmtP_ps2, fmtP_ps1, fmtP_pd, hop, h16,
      hk, h6, hps2, hps1, hpd]

theorem fmtI24_eq_iff {w : Word} {op : Byte} {n : BitVec 24} :
    fmtI24 op n = w ↔ bits w 24 8 = op ∧ bits w 0 24 = n := by
  constructor
  · rintro rfl
    exact ⟨fmtI24_op .., fmtI24_n ..⟩
  · rintro ⟨hop, hn⟩
    refine Agree.eq (ranges := [(24, 8), (0, 24)]) ?_ (by decide)
    simp [Agree, fmtI24_op, fmtI24_n, hop, hn]

theorem fmtAB_eq_iff {w : Word} {op b a : Byte} :
    fmtAB op b a = w ↔ bits w 24 8 = op ∧ bits w 16 8 = 0#8 ∧ bits w 8 8 = b ∧ bits w 0 8 = a := by
  constructor
  · rintro rfl
    exact ⟨fmtAB_op .., fmtAB_reserved .., fmtAB_b .., fmtAB_a ..⟩
  · rintro ⟨hop, hres, hb, ha⟩
    refine Agree.eq (ranges := [(24, 8), (16, 8), (8, 8), (0, 8)]) ?_ (by decide)
    simp [Agree, fmtAB_op, fmtAB_reserved, fmtAB_b, fmtAB_a, hop, hres, hb, ha]

theorem fmtBP_eq_iff {w : Word} {op : Byte} {count : BitVec 5} {value : BitVec 16} :
    fmtBP op count value = w ↔ bits w 24 8 = op ∧ bits w 21 3 = 0#3 ∧ bits w 16 5 = count ∧
      bits w 0 16 = value := by
  constructor
  · rintro rfl
    exact ⟨fmtBP_op .., fmtBP_reserved .., fmtBP_count .., fmtBP_value ..⟩
  · rintro ⟨hop, hres, hcount, hvalue⟩
    refine Agree.eq (ranges := [(24, 8), (21, 3), (16, 5), (0, 16)]) ?_ (by decide)
    simp [Agree, fmtBP_op, fmtBP_reserved, fmtBP_count, fmtBP_value, hop, hres, hcount, hvalue]

theorem fmtV_eq_iff {w : Word} {op : Byte} {v mask : BitVec 4} {test : Bool} :
    fmtV op v test mask = w ↔ bits w 24 8 = op ∧ bits w 12 12 = 0#12 ∧ bits w 8 4 = v ∧
      bits w 5 3 = 0#3 ∧ bits w 4 1 = BitVec.ofBool test ∧ bits w 0 4 = mask := by
  constructor
  · rintro rfl
    exact ⟨fmtV_op .., fmtV_reserved .., fmtV_v .., fmtV_reserved2 .., fmtV_test .., fmtV_mask ..⟩
  · rintro ⟨hop, hres, hv, hres2, htest, hmask⟩
    refine Agree.eq (ranges := [(24, 8), (12, 12), (8, 4), (5, 3), (4, 1), (0, 4)]) ?_ (by decide)
    simp [Agree, fmtV_op, fmtV_reserved, fmtV_v, fmtV_reserved2, fmtV_test, fmtV_mask, hop, hres, hv,
      hres2, htest, hmask]

theorem fmtX16_eq_iff {w : Word} {op : Byte} {idx : BitVec 16} :
    fmtX16 op idx = w ↔ bits w 24 8 = op ∧ bits w 16 8 = 0#8 ∧ bits w 0 16 = idx := by
  constructor
  · rintro rfl
    exact ⟨fmtX16_op .., fmtX16_reserved .., fmtX16_idx ..⟩
  · rintro ⟨hop, hres, hidx⟩
    refine Agree.eq (ranges := [(24, 8), (16, 8), (0, 16)]) ?_ (by decide)
    simp [Agree, fmtX16_op, fmtX16_reserved, fmtX16_idx, hop, hres, hidx]

theorem fmtRC_eq_iff {w : Word} {op col row : Byte} {mask : BitVec 4} :
    fmtRC op mask col row = w ↔ bits w 24 8 = op ∧ bits w 20 4 = 0#4 ∧ bits w 16 4 = mask ∧
      bits w 8 8 = col ∧ bits w 0 8 = row := by
  constructor
  · rintro rfl
    exact ⟨fmtRC_op .., fmtRC_reserved .., fmtRC_mask .., fmtRC_col .., fmtRC_row ..⟩
  · rintro ⟨hop, hres, hmask, hcol, hrow⟩
    refine Agree.eq (ranges := [(24, 8), (20, 4), (16, 4), (8, 8), (0, 8)]) ?_ (by decide)
    simp [Agree, fmtRC_op, fmtRC_reserved, fmtRC_mask, fmtRC_col, fmtRC_row, hop, hres, hmask, hcol,
      hrow]

theorem bits_eq_append_iff {w : Word} {lo a b : Nat} {x : BitVec a} {y : BitVec b} :
    bits w lo (a + b) = x ++ y ↔ bits w (lo + b) a = x ∧ bits w lo b = y := by
  have happ : bits w (lo + b) a ++ bits w lo b = bits w lo (a + b) :=
    BitVec.extractLsb'_append_extractLsb'_eq_extractLsb' rfl
  rw [← happ]
  constructor
  · intro h
    exact ⟨by simpa only [BitVec.extractLsb'_append_eq_left] using congrArg (·.extractLsb' b a) h,
      by simpa only [BitVec.extractLsb'_append_eq_right] using congrArg (·.extractLsb' 0 b) h⟩
  · rintro ⟨rfl, rfl⟩
    rfl

/-- The one-bit `a` of `BS.PUTB` in its byte (R63). -/
theorem bits_eq_flag_iff {w : Word} {x : BitVec 1} :
    bits w 0 8 = 0#7 ++ x ↔ bits w 1 7 = 0#7 ∧ bits w 0 1 = x :=
  bits_eq_append_iff (a := 7) (b := 1)

/-- The three-bit `a` of `MX.RDP` in its byte (R63). -/
theorem bits_eq_scoreIndex_iff {w : Word} {x : BitVec 3} :
    bits w 0 8 = 0#5 ++ x ↔ bits w 3 5 = 0#5 ∧ bits w 0 3 = x :=
  bits_eq_append_iff (a := 5) (b := 3)

theorem ofBool_beq_one (x : BitVec 1) : BitVec.ofBool (x == 1#1) = x := by
  revert x
  decide

theorem ofBool_beq (b : Bool) : (BitVec.ofBool b == 1#1) = b := by cases b <;> rfl

/-! ### Decoding an encoding (R60 to R70) -/

theorem ifZero_eq_ok_iff {w : Word} {reserved : List (Nat × Nat)} {i j : Instr} :
    ifZero w reserved i = .ok j ↔ (∀ r ∈ reserved, bits w r.1 r.2 = 0#r.2) ∧ i = j := by
  unfold ifZero
  split <;> simp_all

theorem opcode_eq_of_toNat {w : Word} {n : Nat} (h : (bits w 24 8).toNat = n) :
    bits w 24 8 = BitVec.ofNat 8 n := by rw [← h, BitVec.ofNat_toNat, BitVec.setWidth_eq]

theorem decode_eq_ok_iff {w : Word} {i : Instr} :
    decode w = .ok i ↔ decodeFields w = .ok i ∧ i.wf = true := by
  unfold decode
  cases decodeFields w with
  | error e => simp
  | ok j =>
    cases hdef : j.defect with
    | none =>
      have hwf : j.wf = true := by rw [Instr.wf, hdef]; rfl
      simp only [hdef, Except.ok.injEq]
      exact ⟨fun h => ⟨h, h ▸ hwf⟩, And.left⟩
    | some e =>
      have hwf : j.wf = false := by rw [Instr.wf, hdef]; rfl
      simp only [hdef, Except.ok.injEq, reduceCtorEq, false_iff, not_and, Bool.not_eq_true]
      exact fun h => h ▸ hwf

/-- The decoder's table reads every instruction back from its word: the fields by the format's equations,
and each reserved range from the parts of the format that this command leaves 0. -/
theorem decodeFields_encode (i : Instr) : decodeFields (encode i) = .ok i := by
  generalize hw : encode i = w
  cases i with
  | nop | srst | bsClr | bsLen | plClr | plSeg | cwLen | mxFind | mxAlgn | mxTime | mxVinf | mxScore
  | mxN | encRun =>
    obtain ⟨hop, hz⟩ := fmtZ_eq_iff.mp hw
    simp [decodeFields, ifZero, hop, hz]
  | gfExp n =>
    obtain ⟨hop, hn⟩ := fmtI24_eq_iff.mp hw
    simp [decodeFields, ifZero, hop, hn]
  | gfLog | plPush =>
    obtain ⟨hop, hres, hb, ha⟩ := fmtAB_eq_iff.mp hw
    have hz : bits w 8 16 = 0#16 :=
      bits_eq_zero_of_covers (ranges := [(8, 8), (16, 8)]) (by simp [hb, hres]) (by decide)
    simp [decodeFields, ifZero, hop, hz, ha]
  | gfMul =>
    obtain ⟨hop, hres, hb, ha⟩ := fmtAB_eq_iff.mp hw
    simp [decodeFields, ifZero, hop, hres, hb, ha]
  | bsPutb a =>
    obtain ⟨hop, hres, hb, ha⟩ := fmtAB_eq_iff.mp hw
    obtain ⟨hhigh, hflag⟩ := bits_eq_flag_iff.mp ha
    have hz : bits w 1 23 = 0#23 :=
      bits_eq_zero_of_covers (ranges := [(1, 7), (8, 8), (16, 8)]) (by simp [hhigh, hb, hres])
        (by decide)
    simp [decodeFields, ifZero, hop, hz, hflag, ofBool_beq]
  | mxRdp a =>
    obtain ⟨hop, hres, hb, ha⟩ := fmtAB_eq_iff.mp hw
    obtain ⟨hhigh, hidx⟩ := bits_eq_scoreIndex_iff.mp ha
    have hz : bits w 3 21 = 0#21 :=
      bits_eq_zero_of_covers (ranges := [(3, 5), (8, 8), (16, 8)]) (by simp [hhigh, hb, hres])
        (by decide)
    simp [decodeFields, ifZero, hop, hz, hidx]
  | pClr =>
    obtain ⟨hop, hres, hk, hres2, hps2, hps1, hpd⟩ := fmtP_eq_iff.mp hw
    have hz : bits w 2 22 = 0#22 :=
      bits_eq_zero_of_covers (ranges := [(2, 2), (4, 2), (6, 2), (8, 8), (16, 8)])
        (by simp [hps1, hps2, hres2, hk, hres]) (by decide)
    simp [decodeFields, ifZero, pregAt, hop, hz, hpd]
  | pPush | pGen =>
    obtain ⟨hop, hres, hk, hres2, hps2, hps1, hpd⟩ := fmtP_eq_iff.mp hw
    have hz : bits w 2 6 = 0#6 :=
      bits_eq_zero_of_covers (ranges := [(2, 2), (4, 2), (6, 2)]) (by simp [hps1, hps2, hres2])
        (by decide)
    simp [decodeFields, ifZero, pregAt, hop, hres, hz, hk, hpd]
  | pMk | pGet =>
    obtain ⟨hop, hres, hk, hres2, hps2, hps1, hpd⟩ := fmtP_eq_iff.mp hw
    have hz : bits w 4 4 = 0#4 :=
      bits_eq_zero_of_covers (ranges := [(4, 2), (6, 2)]) (by simp [hps2, hres2]) (by decide)
    simp [decodeFields, ifZero, pregAt, hop, hres, hz, hk, hps1, hpd]
  | pMul | pMod =>
    obtain ⟨hop, hres, hk, hres2, hps2, hps1, hpd⟩ := fmtP_eq_iff.mp hw
    have hz : bits w 6 18 = 0#18 :=
      bits_eq_zero_of_covers (ranges := [(6, 2), (8, 8), (16, 8)]) (by simp [hres2, hk, hres])
        (by decide)
    simp [decodeFields, ifZero, pregAt, hop, hz, hps2, hps1, hpd]
  | pLen =>
    obtain ⟨hop, hres, hk, hres2, hps2, hps1, hpd⟩ := fmtP_eq_iff.mp hw
    have hz : bits w 4 20 = 0#20 :=
      bits_eq_zero_of_covers (ranges := [(4, 2), (6, 2), (8, 8), (16, 8)])
        (by simp [hps2, hres2, hk, hres]) (by decide)
    simp [decodeFields, ifZero, pregAt, hop, hz, hps1, hpd]
  | bsPut =>
    obtain ⟨hop, hres, hcount, hvalue⟩ := fmtBP_eq_iff.mp hw
    simp [decodeFields, ifZero, hop, hres, hcount, hvalue]
  | bsRdb | cwRd =>
    obtain ⟨hop, hres, hidx⟩ := fmtX16_eq_iff.mp hw
    simp [decodeFields, ifZero, hop, hres, hidx]
  | ecAsm | ecEnc | ecCap | mxInit | encBest =>
    obtain ⟨hop, hres, hv, hres2, htest, hmask⟩ := fmtV_eq_iff.mp hw
    have hz : bits w 0 8 = 0#8 :=
      bits_eq_zero_of_covers (ranges := [(0, 4), (4, 1), (5, 3)]) (by simp [hmask, htest, hres2])
        (by decide)
    simp [decodeFields, ifZero, hop, hres, hz, hv]
  | mxFmt =>
    obtain ⟨hop, hres, hv, hres2, htest, hmask⟩ := fmtV_eq_iff.mp hw
    have hz : bits w 5 19 = 0#19 :=
      bits_eq_zero_of_covers (ranges := [(5, 3), (8, 4), (12, 12)]) (by simp [hres2, hv, hres])
        (by decide)
    simp [decodeFields, ifZero, hop, hz, htest, ofBool_beq, hmask]
  | mxData | encRdt =>
    obtain ⟨hop, hres, hv, hres2, htest, hmask⟩ := fmtV_eq_iff.mp hw
    have hz : bits w 4 20 = 0#20 :=
      bits_eq_zero_of_covers (ranges := [(4, 1), (5, 3), (8, 4), (12, 12)])
        (by simp [htest, hres2, hv, hres]) (by decide)
    simp [decodeFields, ifZero, hop, hz, hmask]
  | mxBuild =>
    obtain ⟨hop, hres, hv, hres2, htest, hmask⟩ := fmtV_eq_iff.mp hw
    simp [decodeFields, ifZero, hop, hres, hres2, hv, htest, ofBool_beq, hmask]
  | mxGet =>
    obtain ⟨hop, hres, hmask, hcol, hrow⟩ := fmtRC_eq_iff.mp hw
    have hz : bits w 16 8 = 0#8 :=
      bits_eq_zero_of_covers (ranges := [(16, 4), (20, 4)]) (by simp [hmask, hres]) (by decide)
    simp [decodeFields, ifZero, hop, hz, hcol, hrow]
  | mkEval =>
    obtain ⟨hop, hres, hmask, hcol, hrow⟩ := fmtRC_eq_iff.mp hw
    simp [decodeFields, ifZero, hop, hres, hmask, hcol, hrow]

/-! ### The row of a word and the inversion of the decoder (R70, R71) -/

/-- The row of an opcode, if it has one (R70). -/
def rowOf (op : Byte) : Option OpcodeRow := opcodeRows.find? fun r => bits r.pattern 24 8 == op

/-- No two rows have one opcode. -/
theorem rowOf_opcode : ∀ r ∈ opcodeRows, rowOf (bits r.pattern 24 8) = some r := by decide

/-- Every mask holds the whole opcode byte (R60). -/
theorem mask_opcode : ∀ r ∈ opcodeRows, bits r.mask 24 8 = BitVec.allOnes 8 := by decide

theorem rowOf_eq_some_iff {op : Byte} {r : OpcodeRow} :
    rowOf op = some r ↔ r ∈ opcodeRows ∧ bits r.pattern 24 8 = op := by
  constructor
  · intro h
    exact ⟨List.mem_of_find?_eq_some h, by simpa using List.find?_some h⟩
  · rintro ⟨hr, rfl⟩
    exact rowOf_opcode r hr

/-- The column "op" of R70. -/
theorem row_opcodes : opcodeRows.map (fun r => (bits r.pattern 24 8).toNat) =
    [0x00, 0x01, 0x10, 0x11, 0x12, 0x20, 0x21, 0x22, 0x23, 0x24, 0x25, 0x26, 0x27, 0x30, 0x31, 0x32,
      0x33, 0x34, 0x40, 0x41, 0x42, 0x50, 0x51, 0x52, 0x53, 0x54, 0x60, 0x61, 0x62, 0x63, 0x64, 0x65,
      0x66, 0x67, 0x68, 0x69, 0x6A, 0x6B, 0x6C, 0x70, 0x71, 0x72] := by decide

/-- Where the decoder and the row `r` of R70 meet on the word `w`: the decoder reads `i` from it and checks
the `reserved` ranges. -/
structure OpcodeRow.Reads (r : OpcodeRow) (w : Word) (reserved : List (Nat × Nat)) (i : Instr) :
    Prop where
  shape : w &&& r.mask = r.pattern ↔ ∀ f ∈ reserved, bits w f.1 f.2 = 0#f.2
  extra : i.wf = r.extra.holds w
  opcode : i.opcode = bits w 24 8
  word : (∀ f ∈ reserved, bits w f.1 f.2 = 0#f.2) → encode i = w

/-- With its opcode right, a word has a row's shape exactly when the bits that the row reserves are 0. -/
theorem shape_iff {w mask pattern : Word} {op : Byte} {reserved : List (Nat × Nat)}
    (hop : bits w 24 8 = op)
    (hmask : ∀ j < 32, mask.getLsbD j = covers ((24, 8) :: reserved) j)
    (hpat : pattern &&& mask = pattern ∧ bits pattern 24 8 = op ∧
      ∀ f ∈ reserved, bits pattern f.1 f.2 = 0#f.2) :
    w &&& mask = pattern ↔ ∀ f ∈ reserved, bits w f.1 f.2 = 0#f.2 := by
  obtain ⟨hsub, hpop, hzero⟩ := hpat
  rw [and_eq_iff_agree hmask hsub, Agree, List.forall_mem_cons]
  simp only [hop, hpop, true_and]
  exact forall₂_congr fun f hf => by rw [hzero f hf]

/-- All that the decoder's table can do: the opcode has no row, or the row's reserved bits are checked and
its fields read. -/
theorem decodeFields_cases (w : Word) :
    (rowOf (bits w 24 8) = none ∧ decodeFields w = .error .unassignedOpcode) ∨
    ∃ r reserved i, rowOf (bits w 24 8) = some r ∧ decodeFields w = ifZero w reserved i ∧
      r.Reads w reserved i := by
  unfold decodeFields
  split
  case h_43 =>
    refine .inl ⟨Option.eq_none_iff_forall_ne_some.mpr fun r hr => ?_, rfl⟩
    obtain ⟨hmem, hop⟩ := rowOf_eq_some_iff.mp hr
    have hnum := List.mem_map_of_mem (f := fun r => (bits r.pattern 24 8).toNat) hmem
    rw [row_opcodes, hop] at hnum
    simp_all
  all_goals
    rename (bits w 24 8).toNat = _ => hop
    replace hop := opcode_eq_of_toNat hop
    refine .inr ⟨_, _, _, by rw [hop]; rfl, rfl, ?_⟩
    refine ⟨shape_iff hop (by decide) (by decide), ?_, hop.symm, fun hz => ?_⟩
    · simp [Instr.wf, Instr.defect, Extra.holds, apply_ite]
    · -- the word has the fields of its format: read from it, or 0 because reserved
      simp (disch := decide) [encode, fmtZ_eq_iff, fmtI24_eq_iff, fmtAB_eq_iff, fmtP_eq_iff, fmtBP_eq_iff,
        fmtV_eq_iff, fmtX16_eq_iff, fmtRC_eq_iff, hop, toBits_pregAt, bits_eq_zero_of_covers hz,
        bits_eq_flag_iff, bits_eq_scoreIndex_iff, ofBool_beq_one]

theorem decode_eq_ok_iff_of_reads {w : Word} {r : OpcodeRow} {reserved : List (Nat × Nat)} {i : Instr}
    (hd : decodeFields w = ifZero w reserved i) (hr : r.Reads w reserved i) (j : Instr) :
    decode w = .ok j ↔ r.takes w = true ∧ i = j := by
  rw [decode_eq_ok_iff, hd, ifZero_eq_ok_iff, ← hr.shape, OpcodeRow.takes, Bool.and_eq_true, beq_iff_eq,
    ← hr.extra]
  constructor
  · rintro ⟨⟨hshape, rfl⟩, hwf⟩
    exact ⟨⟨hshape, hwf⟩, rfl⟩
  · rintro ⟨⟨hshape, hwf⟩, rfl⟩
    exact ⟨⟨hshape, rfl⟩, hwf⟩

theorem takes_opcode {r : OpcodeRow} {w : Word} (hr : r ∈ opcodeRows) (ht : r.takes w = true) :
    bits r.pattern 24 8 = bits w 24 8 := by
  rw [OpcodeRow.takes, Bool.and_eq_true, beq_iff_eq] at ht
  rw [← ht.1, bits, BitVec.extractLsb'_and]
  exact (congrArg (bits w 24 8 &&& ·) (mask_opcode r hr)).trans BitVec.and_allOnes

theorem rowOf_of_takes {r : OpcodeRow} {w : Word} (hr : r ∈ opcodeRows) (ht : r.takes w = true) :
    rowOf (bits w 24 8) = some r := rowOf_eq_some_iff.mpr ⟨hr, takes_opcode hr ht⟩

/-- A word is a command exactly when some row takes it (R71). -/
theorem decode_isOk_iff_takes (w : Word) :
    (∃ i, decode w = .ok i) ↔ ∃ r ∈ opcodeRows, r.takes w = true := by
  rcases decodeFields_cases w with ⟨hnone, hd⟩ | ⟨r, reserved, i, hrow, hd, hreads⟩
  · refine iff_of_false (fun ⟨i, hi⟩ => ?_) (fun ⟨r, hr, ht⟩ => ?_)
    · exact nomatch hd.symm.trans (decode_eq_ok_iff.mp hi).1
    · exact nomatch hnone.symm.trans (rowOf_of_takes hr ht)
  · simp only [decode_eq_ok_iff_of_reads hd hreads]
    constructor
    · rintro ⟨_, ht, -⟩
      exact ⟨r, (rowOf_eq_some_iff.mp hrow).1, ht⟩
    · rintro ⟨r', hr', ht'⟩
      have hsame : r = r' := Option.some_inj.mp (hrow.symm.trans (rowOf_of_takes hr' ht'))
      exact ⟨i, hsame ▸ ht', rfl⟩

theorem decode_error_iff_not_takes (w : Word) :
    (∃ e, decode w = .error e) ↔ ∀ r ∈ opcodeRows, r.takes w = false := by
  have hok := decode_isOk_iff_takes w
  cases hd : decode w with
  | error e =>
    refine iff_of_true ⟨e, rfl⟩ fun r hr => Bool.eq_false_iff.mpr fun ht => ?_
    obtain ⟨i, hi⟩ := hok.mpr ⟨r, hr, ht⟩
    exact nomatch hd.symm.trans hi
  | ok i =>
    obtain ⟨r, hr, ht⟩ := hok.mp ⟨i, hd⟩
    exact iff_of_false nofun fun h => Bool.false_ne_true ((h r hr).symm.trans ht)

theorem decodeFields_eq_ok_iff {w : Word} {i : Instr} : decodeFields w = .ok i ↔ encode i = w := by
  refine ⟨fun h => ?_, fun h => h ▸ decodeFields_encode i⟩
  rcases decodeFields_cases w with ⟨-, hd⟩ | ⟨r, reserved, j, -, hd, hreads⟩
  · exact nomatch hd.symm.trans h
  · obtain ⟨hz, rfl⟩ := ifZero_eq_ok_iff.mp (hd.symm.trans h)
    exact hreads.word hz

/-- A word decodes to an instruction exactly when it is the encoding of that well-formed instruction. -/
theorem decode_eq_ok_iff_encode {w : Word} {i : Instr} :
    decode w = .ok i ↔ encode i = w ∧ i.wf = true := by
  rw [decode_eq_ok_iff, decodeFields_eq_ok_iff]

theorem decode_encode {i : Instr} (h : i.wf = true) : decode (encode i) = .ok i :=
  decode_eq_ok_iff_encode.mpr ⟨rfl, h⟩

/-- The top byte of a word that decodes (R60). -/
theorem opcode_of_decode {w : Word} {i : Instr} (h : decode w = .ok i) : i.opcode = bits w 24 8 := by
  have hfields := (decode_eq_ok_iff.mp h).1
  rcases decodeFields_cases w with ⟨-, hd⟩ | ⟨r, reserved, j, -, hd, hreads⟩
  · exact nomatch hd.symm.trans hfields
  · obtain ⟨-, rfl⟩ := ifZero_eq_ok_iff.mp (hd.symm.trans hfields)
    exact hreads.opcode

/-! ### Illegal words (R71) -/

theorem decode_error_of_no_row {w : Word}
    (h : ∀ r ∈ opcodeRows, bits r.pattern 24 8 ≠ bits w 24 8) : ∃ e, decode w = .error e :=
  (decode_error_iff_not_takes w).mpr fun r hr =>
    Bool.eq_false_iff.mpr fun ht => h r hr (takes_opcode hr ht)

/-- A word is illegal when the row of its opcode does not take it. -/
theorem decode_error_of_row {w : Word} {r : OpcodeRow} (hr : r ∈ opcodeRows)
    (hop : bits r.pattern 24 8 = bits w 24 8) (h : r.takes w = false) : ∃ e, decode w = .error e := by
  refine (decode_error_iff_not_takes w).mpr fun r' hr' => Bool.eq_false_iff.mpr fun ht' => ?_
  have hsame : r = r' :=
    Option.some_inj.mp ((rowOf_eq_some_iff.mpr ⟨hr, hop⟩).symm.trans (rowOf_of_takes hr' ht'))
  exact Bool.false_ne_true (h.symm.trans (hsame ▸ ht'))

theorem decode_error_of_reserved {w : Word} {r : OpcodeRow} (hr : r ∈ opcodeRows)
    (hop : bits r.pattern 24 8 = bits w 24 8) (h : w &&& r.mask ≠ r.pattern) :
    ∃ e, decode w = .error e :=
  decode_error_of_row hr hop (by simp [OpcodeRow.takes, h])

/-- A word whose field breaks the constraint `x` is illegal, if its opcode has rows with that constraint
only. -/
theorem decode_error_of_extra {w : Word} {x : Extra} (h : x.holds w = false)
    (hx : ∀ r ∈ opcodeRows, bits r.pattern 24 8 = bits w 24 8 → r.extra = x) :
    ∃ e, decode w = .error e := by
  refine (decode_error_iff_not_takes w).mpr fun r hr => ?_
  by_cases hop : bits r.pattern 24 8 = bits w 24 8
  · simp [OpcodeRow.takes, hx r hr hop, h]
  · exact Bool.eq_false_iff.mpr fun ht => hop (takes_opcode hr ht)

theorem extra_of_bsPut : ∀ r ∈ opcodeRows, bits r.pattern 24 8 = 0x31#8 → r.extra = .count := by
  decide

theorem extra_of_version : ∀ op ∈ [0x50#8, 0x51#8, 0x54#8, 0x60#8, 0x67#8, 0x70#8],
    ∀ r ∈ opcodeRows, bits r.pattern 24 8 = op → r.extra = .version := by decide

theorem extra_of_mxRdp : ∀ r ∈ opcodeRows, bits r.pattern 24 8 = 0x6C#8 → r.extra = .scoreIndex := by
  decide

theorem wf_mxBuild {v : BitVec 4} (h : versionOk v = true) (test : Bool) (mask : BitVec 4) :
    (Instr.mxBuild v test mask).wf = true := by
  rw [Instr.wf, Instr.defect, if_pos h]
  rfl

theorem versionOk_eq_false {v : BitVec 4} (h : v = 0#4 ∨ 11 ≤ v.toNat) : versionOk v = false := by
  rw [versionOk, decide_eq_false_iff_not]
  rcases h with rfl | h
  · decide
  · simp only [Config.verMax]
    omega

/-- Settles O1: the word of an instruction has the fields of its format, and they are what the decoder's
arm of its opcode reads. -/
theorem decodeOfEncodeIsTheInstruction : Obligations.DecodeOfEncodeIsTheInstruction := by
  unfold Obligations.DecodeOfEncodeIsTheInstruction
  exact fun _ => decode_encode

/-- Settles O2: each bit of a word that decodes is opcode, field or reserved 0. -/
theorem encodeOfDecodedIsTheWord : Obligations.EncodeOfDecodedIsTheWord := by
  unfold Obligations.EncodeOfDecodedIsTheWord
  intro w i h
  obtain ⟨hword, hwf⟩ := decode_eq_ok_iff_encode.mp h
  exact ⟨hwf, hword, opcode_of_decode h⟩

/-- Settles O4: each printed word is the encoding of the well-formed command printed beside it. -/
theorem printedWordsDecodeToTheirCommands : Obligations.PrintedWordsDecodeToTheirCommands := by
  unfold Obligations.PrintedWordsDecodeToTheirCommands
  simp only [decode_eq_ok_iff_encode]
  decide

end Sys2Proof

namespace Sys2Proof.Machine

/-! ### The command procedure (R75) -/

theorem issue_of_fault {s : State} (h : s.err ≠ none) (w : Word) :
    issue w s = if w = 0x01000000#32 then exec .srst s else .next s :=
  if_pos (Option.isSome_iff_ne_none.mpr h)

theorem issue_of_decode {w : Word} {i : Instr} {s : State} (h : s.err = none) (hd : decode w = .ok i) :
    issue w s = exec i s := by
  simp [issue, inFault, h, hd]

theorem issue_of_not_takes {w : Word} {s : State} (h : s.err = none)
    (ht : ∀ r ∈ opcodeRows, r.takes w = false) :
    issue w s = .next (faultEntry .invalidCommand w s) := by
  obtain ⟨e, hd⟩ := (decode_error_iff_not_takes w).mpr ht
  simp [issue, inFault, h, hd]

theorem issue_of_takes {w : Word} {s : State} (h : s.err = none)
    (ht : ∃ r ∈ opcodeRows, r.takes w = true) : ∃ i, decode w = .ok i ∧ issue w s = exec i s := by
  obtain ⟨i, hd⟩ := (decode_isOk_iff_takes w).mpr ht
  exact ⟨i, hd, issue_of_decode h hd⟩

theorem step_cmdWrite (w : Word) (rest : List Access) (s : State) :
    step { s with inbox := cmdWrite w :: rest } = issue w { s with inbox := rest } := rfl

theorem withFetchWord_toNat (w : Word) (s : State) :
    s.withFetchWord 32 w.toNat = { s with inbox := cmdWrite w :: s.inbox } := by
  rw [State.withFetchWord, Nat.mod_eq_of_lt w.isLt, BitVec.ofNat_toNat, BitVec.setWidth_eq]

/-- Settles O3: the decoder accepts exactly what a row takes, the rows have distinct opcodes, and each
illegal class fails the shape or the constraint of the one row of its opcode. -/
theorem wordIsACommandExactlyWhenARowTakesIt :
    Obligations.WordIsACommandExactlyWhenARowTakesIt := by
  unfold Obligations.WordIsACommandExactlyWhenARowTakesIt
  refine ⟨decode_isOk_iff_takes, fun w s => issue_of_not_takes, by decide +kernel,
    fun w => decode_error_of_no_row, fun w r => decode_error_of_reserved, ?_, ?_, ?_, ?_⟩
  · intro w hop hcount
    refine decode_error_of_extra (x := .count) ?_ (hop ▸ extra_of_bsPut)
    exact decide_eq_false (Nat.not_le.mpr hcount)
  · intro w hop hv
    exact decode_error_of_extra (x := .version) (versionOk_eq_false hv) (extra_of_version _ hop)
  · intro w hop ha
    refine decode_error_of_extra (x := .scoreIndex) ?_ (hop ▸ extra_of_mxRdp)
    exact decide_eq_false (Nat.not_le.mpr ha)
  · intro test v mask row col hv i hi
    refine decode_encode ?_
    simp only [List.mem_cons, List.not_mem_nil, or_false] at hi
    rcases hi with rfl | rfl | rfl | rfl | rfl | rfl
    exacts [rfl, rfl, wf_mxBuild hv test mask, rfl, rfl, rfl]

/-- Settles O5: the access is a write to `CMD`, which issues the word. -/
theorem stepRunsTheDecodedCommand : Obligations.StepRunsTheDecodedCommand := by
  unfold Obligations.StepRunsTheDecodedCommand
  intro w i s hd herr
  have hstep : ∀ rest, step { s with inbox := cmdWrite w :: rest } = exec i { s with inbox := rest } :=
    fun rest => (step_cmdWrite w rest s).trans (issue_of_decode herr hd)
  exact ⟨hstep, (congrArg step (withFetchWord_toNat w s)).trans (hstep s.inbox)⟩

/-! ### The checks of the commands in their order (R189) -/

theorem exec_of_ver_zero {s : State} (h : s.ver = 0#4) (test : Bool) (mask : BitVec 4) :
    ∀ i ∈ [Instr.mxFind, .mxAlgn, .mxTime, .mxFmt test mask, .mxVinf, .mxData mask, .mxScore],
      exec i s = .next (faultEntry .invalidSequence (encode i) s) := by
  simp only [List.forall_mem_cons, List.not_mem_nil, false_imp_iff, implies_true, and_true]
  exact ⟨if_pos h, if_pos h, if_pos h, if_pos h, if_pos h, if_pos h, if_pos h⟩

theorem exec_mxFmt_of_mask {s : State} {mask : BitVec 4} (hver : s.ver ≠ 0#4) (hmask : 8 ≤ mask.toNat)
    (test : Bool) :
    exec (.mxFmt test mask) s =
      .next (faultEntry .invalidMaskPattern (encode (.mxFmt test mask)) s) := by
  rw [exec, execMxFmt, if_neg hver, maskIndex_of_le hmask]
  rfl

theorem exec_mxData_of_mask {s : State} {mask : BitVec 4} (hver : s.ver ≠ 0#4) (hmask : 8 ≤ mask.toNat) :
    exec (.mxData mask) s = .next (faultEntry .invalidMaskPattern (encode (.mxData mask)) s) := by
  rw [exec, execMxData, if_neg hver, maskIndex_of_le hmask]
  rfl

theorem exec_plPush_of_no_item {s : State} (h : s.itemCnt = 0) (a : Byte) :
    exec (.plPush a) s = .next (faultEntry .invalidSequence (encode (.plPush a)) s) := if_pos h

theorem exec_plPush_of_full {s : State} (hitem : s.itemCnt ≠ 0) (hlen : s.plLen = 256) (a : Byte) :
    exec (.plPush a) s = .next (faultEntry .capacityExceeded (encode (.plPush a)) s) :=
  (if_neg hitem).trans (if_pos hlen)

/-- `MX.SCORE` raises the same kind for both of its checks, so their order does not show. -/
theorem exec_mxScore_of_unset {s : State} (h : hasUnset s.mx = true) :
    exec .mxScore s = .next (faultEntry .invalidSequence (encode .mxScore) s) := by
  by_cases hver : s.ver = 0#4
  · exact if_pos hver
  · exact (if_neg hver).trans (if_pos h)

/-- Settles O6: the procedure is `issue`; each command's first failing check answers. -/
theorem commandProcedureAndOrderOfChecks : Obligations.CommandProcedureAndOrderOfChecks := by
  unfold Obligations.CommandProcedureAndOrderOfChecks
  refine ⟨fun w s h => issue_of_fault h w, fun w s => issue_of_not_takes, fun w s => issue_of_takes,
    fun test mask s h => exec_of_ver_zero h test mask, fun test mask s hver hmask => ?_,
    fun a s h => exec_plPush_of_no_item h a, fun a s hitem hlen => exec_plPush_of_full hitem hlen a,
    fun s => exec_mxScore_of_unset⟩
  simp only [List.forall_mem_cons, List.not_mem_nil, false_imp_iff, implies_true, and_true]
  exact ⟨exec_mxFmt_of_mask hver hmask test, exec_mxData_of_mask hver hmask⟩

end Sys2Proof.Machine

namespace Sys2Proof.Machine

/-! ### Doubling (40_galois_field.md R80) -/

@[simp] theorem double_zero : double 0#8 = 0#8 := rfl

/-- Doubling shifts, and the reduction by 0x11D is taken exactly when bit 7 is set, so it is linear. -/
theorem double_xor (a b : Byte) : double (a ^^^ b) = double a ^^^ double b := by
  have hmsb : (a ^^^ b).msb = (a.msb ^^ b.msb) := BitVec.msb_xor
  have hshift : (a ^^^ b) <<< 1 = (a <<< 1) ^^^ (b <<< 1) := BitVec.shiftLeft_xor_distrib a b 1
  simp only [double, hmsb, hshift]
  cases a.msb <;> cases b.msb
  · rfl
  · exact BitVec.xor_assoc ..
  · show _ = a <<< 1 ^^^ 0x1D#8 ^^^ b <<< 1
    ac_rfl
  · show a <<< 1 ^^^ b <<< 1 = a <<< 1 ^^^ 0x1D#8 ^^^ (b <<< 1 ^^^ 0x1D#8)
    rw [BitVec.xor_comm (b <<< 1) 0x1D#8, BitVec.xor_assoc, ← BitVec.xor_assoc 0x1D#8,
      BitVec.xor_self, BitVec.zero_xor]

theorem iterate_double_xor (n : Nat) (a b : Byte) :
    double^[n] (a ^^^ b) = double^[n] a ^^^ double^[n] b := by
  induction n with
  | zero => rfl
  | succ n ih => simp only [Function.iterate_succ_apply', ih, double_xor]

/-! ### `EXP` as a sequence, `LOG` as its inverse (R80, R81) -/

/-- Each entry of the printed table is the entry before it, doubled. -/
theorem expAt_succ : ∀ i < 255, expAt (i + 1) = double (expAt i) := by decide +kernel

theorem expAt_eq_iterate {i : Nat} (h : i ≤ 255) : expAt i = double^[i] 1#8 := by
  induction i with
  | zero => rfl
  | succ i ih => rw [expAt_succ i h, ih (by omega), Function.iterate_succ_apply']

/-- The first eight powers of 2 need no reduction. -/
theorem expAt_of_lt_eight : ∀ i < 8, expAt i = 1#8 <<< i := by decide

/-- The recurrence holds at 8, and doubling both sides carries it on. -/
theorem expAt_recurrence {i : Nat} (h : i ≤ 247) :
    expAt (i + 8) = expAt (i + 4) ^^^ expAt (i + 3) ^^^ expAt (i + 2) ^^^ expAt i := by
  induction i with
  | zero => rfl
  | succ i ih =>
    have hsucc : ∀ k ≤ 8, expAt (i + 1 + k) = double (expAt (i + k)) := fun k hk => by
      rw [Nat.add_right_comm, expAt_succ (i + k) (by omega)]
    rw [expAt_succ i (by omega), hsucc 2 (by omega), hsucc 3 (by omega), hsucc 4 (by omega),
      hsucc 8 (by omega), ih (by omega)]
    simp only [double_xor]

theorem expAt_ne_zero : ∀ i < 256, expAt i ≠ 0#8 := fun i hi => by
  rcases Nat.lt_succ_iff_lt_or_eq.mp hi with h | rfl
  · exact (logAt_expAt ⟨i, h⟩).1
  · decide

theorem expAt_nodup : ((List.range 255).map expAt).Nodup := by
  refine List.Nodup.map_on (fun i hi j hj h => ?_) List.nodup_range
  calc i = logAt (expAt i).toNat := (logAt_expAt ⟨i, List.mem_range.mp hi⟩).2.symm
    _ = logAt (expAt j).toNat := by rw [h]
    _ = j := (logAt_expAt ⟨j, List.mem_range.mp hj⟩).2

/-- The entries of `LOG` are read at 1 to 255: `expAt_logAt` for such an index. -/
theorem expAt_logAt_nat {a : Nat} (h0 : a ≠ 0) (h : a < 256) :
    logAt a < 255 ∧ expAt (logAt a) = BitVec.ofNat 8 a := by
  have htoNat : (BitVec.ofNat 8 a).toNat = a := Nat.mod_eq_of_lt h
  have hne : BitVec.ofNat 8 a ≠ 0#8 := fun e => h0 (by simpa [e] using htoNat.symm)
  simpa only [htoNat] using expAt_logAt (BitVec.ofNat 8 a) hne

theorem logAt_nodup : ((List.range 255).map fun a => logAt (a + 1)).Nodup := by
  have hinv : ∀ i ∈ List.range 255, (expAt (logAt (i + 1))).toNat = i + 1 := fun i hi => by
    have hlt : i + 1 < 256 := Nat.succ_lt_succ (List.mem_range.mp hi)
    rw [(expAt_logAt_nat i.succ_ne_zero hlt).2]
    exact Nat.mod_eq_of_lt hlt
  refine List.Nodup.map_on (fun i hi j hj h => Nat.succ_injective ?_) List.nodup_range
  calc i + 1 = (expAt (logAt (i + 1))).toNat := (hinv i hi).symm
    _ = (expAt (logAt (j + 1))).toNat := by rw [h]
    _ = j + 1 := hinv j hj

/-- Settles O22: `EXP` is the sequence of doublings, which the recurrence follows; the two tables are
inverse to each other, so neither repeats an entry. -/
theorem tablesFollowTheRecurrence : Obligations.TablesFollowTheRecurrence := by
  unfold Obligations.TablesFollowTheRecurrence
  refine ⟨expAt_of_lt_eight, fun i hi h8 => ?_, expAt_nodup, expAt_ne_zero, rfl, expAt_succ,
    fun i hi => (logAt_expAt ⟨i, hi⟩).2, rfl, logAt_nodup,
    fun a ha h1 => (expAt_logAt_nat (Nat.ne_of_gt h1) ha).1⟩
  obtain ⟨k, rfl⟩ := Nat.exists_eq_add_of_le' h8
  exact expAt_recurrence (by omega)

/-! ### The product as repeated doubling (R84, R89) -/

/-- Also where the exponent wraps around: `EXP[255]` is `EXP[0]`. -/
theorem gexp_add_one (n : Int) : gexp (n + 1) = double (gexp n) := by
  have hlt : (n % 255).toNat < 255 := by omega
  rw [gexp, gexp, ← expAt_succ _ hlt]
  rcases Nat.lt_succ_iff_lt_or_eq.mp hlt with h | h
  · exact congrArg expAt (by omega)
  · have hwrap : ((n + 1) % 255).toNat = 0 := by omega
    rw [h, hwrap]
    rfl

theorem exists_gexp {a : Byte} (h : a ≠ 0#8) : ∃ n, a = gexp n := ⟨_, (gexp_logAt h).symm⟩

theorem gmul_gexp (m n : Int) : gmul (gexp m) (gexp n) = gexp (m + n) := by
  rw [gmul, glog_gexp, glog_gexp]
  rw [← gexp_emod (m + n)]
  exact congrArg gexp (by omega)

theorem gmul_double (a b : Byte) : gmul a (double b) = double (gmul a b) := by
  by_cases ha : a = 0#8
  · simp [ha]
  by_cases hb : b = 0#8
  · simp [hb]
  obtain ⟨m, rfl⟩ := exists_gexp ha
  obtain ⟨n, rfl⟩ := exists_gexp hb
  rw [← gexp_add_one, gmul_gexp, gmul_gexp, ← gexp_add_one, Int.add_assoc]

theorem gmul_iterate_double (n : Nat) (a b : Byte) :
    gmul a (double^[n] b) = double^[n] (gmul a b) := by
  induction n with
  | zero => rfl
  | succ n ih => rw [Function.iterate_succ_apply', Function.iterate_succ_apply', gmul_double, ih]

/-- Multiplying by `a` is doubling as many times as the logarithm of `a` says. -/
theorem gmul_eq_iterate {a : Byte} (h : a ≠ 0#8) (b : Byte) :
    gmul a b = double^[logAt a.toNat] b := by
  obtain ⟨hlt, ha⟩ := expAt_logAt a h
  rw [expAt_eq_iterate hlt.le] at ha
  calc gmul a b
      = gmul b (double^[logAt a.toNat] 1#8) := by rw [ha, gmul_comm]
    _ = double^[logAt a.toNat] b := by rw [gmul_iterate_double, gmul_one]

/-- Repeated doubling is linear, and so the product is. -/
theorem gmul_xor (a b c : Byte) : gmul a (b ^^^ c) = gmul a b ^^^ gmul a c := by
  by_cases ha : a = 0#8
  · simp [ha]
  · simp only [gmul_eq_iterate ha, iterate_double_xor]

theorem gmul_assoc (a b c : Byte) : gmul (gmul a b) c = gmul a (gmul b c) := by
  by_cases ha : a = 0#8
  · simp [ha]
  by_cases hb : b = 0#8
  · simp [hb]
  by_cases hc : c = 0#8
  · simp [hc]
  obtain ⟨m, rfl⟩ := exists_gexp ha
  obtain ⟨n, rfl⟩ := exists_gexp hb
  obtain ⟨k, rfl⟩ := exists_gexp hc
  simp only [gmul_gexp, Int.add_assoc]

/-- The exponents of an element and its inverse add up to 255, the order of 2. -/
theorem gmul_inverse {a : Byte} (h : a ≠ 0#8) : gmul a (gexp (255 - logAt a.toNat)) = 1#8 := by
  calc gmul a (gexp (255 - logAt a.toNat))
      = gmul (gexp (logAt a.toNat)) (gexp (255 - logAt a.toNat)) := by rw [gexp_logAt h]
    _ = gexp 255 := by rw [gmul_gexp, add_sub_cancel]
    _ = 1#8 := rfl

theorem gmul_eq_expAt {a b : Byte} (ha : a ≠ 0#8) (hb : b ≠ 0#8) :
    gmul a b = expAt ((logAt a.toNat + logAt b.toNat) % 255) := by
  rw [gmul_of_ne ha hb]
  exact congrArg expAt (by omega)

/-- Settles O26: nonzero elements are powers of 2, whose exponents add; the product is linear because it
is repeated doubling. -/
theorem fieldProductLaws : Obligations.FieldProductLaws := by
  unfold Obligations.FieldProductLaws
  exact ⟨fun a => ⟨gmul_zero_right a, gmul_zero_left a, gmul_one a⟩,
    fun a b ha hb => ⟨gmul_eq_expAt ha hb, gmul_ne_zero ha hb⟩, gmul_comm, gmul_assoc,
    fun a => gmul_inverse, gmul_xor⟩

/-! ### Shift-and-add (R89) -/

theorem xorSum_map_gmul (a : Byte) (l : List Byte) : xorSum (l.map (gmul a)) = gmul a (xorSum l) := by
  have hfold : ∀ acc, (l.map (gmul a)).foldl (· ^^^ ·) (gmul a acc) =
      gmul a (l.foldl (· ^^^ ·) acc) := by
    induction l with
    | nil => exact fun acc => rfl
    | cons x l ih =>
      intro acc
      rw [List.map_cons, List.foldl_cons, List.foldl_cons, ← gmul_xor, ih]
  simpa [xorSum] using hfold 0#8

/-- A byte is the sum of its bits, each at its place a power of 2. -/
theorem shiftAdd_one (b : Byte) : shiftAdd 1#8 b = b := by
  revert b
  decide +kernel

/-- Shift-and-add multiplies `a` with each bit of `b` and adds up; the product is linear in `b`. -/
theorem shiftAdd_eq_gmul (a b : Byte) : shiftAdd a b = gmul a b := by
  have hrow : ∀ i, (if b.getLsbD i then double^[i] a else 0#8) =
      gmul a (if b.getLsbD i then double^[i] 1#8 else 0#8) := fun i => by
    rw [apply_ite (gmul a), gmul_iterate_double, gmul_one, gmul_zero_right]
  calc shiftAdd a b
      = gmul a (shiftAdd 1#8 b) := by
        simp only [shiftAdd, hrow, ← xorSum_map_gmul, List.map_map, Function.comp_def]
    _ = gmul a b := by rw [shiftAdd_one]

/-! ### The three commands (R86 to R88) -/

theorem exec_gfExp (n : BitVec 24) (s : State) :
    exec (.gfExp n) s = .next (setRes (zextByte (gexp n.toInt)) s) := rfl

theorem exec_gfMul (a b : Byte) (s : State) :
    exec (.gfMul a b) s = .next (setRes (zextByte (gmul a b)) s) := rfl

theorem exec_gfLog_of_ne {a : Byte} (h : a ≠ 0#8) (s : State) :
    exec (.gfLog a) s = .next (setRes (wordOf (logAt a.toNat)) s) := by
  rw [exec, execGfLog, glog_of_ne h]

theorem zextByte_ne_zero {b : Byte} (h : b ≠ 0#8) : zextByte b ≠ 0#32 := fun e =>
  h (by simpa [zextByte] using congrArg (BitVec.setWidth 8) e)

/-- Settles O23: `RES` is `gexp` of the signed operand, a doubling of 1 by `expAt_eq_iterate`. -/
theorem gfExpReturnsThePower : Obligations.GfExpReturnsThePower := by
  unfold Obligations.GfExpReturnsThePower
  intro n s
  have hle : (n.toInt % 255).toNat ≤ 255 := by omega
  exact ⟨_, exec_gfExp n s, rfl, congrArg zextByte (expAt_eq_iterate hle),
    zextByte_ne_zero (gexp_ne_zero n.toInt), onlyChanges_setRes _ s⟩

/-- Settles O24: a nonzero operand has its logarithm in the table, and 0 has none. -/
theorem gfLogReturnsTheExponent : Obligations.GfLogReturnsTheExponent := by
  unfold Obligations.GfLogReturnsTheExponent
  refine ⟨fun a s ha => ⟨_, exec_gfLog_of_ne ha s, ?_⟩, fun s => rfl⟩
  obtain ⟨hlt, hexp⟩ := expAt_logAt a ha
  have hres : (setRes (wordOf (logAt a.toNat)) s).res.toNat = logAt a.toNat :=
    Nat.mod_eq_of_lt (by omega)
  rw [hres]
  exact ⟨rfl, hlt, hexp, onlyChanges_setRes _ s⟩

/-- Settles O25: `RES` is the product of the tables, which shift-and-add computes. -/
theorem gfMulReturnsTheFieldProduct : Obligations.GfMulReturnsTheFieldProduct := by
  unfold Obligations.GfMulReturnsTheFieldProduct
  intro a b s
  exact ⟨_, exec_gfMul a b s, rfl, congrArg zextByte (shiftAdd_eq_gmul a b).symm,
    onlyChanges_setRes _ s⟩

end Sys2Proof.Machine

namespace Sys2Proof.Machine

/-! ### Stripping and shifting (41_polynomial.md R90, R91) -/

theorem mkpoly_replicate_append (z : Nat) (c : Poly) (k : Nat) :
    mkpoly (List.replicate z 0#8 ++ c) k = mkpoly c k := by
  induction z with
  | zero => rfl
  | succ z ih => rw [List.replicate_succ, List.cons_append, mkpoly_cons_zero, ih]

theorem mkpoly_of_canonical {c : Poly} (h : canonical c) (k : Nat) :
    mkpoly c k = c ++ List.replicate k 0#8 := by
  cases c with
  | nil => rfl
  | cons x c => exact mkpoly_of_head_ne h c k

/-- A zero leading coefficient is left only by a list of zeros, of which the appended ones remain. -/
theorem mkpoly_length_eq_or_headD_ne (c : Poly) (k : Nat) :
    (mkpoly c k).length = k ∨ (mkpoly c k).headD 0#8 ≠ 0#8 := by
  induction c with
  | nil => exact .inl List.length_replicate
  | cons x c ih =>
    by_cases hx : x = 0#8
    · rwa [hx, mkpoly_cons_zero]
    · rw [mkpoly_of_head_ne hx]
      exact .inr hx

theorem canonical_of_headD_ne {p : Poly} (h : p.headD 0#8 ≠ 0#8) : canonical p := by
  cases p with
  | nil => exact absurd rfl h
  | cons x p => exact h

theorem headD_ne_zero_of_canonical {p : Poly} (h : canonical p) (hp : p ≠ []) :
    p.headD 0#8 ≠ 0#8 := by
  cases p with
  | nil => exact absurd rfl hp
  | cons x p => exact h

/-! ### Scaled copies and field sums, entry by entry (R92, R93) -/

/-- A copy of `d` scaled by `x`, with `n` zeros behind it: a row of the convolution of R92, and what a
step of R93 subtracts. -/
def scaled (x : Byte) (d : Poly) (n : Nat) : Poly := d.map (gmul x) ++ List.replicate n 0#8

@[simp] theorem scaled_length (x : Byte) (d : Poly) (n : Nat) :
    (scaled x d n).length = d.length + n := by simp [scaled]

theorem scaled_zero (d : Poly) (n : Nat) : scaled 0#8 d n = List.replicate (d.length + n) 0#8 := by
  have hmap : d.map (gmul 0#8) = List.replicate d.length 0#8 :=
    List.map_eq_replicate_iff.mpr fun c _ => gmul_zero_left c
  rw [scaled, hmap, List.replicate_append_replicate]

theorem scaled_getD (x : Byte) (d : Poly) (n i : Nat) :
    (scaled x d n).getD i 0#8 = gmul x (d.getD i 0#8) := by
  have hmap : (d.map (gmul x)).getD i 0#8 = gmul x (d.getD i 0#8) := by
    simpa only [gmul_zero_right] using List.getD_map d 0#8 (n := i) (gmul x)
  rcases Nat.lt_or_ge i (d.map (gmul x)).length with h | h
  · rw [scaled, List.getD_append _ _ _ _ h, hmap]
  · rw [scaled, List.getD_append_right _ _ _ _ h, List.getD_eq_getElem?_getD,
      List.getElem?_getD_replicate_default_eq, ← hmap, List.getD_eq_default _ _ h]

theorem xorList_getD {a b : List Byte} (h : a.length = b.length) (i : Nat) :
    (xorList a b).getD i 0#8 = a.getD i 0#8 ^^^ b.getD i 0#8 := by
  rcases Nat.lt_or_ge i a.length with ha | ha <;>
    simp [xorList, List.getD_eq_getElem?_getD, ha, h ▸ ha]

theorem eq_map_range_getD {l : List Byte} {n : Nat} {f : Nat → Byte} (hn : l.length = n)
    (h : ∀ i, l.getD i 0#8 = f i) : l = (List.range n).map f := by
  refine List.ext_getElem (by simpa using hn) fun i hi _ => ?_
  rw [List.getElem_map, List.getElem_range, ← h, List.getD_eq_getElem _ _ hi]

/-- The field sum with the same list twice is the other list. -/
theorem xorList_xorList_cancel {a b : List Byte} (h : a.length = b.length) :
    xorList (xorList a b) a = b := by
  have hlen : (xorList a b).length = a.length := by simp [h]
  refine (eq_map_range_getD (by simp [h]) fun i => ?_).trans (eq_map_range_getD rfl fun i => rfl).symm
  rw [xorList_getD hlen, xorList_getD h, BitVec.xor_comm, ← BitVec.xor_assoc, BitVec.xor_self,
    BitVec.zero_xor]

theorem xorList_replicate_zero (b : List Byte) :
    xorList (List.replicate b.length 0#8) b = b := by
  induction b with
  | nil => rfl
  | cons x b ih => simpa [xorList, List.replicate_succ] using ih

/-! ### The convolution (R92) -/

theorem conv_cons_eq (x : Byte) (a b : Poly) :
    conv (x :: a) b = xorList (scaled x b a.length) (0#8 :: conv a b) := rfl

theorem scaled_length_eq_conv {b : Poly} (hb : b ≠ []) (x : Byte) (a : Poly) :
    (scaled x b a.length).length = (0#8 :: conv a b).length := by
  have hpos := List.length_pos_iff.mpr hb
  rw [scaled_length, List.length_cons, conv_length hb]
  omega

theorem xorSum_cons (x : Byte) (l : List Byte) : xorSum (x :: l) = x ^^^ xorSum l := by
  show l.foldl (· ^^^ ·) (0#8 ^^^ x) = x ^^^ l.foldl (· ^^^ ·) 0#8
  rw [BitVec.xor_comm, List.foldl_assoc]

theorem xorSum_replicate_zero (n : Nat) : xorSum (List.replicate n 0#8) = 0#8 := by
  induction n with
  | zero => rfl
  | succ n ih => rw [List.replicate_succ, xorSum_cons, ih, BitVec.xor_self]

theorem headD_conv_cons {b : Poly} (hb : b ≠ []) (x : Byte) (a : Poly) :
    (conv (x :: a) b).headD 0#8 = gmul x (b.headD 0#8) := by
  cases b with
  | nil => exact absurd rfl hb
  | cons y b =>
    obtain ⟨l, hl⟩ := conv_cons x y a b
    rw [hl, List.headD_cons, List.headD_cons]

/-- The products whose places add up to `k`: the pair of the first coefficient of `a` comes first. -/
theorem xorSum_pairs_cons (x : Byte) (a b : Poly) (k : Nat) :
    xorSum ((List.range (k + 1)).map fun i => gmul ((x :: a).getD i 0#8) (b.getD (k - i) 0#8)) =
      gmul x (b.getD k 0#8) ^^^
        xorSum ((List.range k).map fun i => gmul (a.getD i 0#8) (b.getD (k - 1 - i) 0#8)) := by
  rw [List.range_succ_eq_map, List.map_cons, xorSum_cons, List.map_map]
  simp [Function.comp_def, Nat.sub_sub, Nat.add_comm]

/-- Each entry of the convolution is the field sum of the products of matching pairs. -/
theorem conv_getD {b : Poly} (hb : b ≠ []) (a : Poly) (k : Nat) :
    (conv a b).getD k 0#8 =
      xorSum ((List.range (k + 1)).map fun i => gmul (a.getD i 0#8) (b.getD (k - i) 0#8)) := by
  induction a generalizing k with
  | nil =>
    rw [conv, List.getD_eq_getElem?_getD, List.getElem?_getD_replicate_default_eq]
    simp [List.map_const', xorSum_replicate_zero]
  | cons x a ih =>
    rw [conv_cons_eq, xorList_getD (scaled_length_eq_conv hb x a), scaled_getD, xorSum_pairs_cons]
    cases k with
    | zero => rfl
    | succ k => rw [List.getD_cons_succ, ih k, Nat.add_sub_cancel]

theorem pmul_nil_left (b : Poly) : pmul [] b = [] := if_pos (.inl rfl)

/-- For an empty first factor too, whose array of zeros is stripped to nothing. -/
theorem pmul_eq {b : Poly} (hb : b ≠ []) (a : Poly) : pmul a b = mkpoly (conv a b) 0 := by
  cases a with
  | nil =>
    have hstrip := mkpoly_replicate_append (b.length - 1) [] 0
    rw [List.append_nil] at hstrip
    rw [pmul_nil_left, conv, hstrip]
    rfl
  | cons x a => exact if_neg (not_or.mpr ⟨List.cons_ne_nil x a, hb⟩)

/-- A leading zero of the first factor adds only a leading zero to the convolution. -/
theorem pmul_cons_zero {b : Poly} (hb : b ≠ []) (a : Poly) : pmul (0#8 :: a) b = pmul a b := by
  have hconv : conv (0#8 :: a) b = 0#8 :: conv a b := by
    rw [conv_cons_eq, scaled_zero, ← scaled_length 0#8, scaled_length_eq_conv hb,
      xorList_replicate_zero]
  rw [pmul_eq hb, hconv, mkpoly_cons_zero, pmul_eq hb]

/-! ### The long division (R93) -/

theorem pmod_nil (a : Poly) : pmod a [] = none := rfl

theorem pmod_of_length_lt {a d : Poly} (h : a.length < d.length) : pmod a d = some a := by
  have hd : d ≠ [] := List.ne_nil_of_length_pos (Nat.zero_lt_of_lt h)
  rw [pmod, if_neg hd, pmodLoop, if_pos h]

theorem pmod_of_pmodStep_none {a d : Poly} (hd : d ≠ []) (h : d.length ≤ a.length)
    (hs : pmodStep a d = none) : pmod a d = none := by
  rw [pmod, if_neg hd, pmodLoop, if_neg (Nat.not_lt.mpr h), hs]

/-- A step of the division shortens the dividend, so the rest of the loop has fuel enough. -/
theorem pmod_of_pmodStep_some {a d t : Poly} (hd : d ≠ []) (h : d.length ≤ a.length)
    (hs : pmodStep a d = some t) : pmod a d = pmod t d := by
  rw [pmod, if_neg hd, pmodLoop, if_neg (Nat.not_lt.mpr h), hs, pmod, if_neg hd]
  exact pmodLoop_fuel d hd t.length t _ _ (le_refl _) (pmodStep_length_lt hs) (Nat.lt_succ_self _)

/-- The factor by which a step of R93 scales the divisor. -/
def leadRatio (a d : Poly) : Byte := gexp (logAt (a.headD 0#8).toNat - logAt (d.headD 0#8).toNat)

theorem pmodStep_of_ne {a d : Poly} (ha : a.headD 0#8 ≠ 0#8) (hd : d.headD 0#8 ≠ 0#8) :
    pmodStep a d = some (mkpoly (xorList a (scaled (leadRatio a d) d (a.length - d.length))) 0) := by
  simp only [pmodStep, glog_of_ne ha, glog_of_ne hd, gmul_comm _ (gexp _)]
  rfl

theorem pmodStep_eq_none {a d : Poly} (h : a.headD 0#8 = 0#8 ∨ d.headD 0#8 = 0#8) :
    pmodStep a d = none := by
  rw [Option.eq_none_iff_forall_ne_some]
  intro t ht
  obtain ⟨ha, hd⟩ := pmodStep_some ht
  exact h.elim ha hd

theorem pmod_of_head_zero {a d : Poly} (hd : d ≠ []) (h : d.length ≤ a.length)
    (h0 : a.headD 0#8 = 0#8 ∨ d.headD 0#8 = 0#8) : pmod a d = none :=
  pmod_of_pmodStep_none hd h (pmodStep_eq_none h0)

theorem pmod_of_head_ne {a d : Poly} (h : d.length ≤ a.length) (ha : a.headD 0#8 ≠ 0#8)
    (hd : d.headD 0#8 ≠ 0#8) :
    pmod a d = pmod (mkpoly (xorList a (scaled (leadRatio a d) d (a.length - d.length))) 0) d :=
  pmod_of_pmodStep_some (fun e => hd (e ▸ rfl)) h (pmodStep_of_ne ha hd)

/-- What a step leaves, entry by entry. -/
theorem xorList_scaled_eq_map {a d : Poly} (h : d.length ≤ a.length) (x : Byte) :
    xorList a (scaled x d (a.length - d.length)) =
      (List.range a.length).map fun i => a.getD i 0#8 ^^^ gmul (d.getD i 0#8) x := by
  have hlen : a.length = (scaled x d (a.length - d.length)).length := by
    rw [scaled_length, Nat.add_sub_cancel' h]
  refine eq_map_range_getD (by rw [xorList_length, ← hlen, min_self]) fun i => ?_
  rw [xorList_getD hlen, scaled_getD, gmul_comm]

/-- The division answers when no step of it starts on a zero leading coefficient: each step leaves a
canonical dividend, so only the first could. -/
theorem exists_pmod {a d : Poly} (hd : d ≠ [])
    (h : a.length < d.length ∨ (a.headD 0#8 ≠ 0#8 ∧ d.headD 0#8 ≠ 0#8)) :
    ∃ r, pmod a d = some r := by
  rcases Nat.lt_or_ge a.length d.length with hlt | hle
  · exact ⟨a, pmod_of_length_lt hlt⟩
  obtain ⟨ha, hd0⟩ := h.resolve_left (Nat.not_lt.mpr hle)
  have hs := pmodStep_of_ne ha hd0
  rw [pmod_of_pmodStep_some hd hle hs]
  refine exists_pmod hd ?_
  rcases pmodStep_canonical hs with hnil | hhead
  · exact .inl (hnil ▸ List.length_pos_iff.mpr hd)
  · exact .inr ⟨hhead, hd0⟩
termination_by a.length
decreasing_by exact pmodStep_length_lt hs

/-! ### Multiples of the divisor (R104) -/

/-- The ratio of a product to one factor is the other: multiplying by the inverse of `y` undoes the
product by `y`. -/
theorem gexp_log_gmul_sub {x y : Byte} (hx : x ≠ 0#8) (hy : y ≠ 0#8) :
    gexp (logAt (gmul x y).toNat - logAt y.toNat) = x := by
  have hcancel : ∀ z, gmul (gmul z y) (gexp (255 - logAt y.toNat)) = z := fun z => by
    rw [gmul_assoc, gmul_inverse hy, gmul_one]
  have hratio := gmul_ratio (gmul_ne_zero hx hy) hy
  rw [gmul_comm] at hratio
  rw [← hcancel (gexp _), hratio, hcancel]

/-- The first step of the division of a product takes the leading coefficient of the other factor
away. -/
theorem pmod_pmul_cons {x : Byte} {q : Poly} (hx : x ≠ 0#8) (hq : q.headD 0#8 ≠ 0#8) (a : Poly) :
    pmod (pmul (x :: a) q) q = pmod (pmul a q) q := by
  have hne : q ≠ [] := fun e => hq (e ▸ rfl)
  have hlen : (conv (x :: a) q).length = a.length + q.length := by
    rw [conv_length hne, List.length_cons]
    omega
  have hle : q.length ≤ (conv (x :: a) q).length := hlen ▸ Nat.le_add_left ..
  have hhead : (conv (x :: a) q).headD 0#8 = gmul x (q.headD 0#8) := headD_conv_cons hne x a
  have hhead0 : (conv (x :: a) q).headD 0#8 ≠ 0#8 := hhead ▸ gmul_ne_zero hx hq
  have hratio : leadRatio (conv (x :: a) q) q = x := by
    rw [leadRatio, hhead, gexp_log_gmul_sub hx hq]
  have hpmul : pmul (x :: a) q = conv (x :: a) q := by
    rw [pmul_eq hne, mkpoly_of_canonical (canonical_of_headD_ne hhead0), List.replicate_zero,
      List.append_nil]
  rw [hpmul, pmod_of_head_ne hle hhead0 hq, hratio, hlen, Nat.add_sub_cancel,
    conv_cons_eq, xorList_xorList_cancel (scaled_length_eq_conv hne x a), mkpoly_cons_zero, pmul_eq hne]

/-- A multiple of a divisor with a nonzero leading coefficient leaves nothing, whatever zeros the other
factor has. -/
theorem pmod_pmul_self {q : Poly} (hq : q.headD 0#8 ≠ 0#8) (p : Poly) :
    pmod (pmul p q) q = some [] := by
  have hne : q ≠ [] := fun e => hq (e ▸ rfl)
  induction p with
  | nil => exact pmod_of_length_lt (List.length_pos_iff.mpr hne)
  | cons x p ih =>
    by_cases hx : x = 0#8
    · rw [hx, pmul_cons_zero hne, ih]
    · rw [pmod_pmul_cons hx hq, ih]

/-! ### The generator and its values (R94) -/

theorem pgen_headD (ec : Nat) : (pgen ec).headD 0#8 = 1#8 := by
  obtain ⟨l, hl, -⟩ := pgen_cons ec
  rw [hl, List.headD_cons]

theorem pgen_ne_nil (ec : Nat) : pgen ec ≠ [] :=
  List.ne_nil_of_length_eq_add_one (pgen_length ec)

theorem evalAt_singleton (c x : Byte) : evalAt [c] x = c := by
  rw [evalAt, List.foldl_cons, gmul_zero_left, BitVec.zero_xor, List.foldl_nil]

theorem evalAt_concat (p : Poly) (c x : Byte) : evalAt (p ++ [c]) x = gmul (evalAt p x) x ^^^ c := by
  rw [evalAt, List.foldl_append]
  rfl

theorem iterate_gmul_xor (x : Byte) (n : Nat) (a b : Byte) :
    (gmul x)^[n] (a ^^^ b) = (gmul x)^[n] a ^^^ (gmul x)^[n] b := by
  induction n with
  | zero => rfl
  | succ n ih => simp only [Function.iterate_succ_apply', ih, gmul_xor]

theorem gmul_iterate_gmul (a x : Byte) (n : Nat) (b : Byte) :
    gmul a ((gmul x)^[n] b) = (gmul x)^[n] (gmul a b) := by
  have hcomm : Function.Commute (gmul a) (gmul x) := fun c => by
    rw [← gmul_assoc, gmul_comm a x, gmul_assoc]
  exact hcomm.iterate_right n b

theorem evalAt_append_replicate (p : Poly) (n : Nat) (x : Byte) :
    evalAt (p ++ List.replicate n 0#8) x = (gmul x)^[n] (evalAt p x) := by
  induction n with
  | zero => exact congrArg (evalAt · x) (List.append_nil p)
  | succ n ih =>
    rw [List.replicate_succ', ← List.append_assoc, evalAt_concat, ih, BitVec.xor_zero, gmul_comm,
      Function.iterate_succ_apply']

/-- The leading coefficient is multiplied by the point once for each coefficient behind it. -/
theorem evalAt_cons (c : Byte) (p : Poly) (x : Byte) :
    evalAt (c :: p) x = (gmul x)^[p.length] c ^^^ evalAt p x := by
  induction p using List.reverseRecOn with
  | nil => exact (evalAt_singleton c x).trans BitVec.xor_zero.symm
  | append_singleton p e ih =>
    rw [← List.cons_append, evalAt_concat, evalAt_concat, ih, List.length_append, List.length_singleton,
      Function.iterate_succ_apply', gmul_comm _ x, gmul_comm _ x, gmul_xor, BitVec.xor_assoc]

theorem evalAt_map_gmul (a : Byte) (p : Poly) (x : Byte) :
    evalAt (p.map (gmul a)) x = gmul a (evalAt p x) := by
  induction p using List.reverseRecOn with
  | nil => exact (gmul_zero_right a).symm
  | append_singleton p e ih =>
    rw [List.map_append, List.map_singleton, evalAt_concat, evalAt_concat, ih, gmul_xor, gmul_assoc]

theorem evalAt_scaled (a : Byte) (p : Poly) (n : Nat) (x : Byte) :
    evalAt (scaled a p n) x = gmul ((gmul x)^[n] a) (evalAt p x) := by
  rw [scaled, evalAt_append_replicate, evalAt_map_gmul, gmul_comm a, gmul_comm _ (evalAt p x),
    gmul_iterate_gmul]

theorem evalAt_xorList {a b : Poly} (h : a.length = b.length) (x : Byte) :
    evalAt (xorList a b) x = evalAt a x ^^^ evalAt b x := by
  induction a generalizing b with
  | nil =>
    rw [List.length_eq_zero_iff.mp h.symm]
    exact BitVec.xor_self.symm
  | cons c a ih =>
    cases b with
    | nil => cases h
    | cons d b =>
      have hlen : a.length = b.length := Nat.succ.inj h
      have htail : (xorList a b).length = b.length := by rw [xorList_length, hlen, min_self]
      show evalAt ((c ^^^ d) :: xorList a b) x = _
      rw [evalAt_cons, evalAt_cons, evalAt_cons, ih hlen, htail, hlen, iterate_gmul_xor]
      ac_rfl

theorem evalAt_cons_zero (p : Poly) (x : Byte) : evalAt (0#8 :: p) x = evalAt p x := by
  rw [evalAt, List.foldl_cons, gmul_zero_left, BitVec.xor_self, evalAt]

theorem evalAt_mkpoly (c : Poly) (x : Byte) : evalAt (mkpoly c 0) x = evalAt c x := by
  induction c with
  | nil => rfl
  | cons e c ih =>
    by_cases he : e = 0#8
    · rw [he, mkpoly_cons_zero, ih, evalAt_cons_zero]
    · rw [mkpoly_of_head_ne he, List.replicate_zero, List.append_nil]

/-- The value of a product is the product of the values. -/
theorem evalAt_pmul {b : Poly} (hb : b ≠ []) (a : Poly) (x : Byte) :
    evalAt (pmul a b) x = gmul (evalAt a x) (evalAt b x) := by
  induction a with
  | nil => exact (gmul_zero_left _).symm
  | cons c a ih =>
    rw [pmul_eq hb, evalAt_mkpoly] at ih ⊢
    calc evalAt (conv (c :: a) b) x
        = gmul ((gmul x)^[a.length] c) (evalAt b x) ^^^ gmul (evalAt a x) (evalAt b x) := by
          rw [conv_cons_eq, evalAt_xorList (scaled_length_eq_conv hb c a), evalAt_scaled,
            evalAt_cons_zero, ih]
      _ = gmul (evalAt (c :: a) x) (evalAt b x) := by
          rw [evalAt_cons, gmul_comm _ (evalAt b x), gmul_comm _ (evalAt b x), ← gmul_xor, gmul_comm]

theorem evalAt_factor (r x : Byte) : evalAt [1#8, r] x = x ^^^ r := by
  have happ := evalAt_concat [1#8] r x
  rwa [evalAt_singleton, gmul_comm, gmul_one] at happ

/-- The generator has the root of each of its factors. -/
theorem evalAt_pgen {n i : Nat} (h : i < n) : evalAt (pgen n) (gexp i) = 0#8 := by
  induction n with
  | zero => exact absurd h (Nat.not_lt_zero i)
  | succ n ih =>
    rw [pgen, evalAt_pmul (List.cons_ne_nil _ _), evalAt_factor]
    rcases Nat.lt_succ_iff_lt_or_eq.mp h with hlt | rfl
    · rw [ih hlt, gmul_zero_left]
    · rw [BitVec.xor_self, gmul_zero_right]

/-! ### The commands (R95 to R102) -/

section Commands

variable {pd ps1 ps2 : PReg} {k : Byte} {s : State}

/-- A command that writes one polynomial register writes that value and changes nothing else. -/
theorem exists_next_setPoly {i : Instr} {p : Poly} (h : exec i s = .next (setPoly pd p s)) :
    ∃ t, exec i s = .next t ∧ polyOf pd t = p ∧ OnlyChanges [.poly pd] s t :=
  ⟨_, h, polyOf_setPoly_self pd p s, onlyChanges_setPoly pd p s⟩

theorem exec_pPush_of_ne (h : (polyOf pd s).length ≠ 256) :
    exec (.pPush pd k) s = .next (setPoly pd (polyOf pd s ++ [k]) s) := if_neg h

theorem exec_pPush_of_full (h : (polyOf pd s).length = 256) :
    exec (.pPush pd k) s = .next (faultEntry .invalidIndex (encode (.pPush pd k)) s) := if_pos h

theorem exec_pMk_of_le (h : (mkpoly (polyOf ps1 s) k.toNat).length ≤ 256) :
    exec (.pMk pd ps1 k) s = .next (setPoly pd (mkpoly (polyOf ps1 s) k.toNat) s) :=
  if_neg (Nat.not_lt.mpr h)

theorem exec_pMk_of_lt (h : 256 < (mkpoly (polyOf ps1 s) k.toNat).length) :
    exec (.pMk pd ps1 k) s = .next (faultEntry .invalidIndex (encode (.pMk pd ps1 k)) s) := if_pos h

theorem exec_pMul_of_nil (h : polyOf ps1 s = [] ∨ polyOf ps2 s = []) :
    exec (.pMul pd ps1 ps2) s = .next (setPoly pd [] s) := by
  have hcheck : ¬((polyOf ps1 s).length > 0 ∧ (polyOf ps2 s).length > 0 ∧
      (polyOf ps1 s).length + (polyOf ps2 s).length - 1 > Config.plenMax) := fun ⟨ha, hb, _⟩ =>
    h.elim (List.ne_nil_of_length_pos ha) (List.ne_nil_of_length_pos hb)
  have hpmul : pmul (polyOf ps1 s) (polyOf ps2 s) = [] := if_pos h
  exact (if_neg hcheck).trans (by rw [hpmul])

theorem exec_pMul_of_le (h : (polyOf ps1 s).length + (polyOf ps2 s).length - 1 ≤ 256) :
    exec (.pMul pd ps1 ps2) s = .next (setPoly pd (pmul (polyOf ps1 s) (polyOf ps2 s)) s) :=
  if_neg fun ⟨_, _, hlen⟩ => Nat.not_lt.mpr h hlen

theorem exec_pMul_of_lt (ha : polyOf ps1 s ≠ []) (hb : polyOf ps2 s ≠ [])
    (h : 256 < (polyOf ps1 s).length + (polyOf ps2 s).length - 1) :
    exec (.pMul pd ps1 ps2) s = .next (faultEntry .invalidIndex (encode (.pMul pd ps1 ps2)) s) :=
  if_pos ⟨List.length_pos_iff.mpr ha, List.length_pos_iff.mpr hb, h⟩

theorem exec_pMod_of_some {r : Poly} (h : pmod (polyOf ps1 s) (polyOf ps2 s) = some r) :
    exec (.pMod pd ps1 ps2) s = .next (setPoly pd r s) := by
  rw [exec, execPMod, h]

theorem exec_pMod_of_none (h : pmod (polyOf ps1 s) (polyOf ps2 s) = none) :
    exec (.pMod pd ps1 ps2) s =
      .next (faultEntry .invalidFieldOperand (encode (.pMod pd ps1 ps2)) s) := by
  rw [exec, execPMod, h]
  rfl

theorem exec_pGet_of_lt (h : k.toNat < (polyOf ps1 s).length) :
    exec (.pGet ps1 k) s = .next (setRes (zextByte (polyOf ps1 s)[k.toNat]) s) := by
  rw [exec, execPGet, List.getElem?_eq_getElem h]

theorem exec_pGet_of_le (h : (polyOf ps1 s).length ≤ k.toNat) :
    exec (.pGet ps1 k) s = .next (faultEntry .invalidIndex (encode (.pGet ps1 k)) s) := by
  rw [exec, execPGet, List.getElem?_eq_none h]
  rfl

end Commands

/-- Settles O27: each command writes one element, and the two checks are on the length. -/
theorem polyRegistersAreFilledAndRead : Obligations.PolyRegistersAreFilledAndRead := by
  unfold Obligations.PolyRegistersAreFilledAndRead
  refine ⟨fun pd s => exists_next_setPoly rfl,
    fun pd k s => ⟨fun h => exists_next_setPoly (exec_pPush_of_ne h), exec_pPush_of_full⟩,
    fun ps1 s => ⟨_, rfl, rfl, fun h => Nat.mod_eq_of_lt ?_, onlyChanges_setRes _ s⟩,
    fun ps1 k s => ⟨fun h => ⟨_, exec_pGet_of_lt h, rfl, onlyChanges_setRes _ s⟩, exec_pGet_of_le⟩⟩
  omega

/-- Settles O28: the constructor strips the `z` zeros and stops at the canonical rest. -/
theorem polyMkStripsThenExtends : Obligations.PolyMkStripsThenExtends := by
  unfold Obligations.PolyMkStripsThenExtends
  intro pd ps1 k s z rest hsrc hrest
  have hmk : mkpoly (polyOf ps1 s) k.toNat = rest ++ List.replicate k.toNat 0#8 := by
    rw [hsrc, mkpoly_replicate_append, mkpoly_of_canonical hrest]
  have hlen : (mkpoly (polyOf ps1 s) k.toNat).length = rest.length + k.toNat := by
    rw [hmk, List.length_append, List.length_replicate]
  refine ⟨hmk, fun hle => ?_, fun hlt => exec_pMk_of_lt (hlen ▸ hlt)⟩
  rw [← hmk]
  exact exists_next_setPoly (exec_pMk_of_le (hlen ▸ hle))

/-- Settles O29: the array of R92 is built row by row; `conv_getD` reads it entry by entry. -/
theorem polyMulWritesTheConvolution : Obligations.PolyMulWritesTheConvolution := by
  unfold Obligations.PolyMulWritesTheConvolution
  intro pd ps1 ps2 s
  refine ⟨fun hnil => exists_next_setPoly (exec_pMul_of_nil hnil),
    fun ha hb => ⟨fun hle => ?_, exec_pMul_of_lt ha hb⟩⟩
  rw [← eq_map_range_getD (conv_length hb _) (conv_getD hb (polyOf ps1 s)), ← pmul_eq hb]
  exact exists_next_setPoly (exec_pMul_of_le hle)

/-- Settles O30: one round of the loop, whose remaining fuel suffices for what the step leaves. -/
theorem longDivisionStepByStep : Obligations.LongDivisionStepByStep := by
  unfold Obligations.LongDivisionStepByStep
  intro a d
  refine ⟨fun hd => hd ▸ pmod_nil a, fun _ hlt => pmod_of_length_lt hlt, fun hd => pmod_of_head_zero hd,
    fun _ hle ha hd => ?_⟩
  rw [pmod_of_head_ne hle ha hd, xorList_scaled_eq_map hle]
  rfl

/-- Settles O31: `exists_pmod` gives the remainder, `pmod_length` its length. -/
theorem polyModWritesTheRemainder : Obligations.PolyModWritesTheRemainder := by
  unfold Obligations.PolyModWritesTheRemainder
  intro pd ps1 ps2 s
  refine ⟨fun hd h => ?_, fun h => exec_pMod_of_none ?_⟩
  · obtain ⟨r, hr⟩ := exists_pmod hd h
    obtain ⟨t, hexec, hpoly, hframe⟩ := exists_next_setPoly (exec_pMod_of_some (pd := pd) hr)
    exact ⟨t, r, hexec, hpoly, hr, (pmod_length hr).1, hframe⟩
  · rcases h with hnil | ⟨hle, hzero⟩
    · rw [hnil, pmod_nil]
    · by_cases hd : polyOf ps2 s = []
      · rw [hd, pmod_nil]
      · exact pmod_of_head_zero hd hle hzero

/-- Settles O32: by induction on the factors, the value of a product being the product of the values. -/
theorem polyGenWritesTheGenerator : Obligations.PolyGenWritesTheGenerator := by
  unfold Obligations.PolyGenWritesTheGenerator
  exact ⟨rfl, fun n => rfl, fun n => ⟨pgen_length n, pgen_headD n, fun i => evalAt_pgen⟩,
    fun pd k s => exists_next_setPoly rfl⟩

/-- Settles O33: each step of the division takes one coefficient of the other factor away; a shifted data
list is canonical or shorter than the generator. -/
theorem multiplesLeaveNoRemainder : Obligations.MultiplesLeaveNoRemainder := by
  unfold Obligations.MultiplesLeaveNoRemainder
  have hgen : ∀ ec, (pgen ec).headD 0#8 ≠ 0#8 := fun ec => pgen_headD ec ▸ by decide
  refine ⟨fun a ec _ => pmod_pmul_self (hgen ec) a,
    fun p q _ hq hne => pmod_pmul_self (headD_ne_zero_of_canonical hq hne) p,
    fun data ec => exists_pmod (pgen_ne_nil ec) ?_⟩
  rcases mkpoly_length_eq_or_headD_ne data ec with hlen | hhead
  · left
    rw [hlen, pgen_length]
    exact Nat.lt_succ_self ec
  · exact .inr ⟨hhead, hgen ec⟩

end Sys2Proof.Machine

namespace Sys2Proof.Machine

/-! ### The bits of a canonical store (10_state.md R24; 42_bitstream.md R105) -/

@[simp] theorem bitsOf_length (b : BitStore) : (bitsOf b).length = b.len := by simp [bitsOf]

/-- A byte that a shift by `m` empties has no 1 from its bit `m` on, counted from the left. -/
theorem getMsbD_of_shiftLeft_eq_zero {x : Byte} {m j : Nat} (h : x <<< m = 0#8) (hj : m ≤ j) :
    x.getMsbD j = false := by
  have hshift : (x <<< m).getMsbD (j - m) = x.getMsbD j := by
    rw [BitVec.getMsbD_shiftLeft, Nat.sub_add_cancel hj]
  rw [← hshift, h, BitVec.getMsbD_zero]

/-- Past the end of the stream a canonical store has only zero bits: the rest of its last byte is
cleared, and no byte follows (R31). -/
theorem bitAt_of_len_le {b : BitStore} (h : b.Ok) {k : Nat} (hk : b.len ≤ k) : bitAt b k = false := by
  have hbuf := h.bufLen
  by_cases hlast : k / 8 < b.buf.length
  · have hbyte : k / 8 = b.len / 8 := by omega
    rw [bitAt, hbyte]
    exact getMsbD_of_shiftLeft_eq_zero (h.tailZero (by omega)) (by omega)
  · rw [bitAt, List.getD_eq_default _ _ (Nat.not_lt.mp hlast), BitVec.getMsbD_zero]

/-- Padding the bit list with zeros is reading the store past the end of the stream. -/
theorem bitsOf_append_replicate_false {b : BitStore} (h : b.Ok) (n : Nat) :
    bitsOf b ++ List.replicate n false = (List.range (b.len + n)).map (bitAt b) := by
  rw [List.range_add, List.map_append, List.map_map, bitsOf, List.append_cancel_left_eq, eq_comm,
    List.eq_replicate_iff]
  refine ⟨by simp, fun x hx => ?_⟩
  obtain ⟨i, -, rfl⟩ := List.mem_map.mp hx
  exact bitAt_of_len_le h (Nat.le_add_right ..)

/-- The eight bits of a byte are read from its left end (20_memory.md R44). -/
theorem natBits_byte (x : Byte) : natBits x.toNat 8 = (List.range 8).map x.getMsbD := by
  refine List.map_congr_left fun j hj => ?_
  rw [BitVec.testBit_toNat, BitVec.getMsbD, decide_eq_true (List.mem_range.mp hj), Bool.true_and]

/-- Byte `i` of a canonical store holds the bits `8 * i` to `8 * i + 7` of the stream, those past the
end 0 (R113). -/
theorem natBits_getD_buf {b : BitStore} (h : b.Ok) {i : Nat} (hi : i < (b.len + 7) / 8) :
    natBits (b.buf.getD i 0#8).toNat 8 =
      ((bitsOf b ++ List.replicate 7 false).drop (8 * i)).take 8 := by
  have hwindow : ((List.range (b.len + 7)).drop (8 * i)).take 8 = (List.range 8).map (8 * i + ·) := by
    rw [List.range_eq_range', List.drop_range', List.take_range'_of_length_ge (by omega),
      List.range_eq_range', List.map_add_range']
    simp
  rw [bitsOf_append_replicate_false h, ← List.map_drop, ← List.map_take, hwindow, natBits_byte,
    List.map_map]
  refine List.map_congr_left fun j hj => ?_
  have hj8 := List.mem_range.mp hj
  have hdiv : (8 * i + j) / 8 = i := by omega
  have hmod : (8 * i + j) % 8 = j := by omega
  rw [Function.comp_apply, bitAt, hdiv, hmod]

/-! ### The commands (42_bitstream.md R109 to R113) -/

section BitStream

variable {s : State} {value : BitVec 16} {count : BitVec 5} {a : Bool} {idx : BitVec 16}

theorem exec_bsPut_of_le (h : s.bs.len + count.toNat ≤ 2048) :
    exec (.bsPut value count) s = .next (setBits (putbits s.bs value.toNat count.toNat) s) :=
  if_neg (Nat.not_lt.mpr h)

theorem exec_bsPut_of_lt (h : 2048 < s.bs.len + count.toNat) :
    exec (.bsPut value count) s =
      .next (faultEntry .invalidIndex (encode (.bsPut value count)) s) := if_pos h

theorem exec_bsPutb_of_le (h : s.bs.len + 1 ≤ 2048) :
    exec (.bsPutb a) s = .next (setBits (putbit s.bs a) s) := if_neg (Nat.not_lt.mpr h)

theorem exec_bsPutb_of_lt (h : 2048 < s.bs.len + 1) :
    exec (.bsPutb a) s = .next (faultEntry .invalidIndex (encode (.bsPutb a)) s) := if_pos h

theorem exec_bsRdb_of_lt (h : idx.toNat < (s.bs.len + 7) / 8) :
    exec (.bsRdb idx) s = .next (setRes (zextByte (s.bs.buf.getD idx.toNat 0#8)) s) :=
  if_neg (Nat.not_le.mpr h)

theorem exec_bsRdb_of_le (h : (s.bs.len + 7) / 8 ≤ idx.toNat) :
    exec (.bsRdb idx) s = .next (faultEntry .invalidIndex (encode (.bsRdb idx)) s) := if_pos h

end BitStream

@[simp] theorem zextByte_toNat (x : Byte) : (zextByte x).toNat = x.toNat :=
  BitVec.toNat_setWidth_of_le (by decide)

/-- Settles O34: `putbits` appends `natBits`, `putbit` its bit, and both keep the canonical form. -/
theorem putAppendsMostSignificantBitFirst : Obligations.PutAppendsMostSignificantBitFirst := by
  unfold Obligations.PutAppendsMostSignificantBitFirst
  exact ⟨fun value count s hok =>
      ⟨fun hle => ⟨_, exec_bsPut_of_le hle, bitsOf_putbits _ _ hok hle, putbits_len ..,
        putbits_ok _ _ hok hle, onlyChanges_setBits _ s⟩, exec_bsPut_of_lt⟩,
    fun a s hok =>
      ⟨fun hle => ⟨_, exec_bsPutb_of_le hle, bitsOf_putbit hok a, putbit_len .., putbit_ok hok a hle,
        onlyChanges_setBits _ s⟩, exec_bsPutb_of_lt⟩⟩

/-- Settles O35: a canonical store's byte is its eight bits of the padded stream; its length fits a
word. -/
theorem bitStoreIsClearedAndRead : Obligations.BitStoreIsClearedAndRead := by
  unfold Obligations.BitStoreIsClearedAndRead
  refine ⟨fun s => ⟨_, rfl, rfl, bitsOf_bitsEmpty, bitsEmpty_ok, onlyChanges_setBits _ s⟩,
    fun s => ⟨_, rfl, rfl, fun hok => ?_, onlyChanges_setRes _ s⟩,
    fun idx s hok => ⟨fun hlt => ⟨_, exec_bsRdb_of_lt hlt, ?_, ?_, onlyChanges_setRes _ s⟩,
      exec_bsRdb_of_le⟩⟩
  · have hmax : s.bs.len ≤ 2048 := hok.lenMax
    exact Nat.mod_eq_of_lt (by omega)
  · rw [setRes_res, zextByte_toNat]
    exact BitVec.isLt _
  · rw [setRes_res, zextByte_toNat]
    exact natBits_getD_buf hok hlt

/-! ### The bit store through every other command (R114) -/

/-- An answer that is a next state has the bit store of `s`. -/
def AnswerKeepsBits (s : State) (r : Result) : Prop := ∀ t, r = .next t → t.bs = s.bs

theorem answerKeepsBits_next {s t : State} (h : t.bs = s.bs) : AnswerKeepsBits s (.next t) :=
  fun _ e => next_inj e ▸ h

theorem answerKeepsBits_raise (k : ErrKind) (i : Instr) (s : State) :
    AnswerKeepsBits s (raise k i s) := answerKeepsBits_next rfl

theorem answerKeepsBits_placed (g : Grid) (s : State) : AnswerKeepsBits s (placed g s) :=
  answerKeepsBits_next rfl

/-- A check that raises may be passed over: fault entry leaves the bit store alone (R184). -/
theorem answerKeepsBits_check {c : Prop} [Decidable c] {k : ErrKind} {i : Instr} {s : State}
    {r : Result} (hr : AnswerKeepsBits s r) : AnswerKeepsBits s (if c then raise k i s else r) := by
  split
  · exact answerKeepsBits_raise k i s
  · exact hr

theorem answerKeepsBits_of_readsOnly {i : Instr} (hi : i.readsOnly = true) (s : State) :
    AnswerKeepsBits s (exec i s) := by
  rcases exec_of_readsOnly hi s with ⟨k, e⟩ | ⟨v, e⟩ <;> rw [e]
  · exact answerKeepsBits_raise k i s
  · exact answerKeepsBits_next rfl

/-- A command whose rule does not write the bit store leaves it as it is, fault or not. -/
theorem answerKeepsBits_exec {i : Instr} (hi : .bits ∉ writes i) (s : State) :
    AnswerKeepsBits s (exec i s) := by
  cases i with
  | srst | bsClr | bsPut | bsPutb | ecAsm | encRun => exact absurd (by simp [writes]) hi
  | nop | plClr | mxInit | encBest => exact answerKeepsBits_next rfl
  | pClr | pGen => exact answerKeepsBits_next (setPoly_bs ..)
  | pPush | pMk | pMul => exact answerKeepsBits_check (answerKeepsBits_next (setPoly_bs ..))
  | pMod pd ps1 ps2 =>
    simp only [exec, execPMod]
    split
    · exact answerKeepsBits_raise _ _ s
    · exact answerKeepsBits_next (setPoly_bs ..)
  | plSeg | ecEnc => exact answerKeepsBits_check (answerKeepsBits_next rfl)
  | plPush | mxScore => exact answerKeepsBits_check (answerKeepsBits_check (answerKeepsBits_next rfl))
  | mxFind | mxAlgn | mxTime | mxVinf => exact answerKeepsBits_check (answerKeepsBits_placed _ s)
  | mxFmt | mxData =>
    refine answerKeepsBits_check ?_
    split
    · exact answerKeepsBits_raise _ _ s
    · exact answerKeepsBits_placed _ s
  | mxBuild v test mask =>
    simp only [exec, execMxBuild]
    split
    · exact answerKeepsBits_raise _ _ s
    · exact answerKeepsBits_next rfl
  | gfExp | gfLog | gfMul | pLen | pGet | bsLen | bsRdb | cwLen | cwRd | ecCap | mxGet | mxN | mkEval
  | mxRdp | encRdt => exact answerKeepsBits_of_readsOnly rfl s

/-- A command that checks and then writes an extension of the stream answers an extension of it: when
the check raises, the stream itself (R184). -/
theorem bitsOf_prefix_of_check {c : Prop} [Decidable c] {k : ErrKind} {i : Instr} {s t : State}
    {b : BitStore} (hb : ¬c → bitsOf s.bs <+: bitsOf b)
    (h : (if c then raise k i s else .next (setBits b s)) = .next t) :
    bitsOf s.bs <+: bitsOf t.bs := by
  split at h
  · rw [raise_next h, faultEntry_bs]
  · rw [← next_inj h, setBits_bs]
    exact hb ‹_›

/-- Settles O18: only the two puts are left to write the bit store, and they append. -/
theorem bitsAreNeverRemoved : Obligations.BitsAreNeverRemoved := by
  unfold Obligations.BitsAreNeverRemoved
  intro i s t hok h hclr hrun hsrst hasm
  have hprefix : bitsOf s.bs <+: bitsOf t.bs := by
    cases i with
    | bsClr => exact absurd rfl hclr
    | encRun => exact absurd rfl hrun
    | srst => exact absurd rfl hsrst
    | ecAsm v => exact absurd rfl (hasm v)
    | bsPut value count =>
      refine bitsOf_prefix_of_check (fun hlen => ?_) h
      rw [bitsOf_putbits _ _ hok (Nat.not_lt.mp hlen)]
      exact List.prefix_append ..
    | bsPutb a =>
      refine bitsOf_prefix_of_check (fun _ => ?_) h
      rw [bitsOf_putbit hok]
      exact List.prefix_append ..
    | _ => rw [answerKeepsBits_exec (by simp [writes]) s t h]
  have hlen := hprefix.length_le
  have htake := List.prefix_iff_eq_take.mp hprefix
  rw [bitsOf_length] at htake
  rw [bitsOf_length, bitsOf_length] at hlen
  exact ⟨hlen, htake.symm⟩

end Sys2Proof.Machine

namespace Sys2Proof.Machine

/-! ### The commands that read the tables, the codewords and the scores (R121, R124, R130, R131, R167,
R169) -/

/-- A command that writes `RES` writes that value and changes nothing else. -/
theorem exists_next_setRes {i : Instr} {w : Word} {s : State} (h : exec i s = .next (setRes w s)) :
    ∃ t, exec i s = .next t ∧ t.res = w ∧ OnlyChanges [.res] s t :=
  ⟨_, h, rfl, onlyChanges_setRes w s⟩

/-- The capacities that R121 prints. -/
theorem cap_eq_printed {v : BitVec 4} (hv : versionOk v = true) :
    cap v.toNat = [128, 224, 352, 512, 688, 864, 992, 1232, 1456, 1728].getD (v.toNat - 1) 0 := by
  revert v
  decide

theorem wordOf_cap_toNat (v : Nat) : (wordOf (cap v)).toNat = cap v := by
  have hmax : cap v ≤ 2048 := cap_le_bsMaxBits v
  exact Nat.mod_eq_of_lt (by omega)

theorem exec_cwRd_of_lt {idx : BitVec 16} {s : State} (h : idx.toNat < s.cw.length) :
    exec (.cwRd idx) s = .next (setRes (zextByte s.cw[idx.toNat]) s) := by
  rw [exec, execCwRd, List.getElem?_eq_getElem h]

theorem exec_cwRd_of_le {idx : BitVec 16} {s : State} (h : s.cwLen ≤ idx.toNat) :
    exec (.cwRd idx) s = .next (faultEntry .invalidIndex (encode (.cwRd idx)) s) := by
  rw [exec, execCwRd, List.getElem?_eq_none h]
  rfl

theorem penAt_of_lt {a : BitVec 3} (h : a.toNat < 5) (s : State) : penAt a s = s.pen[a.toNat] := by
  rw [penAt, List.getD_eq_getElem _ _ (by simpa using h), Vector.getElem_toList]

theorem tpenAt_of_lt {m : Nat} (h : m < 8) (s : State) : tpenAt m s = s.tpen[m] := by
  rw [tpenAt, List.getD_eq_getElem _ _ (by simpa using h), Vector.getElem_toList]

theorem exec_mxRdp_of_lt {a : BitVec 3} (h : a.toNat < 5) (s : State) :
    exec (.mxRdp a) s = .next (setRes s.pen[a.toNat] s) := by
  rw [exec, execMxRdp, penAt_of_lt h]

theorem exec_encRdt_of_lt {mask : BitVec 4} (h : mask.toNat < 8) (s : State) :
    exec (.encRdt mask) s = .next (setRes s.tpen[mask.toNat] s) := by
  simp only [exec, execEncRdt, maskIndex_of_lt h, tpenAt_of_lt h]

theorem exec_encRdt_of_le {mask : BitVec 4} (h : 8 ≤ mask.toNat) (s : State) :
    exec (.encRdt mask) s = .next (faultEntry .invalidMaskPattern (encode (.encRdt mask)) s) := by
  rw [exec, execEncRdt, maskIndex_of_le h]
  rfl

/-- Settles O40: each read writes `RES`; the capacities are those of R121, and below its length each
store holds what is read. -/
theorem codewordsCapacitiesAndScoresAreRead : Obligations.CodewordsCapacitiesAndScoresAreRead := by
  unfold Obligations.CodewordsCapacitiesAndScoresAreRead
  refine ⟨fun v s hv => ⟨_, rfl, ?_, onlyChanges_setRes _ s⟩, fun s => exists_next_setRes rfl,
    fun idx s => ⟨fun h => exists_next_setRes (exec_cwRd_of_lt h), exec_cwRd_of_le⟩,
    fun a s h => exists_next_setRes (exec_mxRdp_of_lt h s),
    fun mask s => ⟨fun h => exists_next_setRes (exec_encRdt_of_lt h s),
      fun h => exec_encRdt_of_le h s⟩⟩
  rw [setRes_res, wordOf_cap_toNat, cap_eq_printed hv]

/-! ### The data list through the item commands (R115, R117 to R119) -/

/-- A new item is cut behind the bytes of the items before it. -/
theorem splitItems_concat (lens : List Nat) (n : Nat) (bytes : List Byte) :
    splitItems (lens ++ [n]) bytes = splitItems lens bytes ++ [(bytes.drop lens.sum).take n] := by
  induction lens generalizing bytes with
  | nil => rfl
  | cons m lens ih =>
    rw [List.cons_append, splitItems, ih, List.drop_drop, splitItems, List.cons_append, List.sum_cons]

/-- The items are cut from the front, so bytes behind them make no difference. -/
theorem splitItems_append {lens : List Nat} {bytes : List Byte} (h : lens.sum ≤ bytes.length)
    (more : List Byte) : splitItems lens (bytes ++ more) = splitItems lens bytes := by
  induction lens generalizing bytes with
  | nil => rfl
  | cons n lens ih =>
    rw [List.sum_cons] at h
    have hn : n ≤ bytes.length := by omega
    rw [splitItems, splitItems, List.take_append_of_le_length hn, List.drop_append_of_le_length hn,
      ih (by rw [List.length_drop]; omega)]

/-- The last item is all that is left behind the others. -/
theorem splitItems_concat_eq_drop {init : List Nat} {n : Nat} {bytes : List Byte}
    (h : bytes.length = init.sum + n) :
    splitItems (init ++ [n]) bytes = splitItems init bytes ++ [bytes.drop init.sum] := by
  rw [splitItems_concat, List.take_of_length_le (by rw [List.length_drop]; omega)]

/-- A byte at the end of the payload, counted for the last item, is appended to the last item (R119). -/
theorem splitItems_bumpLast {lens : List Nat} {bytes : List Byte} (hne : lens ≠ [])
    (h : bytes.length = lens.sum) (a : Byte) : ∃ front last,
      splitItems lens bytes = front ++ [last] ∧
      splitItems (bumpLast lens) (bytes ++ [a]) = front ++ [last ++ [a]] := by
  obtain ⟨init, n, rfl⟩ := (List.eq_nil_or_concat' lens).resolve_left hne
  rw [List.sum_append, List.sum_singleton] at h
  have hinit : init.sum ≤ bytes.length := by omega
  refine ⟨splitItems init bytes, bytes.drop init.sum, splitItems_concat_eq_drop h, ?_⟩
  rw [bumpLast_concat, splitItems_concat_eq_drop (by rw [List.length_append, h]; rfl),
    splitItems_append hinit, List.drop_append_of_le_length hinit]

theorem exec_plSeg_of_ne {s : State} (h : s.itemCnt ≠ 8) :
    exec .plSeg s = .next (setItems (s.itemLen ++ [0]) s.plBytes s) := if_neg h

theorem exec_plSeg_of_full {s : State} (h : s.itemCnt = 8) :
    exec .plSeg s = .next (faultEntry .invalidIndex (encode .plSeg) s) := if_pos h

theorem exec_plPush_of_ne {s : State} (hitem : s.itemCnt ≠ 0) (hlen : s.plLen ≠ 256) (a : Byte) :
    exec (.plPush a) s = .next (setItems (bumpLast s.itemLen) (s.plBytes ++ [a]) s) :=
  (if_neg hitem).trans (if_neg hlen)

/-- Settles O36: a new item has no bytes, and a pushed byte is the last of the last item. -/
theorem itemCommandsBuildTheDataList : Obligations.ItemCommandsBuildTheDataList := by
  unfold Obligations.ItemCommandsBuildTheDataList
  refine ⟨fun s => ⟨_, rfl, rfl, rfl, rfl, onlyChanges_setItems _ _ s⟩,
    fun s _ => ⟨fun hcnt => ⟨_, exec_plSeg_of_ne hcnt, splitItems_concat s.itemLen 0 s.plBytes,
      List.length_append, rfl, onlyChanges_setItems _ _ s⟩, exec_plSeg_of_full⟩,
    fun a s hsum => ⟨fun hcnt hmax => ?_, fun hcnt => exec_plPush_of_no_item hcnt a,
      fun hcnt hmax => exec_plPush_of_full hcnt hmax a⟩⟩
  have hne : s.itemLen ≠ [] := List.length_pos_iff.mp (Nat.pos_of_ne_zero hcnt)
  obtain ⟨front, last, hold, hnew⟩ := splitItems_bumpLast hne hsum a
  have hlen : (s.plBytes ++ [a]).length = s.plLen + 1 := List.length_append
  refine ⟨_, front, last, exec_plPush_of_ne hcnt hmax a, hold, hnew, hlen, ?_,
    onlyChanges_setItems _ _ s⟩
  rw [State.plLen, setItems_plBytes, setItems_itemLen, hlen, bumpLast_sum hne, hsum]

end Sys2Proof.Machine

namespace Sys2Proof.Machine

/-! ### The assembled stream, bit for bit (R122, R123) -/

theorem natBits_zero (n : Nat) : natBits 0 n = List.replicate n false := by
  simp [natBits, List.map_const']

section Assembly

variable {v : Nat} {b : BitStore}

/-- Step 1 for one item appends its mode indicator, its count and its bytes. -/
theorem bitsOf_putItem {x : List Byte} (h : b.Ok) (hl : (putItem v b x).len ≤ Config.bsMaxBits) :
    bitsOf (putItem v b x) = bitsOf b ++ listBits [x] v := by
  rw [putItem_len] at hl
  have hmode : b.len + 4 ≤ Config.bsMaxBits := by omega
  have hcount : (putbits b modeIndicator 4).len + ccbits v ≤ Config.bsMaxBits := by
    rw [putbits_len]; omega
  have hbytes : (putbits (putbits b modeIndicator 4) x.length (ccbits v)).len + 8 * x.length ≤
      Config.bsMaxBits := by
    rw [putbits_len, putbits_len]; omega
  have hok := putbits_ok modeIndicator 4 h hmode
  rw [putItem, bitsOf_putBytes x (putbits_ok _ _ hok hcount) hbytes, bitsOf_putbits _ _ hok hcount,
    bitsOf_putbits _ _ h hmode, listBits, List.flatMap_singleton, modeIndicator]
  simp only [List.append_assoc]

/-- Step 1 appends the bits of the data list. -/
theorem bitsOf_putItems {items : List (List Byte)} (h : b.Ok)
    (hl : b.len + preLen items v ≤ Config.bsMaxBits) :
    bitsOf (items.foldl (putItem v) b) = bitsOf b ++ listBits items v := by
  induction items generalizing b with
  | nil => exact (List.append_nil _).symm
  | cons x items ih =>
    rw [preLen, List.map_cons, List.sum_cons, ← preLen] at hl
    have hx : (putItem v b x).len ≤ Config.bsMaxBits := by rw [putItem_len]; omega
    have hrest : (putItem v b x).len + preLen items v ≤ Config.bsMaxBits := by
      rw [putItem_len]; omega
    rw [List.foldl_cons, ih (putItem_ok h hx) hrest, bitsOf_putItem h hx, List.append_assoc]
    simp only [listBits, List.flatMap_cons, List.flatMap_nil, List.append_nil]

/-- Step 2 appends four zeros when they fit. -/
theorem bitsOf_terminate (h : b.Ok) :
    bitsOf (terminate v b) = if (bitsOf b).length + 4 ≤ cap v then
      bitsOf b ++ List.replicate 4 false else bitsOf b := by
  rw [bitsOf_length, terminate]
  split
  · rw [bitsOf_putbits _ _ h (Nat.le_trans ‹_› (cap_le_bsMaxBits v)), natBits_zero]
  · rfl

/-- Step 3 appends zeros up to the byte boundary. -/
theorem bitsOf_alignByte (h : b.Ok) :
    bitsOf (alignByte b) =
      bitsOf b ++ List.replicate ((8 - (bitsOf b).length % 8) % 8) false := by
  have hmax : b.len ≤ 2048 := h.lenMax
  have hl : b.len + (8 - b.len % 8) % 8 ≤ 2048 := by omega
  rw [bitsOf_length, alignByte, bitsOf_putbits _ _ h hl, natBits_zero]

/-- Step 4 from pad byte `k` on appends as many whole bytes as the capacity leaves room for. -/
theorem bitsOf_padLoop (fuel k : Nat) (h : b.Ok) (h8 : b.len % 8 = 0)
    (hfuel : cap v ≤ b.len + 8 * fuel) :
    bitsOf (padLoop v fuel k b) = bitsOf b ++
      (List.range' k ((cap v - (bitsOf b).length) / 8)).flatMap fun j =>
        natBits (if j % 2 = 0 then 0xEC else 0x11) 8 := by
  rw [bitsOf_length]
  have hc : cap v = 8 * datacw v := rfl
  have hfull {n : Nat} (hle : cap v ≤ n) : (cap v - n) / 8 = 0 := by omega
  induction fuel generalizing k b with
  | zero => rw [hfull (n := b.len) hfuel]; exact (List.append_nil _).symm
  | succ fuel ih =>
    rw [padLoop]
    split
    · have hl : b.len + 8 ≤ Config.bsMaxBits :=
        Nat.le_trans (by omega) (cap_le_bsMaxBits v)
      have hrounds : (cap v - b.len) / 8 = (cap v - (b.len + 8)) / 8 + 1 := by omega
      rw [ih _ (putbits_ok _ _ h hl) (by rw [putbits_len]; omega) (by rw [putbits_len]; omega),
        putbits_len, bitsOf_putbits _ _ h hl, hrounds, List.range'_succ, List.flatMap_cons,
        List.append_assoc]
      rfl
    · rw [hfull (Nat.not_lt.mp ‹_›)]; exact (List.append_nil _).symm

end Assembly

/-- A list that fits assembles to the bits of R122. -/
theorem bitsOf_streamOf {items : List (List Byte)} {v : Nat} (h : preLen items v ≤ cap v) :
    bitsOf (streamOf items v) = streamBits items v := by
  have hl : bitsEmpty.len + preLen items v ≤ Config.bsMaxBits := by
    simpa [bitsEmpty] using h.trans (cap_le_bsMaxBits v)
  have hitems := putItems_ok bitsEmpty_ok hl
  have hterm := terminate_ok (v := v) hitems
  have hlen := alignByte_len (terminate v (items.foldl (putItem v) bitsEmpty))
  have hfuel : cap v ≤ (alignByte (terminate v (items.foldl (putItem v) bitsEmpty))).len +
      8 * datacw v := Nat.le_add_left ..
  rw [streamOf, bitsOf_padLoop _ _ (alignByte_ok hterm) (by omega) hfuel, bitsOf_alignByte hterm,
    bitsOf_terminate hitems, bitsOf_putItems bitsEmpty_ok hl, bitsOf_bitsEmpty, List.nil_append,
    ← List.range_eq_range']
  rfl

theorem exec_ecAsm_of_le {v : BitVec 4} {s : State} (h : preLen s.items v.toNat ≤ cap v.toNat) :
    exec (.ecAsm v) s = .next (setBits (streamOf s.items v.toNat) s) := by
  rw [exec, execEcAsm, assemble, if_neg (Nat.not_lt.mpr h)]

theorem exec_ecAsm_of_lt {v : BitVec 4} {s : State} (h : cap v.toNat < preLen s.items v.toNat) :
    exec (.ecAsm v) s = .next (faultEntry .capacityExceeded (encode (.ecAsm v)) s) := by
  rw [exec, execEcAsm, assemble, if_pos h]
  rfl

/-- Settles O37: each step of the assembly appends its bits, and the last ends at the capacity. -/
theorem assembledStreamIsTheSpecifiedBits : Obligations.AssembledStreamIsTheSpecifiedBits := by
  unfold Obligations.AssembledStreamIsTheSpecifiedBits
  intro v s _
  rw [listBits_length]
  exact ⟨fun h => ⟨_, exec_ecAsm_of_le h, bitsOf_streamOf h, streamOf_len h, streamOf_ok h,
    onlyChanges_setBits _ s⟩, exec_ecAsm_of_lt⟩

end Sys2Proof.Machine

namespace Sys2Proof.Machine

/-! ### The interleave (R127) -/

theorem length_le_longest {ls : List (List Byte)} {l : List Byte} (h : l ∈ ls) :
    l.length ≤ (ls.map List.length).foldl max 0 := by
  rw [List.foldl_eq_foldr]
  exact List.le_max_of_le (List.mem_map_of_mem h) (Nat.le_refl _)

/-- The interleave runs to the end of the longest list, so it takes every element. -/
theorem interleave_length (ls : List (List Byte)) :
    (interleave ls).length = (ls.map List.length).sum := by
  rw [interleave, interleave_upto_length]
  exact congrArg List.sum (List.map_congr_left fun l hl => Nat.min_eq_right (length_le_longest hl))

/-- Among the elements of index `i` that of list `b` stands behind those of the earlier lists. -/
theorem getElem?_column {ls : List (List Byte)} {b i : Nat} {l : List Byte} {x : Byte}
    (hl : ls[b]? = some l) (hx : l[i]? = some x) :
    (ls.filterMap fun l' => l'[i]?)[(ls.take b).countP fun l' => decide (i < l'.length)]? =
      some x := by
  have hcount : (ls.take b).countP (fun l' => decide (i < l'.length)) =
      ((ls.take b).filterMap fun l' => l'[i]?).length := by
    rw [List.length_filterMap_eq_countP]
    exact List.countP_congr fun l' _ => by simp
  have hsplit : (ls.filterMap fun l' => l'[i]?) = ((ls.take b).filterMap fun l' => l'[i]?) ++
      x :: (ls.drop (b + 1)).filterMap fun l' => l'[i]? := by
    obtain ⟨hb, hlb⟩ := List.getElem?_eq_some_iff.mp hl
    conv_lhs => rw [← List.take_append_drop b ls, List.drop_eq_getElem_cons hb, hlb]
    rw [List.filterMap_append, List.filterMap_cons_some (f := fun l' => l'[i]?) hx]
  rw [hcount, hsplit, List.getElem?_append_right (Nat.le_refl _), Nat.sub_self]
  rfl

/-- Settles O39: the columns before column `i` hold the elements of smaller index. -/
theorem interleaveIsColumnMajor : Obligations.InterleaveIsColumnMajor := by
  unfold Obligations.InterleaveIsColumnMajor
  refine fun ls => ⟨interleave_length ls, fun b i l x hl hx => ?_⟩
  obtain ⟨hi, -⟩ := List.getElem?_eq_some_iff.mp hx
  have hlongest := hi.trans_le (length_le_longest (List.mem_of_getElem? hl))
  obtain ⟨rest, hrest⟩ := Nat.exists_eq_add_of_le (Nat.succ_le_of_lt hlongest)
  have hcol := getElem?_column hl hx
  have hlt := (List.getElem?_eq_some_iff.mp hcol).1
  rw [interleave, hrest, List.range_add, List.range_succ, List.flatMap_append, List.flatMap_append,
    List.append_assoc, List.flatMap_singleton, ← interleave_upto_length,
    List.getElem?_append_right (Nat.le_add_right ..), Nat.add_sub_cancel_left,
    List.getElem?_append_left hlt, hcol]

end Sys2Proof.Machine

namespace Sys2Proof.Machine

/-! ### Field sums that are aligned at the last coefficient (R85, R126) -/

/-- A polynomial with zeros in front up to length `n`: the EC codewords of R126 from a remainder. -/
def padLeft (n : Nat) (r : Poly) : Poly := List.replicate (n - r.length) 0#8 ++ r

@[simp] theorem padLeft_self (r : Poly) : padLeft r.length r = r := by
  rw [padLeft, Nat.sub_self]
  rfl

theorem padLeft_length {n : Nat} {r : Poly} (h : r.length ≤ n) : (padLeft n r).length = n := by
  rw [padLeft, List.length_append, List.length_replicate, Nat.sub_add_cancel h]

theorem padLeft_add {n : Nat} {r : Poly} (h : r.length ≤ n) (z : Nat) :
    padLeft (z + n) r = List.replicate z 0#8 ++ padLeft n r := by
  rw [padLeft, padLeft, ← List.append_assoc, List.replicate_append_replicate, Nat.add_sub_assoc h]

/-- The field sum of `a` and the shorter `r`: `r` is added to the last coefficients of `a`. -/
def addLow (a r : Poly) : Poly := xorList a (padLeft a.length r)

theorem xorList_self (a : List Byte) : xorList a a = List.replicate a.length 0#8 := by
  simp [xorList]

theorem xorList_right_comm (a b c : List Byte) :
    xorList (xorList a b) c = xorList (xorList a c) b := by
  induction a generalizing b c with
  | nil => rfl
  | cons x a ih =>
    cases b with
    | nil => cases c <;> rfl
    | cons y b =>
      cases c with
      | nil => rfl
      | cons z c =>
        have hhead : x ^^^ y ^^^ z = x ^^^ z ^^^ y := by ac_rfl
        exact congrArg₂ List.cons hhead (ih b c)

theorem addLow_length {a r : Poly} (h : r.length ≤ a.length) : (addLow a r).length = a.length := by
  rw [addLow, xorList_length, padLeft_length h, min_self]

theorem addLow_self (a : Poly) : addLow a a = List.replicate a.length 0#8 := by
  rw [addLow, padLeft_self, xorList_self]

theorem addLow_append {b r : Poly} (h : r.length ≤ b.length) (a : Poly) :
    addLow (a ++ b) r = a ++ addLow b r := by
  have hzero : xorList a (List.replicate a.length 0#8) = a := by
    rw [xorList, List.zipWith_comm_of_comm BitVec.xor_comm]
    exact xorList_replicate_zero a
  rw [addLow, List.length_append, padLeft_add h, xorList,
    List.zipWith_append List.length_replicate.symm]
  exact congrArg (· ++ _) hzero

theorem addLow_replicate_zero {n : Nat} {r : Poly} (h : r.length ≤ n) :
    addLow (List.replicate n 0#8) r = padLeft n r := by
  have hpad := xorList_replicate_zero (padLeft n r)
  rw [padLeft_length h] at hpad
  rw [addLow, List.length_replicate, hpad]

theorem addLow_headD {a r : Poly} (h : r.length < a.length) :
    (addLow a r).headD 0#8 = a.headD 0#8 := by
  cases a with
  | nil => exact absurd h (Nat.not_lt_zero _)
  | cons x a =>
    rw [List.length_cons] at h
    rw [← List.singleton_append, addLow_append (Nat.le_of_lt_succ h)]
    rfl

/-- Adding to the low coefficients commutes with adding a list of the full length. -/
theorem xorList_addLow {a t : Poly} (h : a.length = t.length) (r : Poly) :
    xorList (addLow a r) t = addLow (xorList a t) r := by
  rw [addLow, addLow, xorList_right_comm, xorList_length, ← h, min_self]

/-! ### The remainder added to the dividend (R93, R104) -/

/-- What the constructor strips is a run of zeros (R91). -/
theorem exists_replicate_append_mkpoly (c : Poly) :
    ∃ z, c = List.replicate z 0#8 ++ mkpoly c 0 := by
  induction c with
  | nil => exact ⟨0, rfl⟩
  | cons x c ih =>
    by_cases hx : x = 0#8
    · obtain ⟨z, hz⟩ := ih
      exact ⟨z + 1, by rw [hx, mkpoly_cons_zero, List.replicate_succ, List.cons_append, ← hz]⟩
    · exact ⟨0, by rw [mkpoly_of_head_ne hx]; exact (List.append_nil _).symm⟩

theorem mkpoly_replicate_zero (n : Nat) : mkpoly (List.replicate n 0#8) 0 = [] := by
  have hstrip := mkpoly_replicate_append n [] 0
  rwa [List.append_nil] at hstrip

/-- Stripping before something is appended makes no difference to stripping the whole. -/
theorem mkpoly_append (c e : Poly) : mkpoly (c ++ e) 0 = mkpoly (mkpoly c 0 ++ e) 0 := by
  obtain ⟨z, hz⟩ := exists_replicate_append_mkpoly c
  conv_lhs => rw [hz, List.append_assoc, mkpoly_replicate_append]

theorem mkpoly_addLow {c r : Poly} (h : r.length ≤ (mkpoly c 0).length) :
    mkpoly (addLow c r) 0 = mkpoly (addLow (mkpoly c 0) r) 0 := by
  obtain ⟨z, hz⟩ := exists_replicate_append_mkpoly c
  conv_lhs => rw [hz, addLow_append h, mkpoly_replicate_append]

/-- A step of the division subtracts the same from `a` and from `a` with a short `r` added, for the
leading coefficient is that of `a`. -/
theorem pmod_addLow_step {a d r : Poly} (hle : d.length ≤ a.length) (ha : a.headD 0#8 ≠ 0#8)
    (hd : d.headD 0#8 ≠ 0#8) (hr : r.length < a.length) :
    pmod (mkpoly (addLow a r) 0) d =
      pmod (mkpoly (addLow (xorList a (scaled (leadRatio a d) d (a.length - d.length))) r) 0) d := by
  have hlen : (addLow a r).length = a.length := addLow_length hr.le
  have hhead : (addLow a r).headD 0#8 = a.headD 0#8 := addLow_headD hr
  have hratio : leadRatio (addLow a r) d = leadRatio a d := by rw [leadRatio, hhead, leadRatio]
  have hscaled : a.length = (scaled (leadRatio a d) d (a.length - d.length)).length := by
    rw [scaled_length, Nat.add_sub_cancel' hle]
  have hsame : mkpoly (addLow a r) 0 = addLow a r := by
    rw [mkpoly_of_canonical (canonical_of_headD_ne (hhead ▸ ha)), List.replicate_zero,
      List.append_nil]
  rw [hsame, pmod_of_head_ne (hlen ▸ hle) (hhead ▸ ha) hd, hlen, hratio, xorList_addLow hscaled]

/-- A dividend with its remainder added to it is a multiple of the divisor. The division takes the same
steps on it, and what it ends on is the remainder added to itself. -/
theorem pmod_addLow_remainder {a d r : Poly} (h : pmod a d = some r) :
    pmod (mkpoly (addLow a r) 0) d = some [] := by
  have hd : d ≠ [] := by
    rintro rfl
    cases h
  rcases Nat.lt_or_ge a.length d.length with hlt | hle
  · rw [pmod_of_length_lt hlt] at h
    cases h
    rw [addLow_self, mkpoly_replicate_zero]
    exact pmod_of_length_lt (List.length_pos_iff.mpr hd)
  · obtain ⟨ha, hd0⟩ : a.headD 0#8 ≠ 0#8 ∧ d.headD 0#8 ≠ 0#8 := by
      rw [← not_or]
      intro h0
      rw [pmod_of_head_zero hd hle h0] at h
      cases h
    have hstep := pmodStep_of_ne ha hd0
    rw [pmod_of_pmodStep_some hd hle hstep] at h
    obtain ⟨hshort, hrest⟩ := pmod_length h
    rw [pmod_addLow_step hle ha hd0 (hshort.trans_le hle), mkpoly_addLow hrest]
    exact pmod_addLow_remainder h
termination_by a.length
decreasing_by exact pmodStep_length_lt hstep

/-! ### The block coder (R125, R126) -/

/-- The EC codewords of a block are the padded remainder, and the whole block leaves none (R129). -/
theorem ecOf_systematic (ec : Nat) (data : List Byte) : ∃ r,
    pmod (mkpoly data ec) (pgen ec) = some r ∧ ecOf ec data = padLeft ec r ∧
    pmod (mkpoly (data ++ ecOf ec data) 0) (pgen ec) = some [] := by
  obtain ⟨-, -, hdiv⟩ := multiplesLeaveNoRemainder
  obtain ⟨r, hr⟩ := hdiv data ec
  have hec : ecOf ec data = padLeft ec r := by
    rw [ecOf, hr]
    rfl
  have hle : r.length ≤ ec := by
    have hlt := (pmod_length hr).1
    rw [pgen_length] at hlt
    exact Nat.le_of_lt_succ hlt
  have hshift : mkpoly data ec = mkpoly data 0 ++ List.replicate ec 0#8 := by
    rw [mkpoly, mkpoly, List.replicate_zero, List.append_nil]
  refine ⟨r, hr, hec, ?_⟩
  have hmultiple := pmod_addLow_remainder hr
  rwa [hshift, addLow_append (by rwa [List.length_replicate]), addLow_replicate_zero hle, ← hec,
    ← mkpoly_append] at hmultiple

/-- Each block stands beside its data and what is coded from them. -/
theorem zip_zip_zipWith {α β γ : Type} (f : α → β → γ) (bs : List α) (ds : List β) :
    bs.zip (ds.zip (List.zipWith f bs ds)) = (bs.zip ds).map fun p => (p.1, p.2, f p.1 p.2) := by
  induction bs generalizing ds with
  | nil => rfl
  | cons b bs ih =>
    cases ds with
    | nil => rfl
    | cons d ds => exact congrArg (List.cons _) (ih ds)

section Blocks

variable {v : Nat} {buf : List Byte} (h : buf.length = datacw v)
include h

theorem dataBlocks_flatten : (dataBlocks v buf).flatten = buf := by
  rw [dataBlocks, ← h, List.take_length, splitBlocks_flatten _ _ h]

theorem dataBlocks_lengths :
    (dataBlocks v buf).map List.length = (blocks v).map RSBlock.data := by
  rw [dataBlocks, ← h, List.take_length, splitBlocks_lengths _ _ h]

theorem dataBlocks_length : (dataBlocks v buf).length = (blocks v).length := by
  simpa using congrArg List.length (dataBlocks_lengths h)

theorem ecBlocks_length : (ecBlocks v buf).length = (dataBlocks v buf).length := by
  rw [ecBlocks, List.length_zipWith, dataBlocks_length h, min_self]

theorem ecBlocks_lengths : (ecBlocks v buf).map List.length = (blocks v).map RSBlock.ec := by
  conv_rhs => rw [← List.map_fst_zip (dataBlocks_length h).ge, List.map_map]
  rw [ecBlocks, ← List.map_uncurry_zip_eq_zipWith, List.map_map]
  exact List.map_congr_left fun p _ => ecOf_length p.1.ec p.2

/-- The codewords are as many as the table row says (R121, R129). -/
theorem codewordsOf_length : (codewordsOf v buf).length = totalcw v := by
  rw [codewordsOf, List.length_append, interleave_length, interleave_length, dataBlocks_lengths h,
    ecBlocks_lengths h, sum_data_add_sum_ec _ data_le_total, totalcw]

end Blocks

/-- A canonical stream of `cap(v)` bits has the bytes of `datacw(v)` codewords (R121, R31). -/
theorem buf_length_of_len_eq_cap {b : BitStore} {v : Nat} (h : b.Ok) (hlen : b.len = cap v) :
    b.buf.length = datacw v := by
  have hbuf := h.bufLen
  have hcap : cap v = 8 * datacw v := rfl
  omega

theorem exec_ecEnc_of_eq {v : BitVec 4} {s : State} (h : s.bs.len = cap v.toNat) :
    exec (.ecEnc v) s = .next (setCode (codewordsOf v.toNat s.bs.buf) s) :=
  if_neg (not_not.mpr h)

theorem exec_ecEnc_of_ne {v : BitVec 4} {s : State} (h : s.bs.len ≠ cap v.toNat) :
    exec (.ecEnc v) s = .next (faultEntry .invalidSequence (encode (.ecEnc v)) s) := if_pos h

/-- Settles O38: the blocks are cut at the table's sizes, `ecOf_systematic` speaks for each of them, and
the interleaves are as long as the blocks. -/
theorem ecEncCodesEveryBlock : Obligations.EcEncCodesEveryBlock := by
  unfold Obligations.EcEncCodesEveryBlock
  intro v s _ hok
  refine ⟨fun hlen => ?_, exec_ecEnc_of_ne⟩
  have hbuf := buf_length_of_len_eq_cap hok hlen
  refine ⟨_, dataBlocks v.toNat s.bs.buf, ecBlocks v.toNat s.bs.buf, exec_ecEnc_of_eq hlen,
    dataBlocks_flatten hbuf, dataBlocks_lengths hbuf, ecBlocks_length hbuf, ?_, rfl,
    codewordsOf_length hbuf, onlyChanges_setCode _ s⟩
  rw [ecBlocks, zip_zip_zipWith, List.forall_mem_map]
  intro p _
  obtain ⟨r, hr, hec, hnone⟩ := ecOf_systematic p.1.ec p.2
  exact ⟨r, hr, hec, ecOf_length _ _, hnone⟩

end Sys2Proof.Machine

namespace Sys2Proof.Machine

/-! ### The capacities of single items (R116, R133, R170) -/

/-- The bytes that one item may have in version `v`: what its mode indicator and its count leave of the
capacity (R122, R133). -/
def singleItemMax (v : Nat) : Nat := (cap v - (4 + ccbits v)) / 8

/-- The lengths that R133 prints. -/
theorem singleItemMax_eq_printed : ∀ v ∈ List.range' 1 10,
    singleItemMax v = [14, 26, 42, 62, 84, 106, 122, 152, 180, 213].getD (v - 1) 0 := by decide

theorem preLen_singleton_le_cap_iff (x : List Byte) {v : Nat} (hv : 1 ≤ v ∧ v ≤ 10) :
    preLen [x] v ≤ cap v ↔ x.length ≤ singleItemMax v := by
  have hhead : ∀ v ∈ List.range' 1 10, 4 + ccbits v ≤ cap v := by decide
  have hle := hhead v (List.mem_range'_1.mpr (by omega))
  rw [preLen, List.map_singleton, List.sum_singleton, singleItemMax]
  omega

/-- Every item takes a mode indicator and a count besides its bytes (R122). -/
theorem preLen_eq (items : List (List Byte)) (v : Nat) :
    preLen items v = (4 + ccbits v) * items.length + 8 * items.flatten.length := by
  induction items with
  | nil => rfl
  | cons x items ih =>
    rw [preLen, List.map_cons, List.sum_cons, ← preLen, ih, List.flatten_cons, List.length_append,
      List.length_cons, Nat.mul_succ]
    omega

/-- More than 213 bytes are too long for every version (R116). -/
theorem cap_lt_preLen {items : List (List Byte)} (h : 213 < items.flatten.length) :
    ∀ v ∈ List.range' 1 10, cap v < preLen items v := by
  have hroom : ∀ v ∈ List.range' 1 10, cap v < 4 + ccbits v + 8 * 214 := by decide
  intro v hv
  have hne : items ≠ [] := by
    rintro rfl
    exact absurd h (by decide)
  have hhead := Nat.le_mul_of_pos_right (4 + ccbits v) (List.length_pos_iff.mpr hne)
  have hcap := hroom v hv
  rw [preLen_eq]
  omega

/-- `select` tries the versions in order (R170). -/
theorem selectVersion_eq_find? (items : List (List Byte)) : selectVersion items =
    (List.range' 1 10).find? fun v => decide (preLen items v ≤ cap v) := rfl

/-- `select` answers the least version that holds the list (R170). -/
theorem selectVersion_eq_some_iff {items : List (List Byte)} {v : Nat} :
    selectVersion items = some v ↔ (1 ≤ v ∧ v ≤ 10) ∧ preLen items v ≤ cap v ∧
      ∀ u, 1 ≤ u → u < v → cap u < preLen items u := by
  rw [selectVersion_eq_find?, List.find?_range'_eq_some, List.mem_range'_1]
  simp only [decide_eq_true_eq, Bool.not_eq_true', decide_eq_false_iff_not, Nat.not_le]
  exact ⟨fun ⟨hfit, hv, hmin⟩ => ⟨by omega, hfit, hmin⟩,
    fun ⟨hv, hfit, hmin⟩ => ⟨hfit, by omega, hmin⟩⟩

theorem selectVersion_eq_none_iff {items : List (List Byte)} :
    selectVersion items = none ↔ ∀ v ∈ List.range' 1 10, cap v < preLen items v := by
  rw [selectVersion_eq_find?, List.find?_eq_none]
  simp only [decide_eq_true_eq, Nat.not_le]

theorem exec_encRun_of_none {s : State} (h : selectVersion s.items = none) :
    exec .encRun s = .next (faultEntry .capacityExceeded 0x71000000#32 s) := by
  rw [exec, execEncRun, h]
  rfl

/-- A single item of at most 213 bytes fits version 10, and the least version that it fits is known
from its length. -/
theorem selectVersion_singleton {x : List Byte} (h : x.length ≤ 213) :
    ∃ v, selectVersion [x] = some v ∧ (x.length ≤ 14 → v = 1) ∧ (x.length = 15 → v = 2) ∧
      (181 ≤ x.length → v = 10) := by
  have hmax1 : singleItemMax 1 = 14 := by decide
  have hmax2 : singleItemMax 2 = 26 := by decide
  have hmax9 : ∀ u ∈ List.range' 1 9, singleItemMax u ≤ 180 := by decide
  have hfit10 : preLen [x] 10 ≤ cap 10 := (preLen_singleton_le_cap_iff x (by decide)).mpr h
  cases hsel : selectVersion [x] with
  | none => exact absurd (selectVersion_eq_none_iff.mp hsel 10 (by decide)) (Nat.not_lt.mpr hfit10)
  | some v =>
    obtain ⟨hv, hfit, hleast⟩ := selectVersion_eq_some_iff.mp hsel
    rw [preLen_singleton_le_cap_iff x hv] at hfit
    have hshort : ∀ u, 1 ≤ u → u < v → singleItemMax u < x.length := fun u h1 hu => by
      rw [← Nat.not_le, ← preLen_singleton_le_cap_iff x (by omega), Nat.not_le]
      exact hleast u h1 hu
    refine ⟨v, rfl, fun hlen => ?_, fun hlen => ?_, fun hlen => ?_⟩ <;> by_contra hne
    · have := hshort 1 (by omega) (by omega)
      omega
    · have hne1 : v ≠ 1 := by
        rintro rfl
        omega
      have := hshort 2 (by omega) (by omega)
      omega
    · have := hmax9 v (List.mem_range'_1.mpr (by omega))
      omega

/-- Settles O59: the room that the table's capacities leave behind one mode indicator and one count. -/
theorem capacitiesOfSingleItems : Obligations.CapacitiesOfSingleItems := by
  unfold Obligations.CapacitiesOfSingleItems
  refine ⟨fun v x hv => ?_, fun x => selectVersion_singleton, fun s hsum hlen => ?_⟩
  · have hrange := versionOk_iff.mp hv
    rw [preLen_singleton_le_cap_iff x hrange,
      singleItemMax_eq_printed _ (List.mem_range'_1.mpr (by omega))]
  · refine exec_encRun_of_none (selectVersion_eq_none_iff.mpr (cap_lt_preLen ?_))
    rwa [State.items, splitItems_flatten _ _ hsum]

end Sys2Proof.Machine

namespace Sys2Proof.Machine

/-! ### `FIN` through every command (44_matrix_builder.md R155) -/

/-- An answer of a command whose rule leaves `FIN` at `fin`: a fault clears it (R184). -/
def AnswerFin (fin : Bool) (r : Result) : Prop :=
  ∀ t, r = .next t → t.fin = if t.err ≠ none then false else fin

section Fin

variable {s : State} {fin : Bool}

theorem answerFin_next (he : s.err = none) (hf : s.fin = fin) : AnswerFin fin (.next s) := by
  rintro t ⟨⟩
  rw [if_neg (not_not.mpr he), hf]

theorem answerFin_raise (k : ErrKind) (i : Instr) (s : State) : AnswerFin fin (raise k i s) := by
  rintro t ⟨⟩
  rfl

/-- A check that raises may be passed over: fault entry clears `FIN`. -/
theorem answerFin_check {c : Prop} [Decidable c] {k : ErrKind} {i : Instr} {r : Result}
    (hr : AnswerFin fin r) : AnswerFin fin (if c then raise k i s else r) := by
  split
  · exact answerFin_raise k i s
  · exact hr

theorem answerFin_placed (he : s.err = none) (g : Grid) : AnswerFin false (placed g s) :=
  answerFin_next he rfl

theorem answerFin_setPoly (he : s.err = none) (r : PReg) (p : Poly) :
    AnswerFin s.fin (.next (setPoly r p s)) :=
  answerFin_next ((setPoly_err r p s).trans he) (setPoly_fin r p s)

theorem answerFin_searchBest (he : s.err = none) (v : BitVec 4) (w : Word) :
    AnswerFin true (.next (setRes w (searchBest v s))) :=
  answerFin_next ((searchBest_err v s).trans he) (searchBest_fin v s)

theorem answerFin_of_readsOnly (he : s.err = none) {i : Instr} (hi : i.readsOnly = true) :
    AnswerFin s.fin (exec i s) := by
  rcases exec_of_readsOnly hi s with ⟨k, e⟩ | ⟨v, e⟩ <;> rw [e]
  · exact answerFin_raise k i s
  · exact answerFin_next he rfl

end Fin

/-- What R155 leaves in `FIN` after a command that did not raise. -/
def finAfter (i : Instr) (s : State) : Bool :=
  match i with
  | .mxBuild _ test _ => !test
  | .encBest _ | .encRun => true
  | .mxInit _ | .mxFind | .mxAlgn | .mxTime | .mxFmt _ _ | .mxVinf | .mxData _ | .srst => false
  | _ => s.fin

theorem exec_encRun_of_some {s : State} {v : Nat} (h : selectVersion s.items = some v) :
    exec .encRun s = .next (setRes (wordOf (sideOf v)) (searchBest (BitVec.ofNat 4 v)
      (setCode (codewordsOf v (streamOf s.items v).buf) (setBits (streamOf s.items v) s)))) := by
  rw [exec, execEncRun, h]

theorem answerFin_exec {s : State} (he : s.err = none) (i : Instr) :
    AnswerFin (finAfter i s) (exec i s) := by
  cases i with
  | nop | bsClr | plClr | mxInit => exact answerFin_next he rfl
  | encBest v => exact answerFin_searchBest he v _
  | srst => exact answerFin_next rfl rfl
  | pClr | pGen => exact answerFin_setPoly he _ _
  | pPush | pMk | pMul => exact answerFin_check (answerFin_setPoly he _ _)
  | bsPut | bsPutb | plSeg | ecEnc => exact answerFin_check (answerFin_next he rfl)
  | plPush | mxScore => exact answerFin_check (answerFin_check (answerFin_next he rfl))
  | mxFind | mxAlgn | mxTime | mxVinf => exact answerFin_check (answerFin_placed he _)
  | pMod =>
    simp only [exec, execPMod]
    split
    · exact answerFin_raise _ _ s
    · exact answerFin_setPoly he _ _
  | ecAsm | mxBuild =>
    simp only [exec, execEcAsm, execMxBuild]
    split
    · exact answerFin_raise _ _ s
    · exact answerFin_next he rfl
  | encRun =>
    cases hsel : selectVersion s.items with
    | none =>
      rw [exec_encRun_of_none hsel]
      exact answerFin_raise .capacityExceeded .encRun s
    | some v =>
      rw [exec_encRun_of_some hsel]
      apply answerFin_searchBest
      exact he
  | mxFmt | mxData =>
    refine answerFin_check ?_
    split
    · exact answerFin_raise _ _ s
    · exact answerFin_placed he _
  | gfExp | gfLog | gfMul | pLen | pGet | bsLen | bsRdb | cwLen | cwRd | ecCap | mxGet | mxN | mkEval
  | mxRdp | encRdt => exact answerFin_of_readsOnly he rfl

/-- Settles O15: `answerFin_exec` runs through the commands; a reset leads to the reset state. -/
theorem finFollowsItsList : Obligations.FinFollowsItsList := by
  unfold Obligations.FinFollowsItsList
  refine ⟨fun i s t he h => (answerFin_exec he i t h).trans ?_, fun s t h => ?_, rfl⟩
  · congr 1
  · cases h
    rfl

/-! ### Reading modules, the side and the masks (R147, R148, R152, R153) -/

section Reads

variable {s : State} {row col : Byte} {mask : BitVec 4}

theorem exec_mxGet_of_lt (hr : row.toNat < side s) (hc : col.toNat < side s) :
    exec (.mxGet row col) s =
      .next (setRes ((cell s.mx row.toNat col.toNat).code.setWidth 32) s) :=
  if_neg (not_or.mpr ⟨Nat.not_le.mpr hr, Nat.not_le.mpr hc⟩)

theorem exec_mxGet_of_le (h : side s ≤ row.toNat ∨ side s ≤ col.toNat) :
    exec (.mxGet row col) s =
      .next (faultEntry .invalidModuleAccess (encode (.mxGet row col)) s) := if_pos h

theorem exec_mkEval_of_lt (h : mask.toNat < 8) :
    exec (.mkEval mask row col) s =
      .next (setRes (if maskfn mask.toNat row.toNat col.toNat then 1#32 else 0#32) s) := by
  rw [exec, execMkEval, maskIndex_of_lt h]

theorem exec_mkEval_of_le (h : 8 ≤ mask.toNat) :
    exec (.mkEval mask row col) s =
      .next (faultEntry .invalidMaskPattern (encode (.mkEval mask row col)) s) := by
  rw [exec, execMkEval, maskIndex_of_le h]
  rfl

end Reads

theorem side_eq (s : State) : side s = if s.ver = 0#4 then 0 else 4 * s.ver.toNat + 17 := rfl

theorem wordOf_side_toNat (s : State) : (wordOf (side s)).toNat = side s := by
  have hle : side s ≤ 4 * s.ver.toNat + 17 := by
    rw [side_eq]
    split <;> omega
  exact Nat.mod_eq_of_lt (by omega)

/-- The eight predicates of R147 as one list. -/
theorem maskfn_eq_getElem {m : Nat} (h : m < 8) (i j : Nat) :
    maskfn m i j = [(i + j) % 2 == 0, i % 2 == 0, j % 3 == 0, (i + j) % 3 == 0,
      (i / 2 + j / 3) % 2 == 0, i * j % 2 + i * j % 3 == 0, (i * j % 2 + i * j % 3) % 2 == 0,
      (i * j % 3 + (i + j) % 2) % 2 == 0][m] := by
  interval_cases m <;> rfl

/-- Settles O52: each command's two answers; the masks are `maskfn`. -/
theorem modulesSideAndMasksAreRead : Obligations.ModulesSideAndMasksAreRead := by
  unfold Obligations.ModulesSideAndMasksAreRead
  refine ⟨fun row col s => ⟨fun hr hc => ?_, exec_mxGet_of_le⟩, fun s => ?_, ?_⟩
  · refine ⟨_, exec_mxGet_of_lt hr hc, ?_, onlyChanges_setRes _ s⟩
    rw [setRes_res]
    cases cell s.mx row.toNat col.toNat <;> rfl
  · exact ⟨_, rfl, wordOf_side_toNat s, onlyChanges_setRes _ s⟩
  · rintro mask row col s i j rfl rfl
    refine ⟨fun h => ⟨_, exec_mkEval_of_lt h, ?_, onlyChanges_setRes _ s⟩, exec_mkEval_of_le⟩
    rw [setRes_res, maskfn_eq_getElem h]

/-! ### `MX.INIT` (R135) -/

theorem cell_blankGrid {n r : Nat} (hr : r < n) (c : Nat) : cell (blankGrid n) r c = .unset := by
  rw [cell, blankGrid, List.getD_replicate _ hr, List.getD_eq_getElem?_getD,
    List.getElem?_getD_replicate_default_eq]

theorem exec_mxInit (v : BitVec 4) (s : State) :
    exec (.mxInit v) s = .next (setMatrix v (blankGrid (sideOf v.toNat)) false s) := rfl

/-- Settles O41: the new grid is `blankGrid`, all of whose cells are Unset. -/
theorem mxInitBlanksTheGrid : Obligations.MxInitBlanksTheGrid := by
  unfold Obligations.MxInitBlanksTheGrid
  intro v s hv
  exact ⟨_, exec_mxInit v s, rfl, side_of_ver_ne (ver_ne_zero_of_versionOk hv),
    gridSquare_blankGrid _, fun r hr c _ => cell_blankGrid hr c, rfl, onlyChanges_setMatrix _ _ _ s⟩

end Sys2Proof.Machine

namespace Sys2Proof.Machine

/-! ### The placement commands with a matrix (44_matrix_builder.md R137 to R150) -/

section Placements

variable {s : State} (h : s.ver ≠ 0#4)
include h

theorem exec_mxFind : exec .mxFind s = .next (setMatrix s.ver (putFinders (side s) s.mx) false s) :=
  if_neg h

theorem exec_mxAlgn :
    exec .mxAlgn s = .next (setMatrix s.ver (putAligns s.ver.toNat s.mx) false s) := if_neg h

theorem exec_mxTime : exec .mxTime s = .next (setMatrix s.ver (putTiming (side s) s.mx) false s) :=
  if_neg h

theorem exec_mxVinf :
    exec .mxVinf s = .next (setMatrix s.ver (putVersion (side s) s.ver.toNat s.mx) false s) :=
  if_neg h

theorem exec_mxFmt {mask : BitVec 4} (hmask : mask.toNat < 8) (test : Bool) :
    exec (.mxFmt test mask) s =
      .next (setMatrix s.ver (putFormat (side s) test mask.toNat s.mx) false s) := by
  rw [exec, execMxFmt, if_neg h, maskIndex_of_lt hmask]
  rfl

theorem exec_mxData {mask : BitVec 4} (hmask : mask.toNat < 8) :
    exec (.mxData mask) s = .next (setMatrix s.ver
      (placeData Config.remainderMasked (side s) mask.toNat s.cw s.mx) false s) := by
  rw [exec, execMxData, if_neg h, maskIndex_of_lt hmask]
  rfl

end Placements

theorem exec_mxBuild {mask : BitVec 4} (hmask : mask.toNat < 8) (v : BitVec 4) (test : Bool)
    (s : State) : exec (.mxBuild v test mask) s = .next
      (setMatrix v (buildGrid Config.remainderMasked v.toNat test mask.toNat s.cw) (!test) s) := by
  rw [exec, execMxBuild, maskIndex_of_lt hmask]

theorem exec_mxBuild_of_mask {mask : BitVec 4} (hmask : 8 ≤ mask.toNat) (v : BitVec 4) (test : Bool)
    (s : State) : exec (.mxBuild v test mask) s =
      .next (faultEntry .invalidMaskPattern (encode (.mxBuild v test mask)) s) := by
  rw [exec, execMxBuild, maskIndex_of_le hmask]
  rfl

/-- A state with a matrix has a legal version (R31). -/
theorem versionOk_of_inv {s : State} (h : s.Inv) (hv : s.ver ≠ 0#4) : versionOk s.ver = true :=
  versionOk_iff.mpr ⟨by bv_omega, h.verMax⟩

theorem le_side_of_inv {s : State} (h : s.Inv) (hv : s.ver ≠ 0#4) : 21 ≤ side s := by
  have hrange := versionOk_iff.mp (versionOk_of_inv h hv)
  rw [side_of_ver_ne hv, sideOf]
  omega

/-! ### Lists of writes, as they look from one cell -/

theorem cell_paint_of_forall_not_mem {ws : List (Nat × Nat × Bool)} {r c : Nat}
    (h : ∀ d, (r, c, d) ∉ ws) (g : Grid) : cell (paint g ws) r c = cell g r c :=
  cell_paint_of_not_mem ws g fun ⟨_, _, d⟩ hw ⟨hr, hc⟩ => h d (hr ▸ hc ▸ hw)

/-- If the list writes the cell `(r, c)` exactly when `P`, and only with the colour `d`, then painting
it sets that cell to `d` if `P` and leaves it as it is if not. -/
theorem cell_paint_of_iff {n r c : Nat} {g : Grid} (hg : gridSquare n g) (hr : r < n) (hc : c < n)
    {ws : List (Nat × Nat × Bool)} {P : Prop} [Decidable P] {d : Bool}
    (h : ∀ d', (r, c, d') ∈ ws ↔ P ∧ d' = d) :
    cell (paint g ws) r c = if P then ofDark d else cell g r c := by
  split
  · refine cell_paint_of_mem hr hc ws g hg ?_ ⟨_, (h d).mpr ⟨‹P›, rfl⟩, rfl, rfl⟩
    rintro ⟨_, _, d'⟩ hw ⟨rfl, rfl⟩
    exact ((h d').mp hw).2
  · exact cell_paint_of_forall_not_mem (fun d' hw => ‹¬P› ((h d').mp hw).1) g

/-- A written cell is not Unset. -/
theorem ofDark_ne_unset (d : Bool) : ofDark d ≠ .unset := by cases d <;> nofun

/-! ### Rings around a centre -/

theorem ring_self (a b : Nat) : ring a b a b = 0 := by simp [ring]

/-- The distance of two centres is at most the sum of a cell's distances from them. -/
theorem ring_le_add (a b a' b' r c : Nat) : ring a b a' b' ≤ ring a b r c + ring a' b' r c := by
  have hrow : ((a' : Int) - a).natAbs ≤ ((r : Int) - a).natAbs + ((r : Int) - a').natAbs := by omega
  have hcol : ((b' : Int) - b).natAbs ≤ ((c : Int) - b).natAbs + ((c : Int) - b').natAbs := by omega
  exact max_le (hrow.trans (Nat.add_le_add (le_max_left ..) (le_max_left ..)))
    (hcol.trans (Nat.add_le_add (le_max_right ..) (le_max_right ..)))

theorem mem_intsFrom {lo x : Int} {n : Nat} : x ∈ intsFrom lo n ↔ lo ≤ x ∧ x < lo + n := by
  simp only [intsFrom, List.mem_map, List.bind_eq_flatMap, List.pure_def, List.mem_flatMap,
    List.mem_range, List.mem_singleton]
  constructor
  · rintro ⟨_, ⟨k, hk, rfl⟩, rfl⟩
    omega
  · rintro ⟨hlo, hhi⟩
    exact ⟨x - lo, ⟨(x - lo).toNat, by omega, by omega⟩, by omega⟩

/-! ### Finder patterns (R136, R137) -/

/-- The colours of R136 are those of the rings around the centre. -/
theorem finderDark_eq_ring {a b r c : Nat} (h : ring a b r c ≤ 4) :
    finderDark ((r : Int) - a + 3) ((c : Int) - b + 3) = decide (ring a b r c ∈ [0, 1, 3]) := by
  have hsquare : ∀ i < (9 : Nat), ∀ j < (9 : Nat), finderDark ((i : Int) - 4 + 3) ((j : Int) - 4 + 3) =
      decide (max ((i : Int) - 4).natAbs ((j : Int) - 4).natAbs ∈ [0, 1, 3]) := by decide
  unfold ring at *
  obtain ⟨i, hi⟩ := Int.eq_ofNat_of_zero_le (show 0 ≤ (r : Int) - a + 4 by omega)
  obtain ⟨j, hj⟩ := Int.eq_ofNat_of_zero_le (show 0 ≤ (c : Int) - b + 4 by omega)
  rw [eq_sub_of_add_eq hi, eq_sub_of_add_eq hj] at h ⊢
  exact hsquare i (by omega) j (by omega)

/-- The writes of a finder are the cells of the grid on the rings 0 to 4 around its centre. -/
theorem mem_finderCells {n a b r c : Nat} {d : Bool} (hr : r < n) (hc : c < n) :
    (r, c, d) ∈ finderCells n ((a : Int) - 3) ((b : Int) - 3) ↔
      ring a b r c ≤ 4 ∧ d = decide (ring a b r c ∈ [0, 1, 3]) := by
  have hring : ring a b r c ≤ 4 ↔ ((-1 ≤ (r : Int) - a + 3 ∧ (r : Int) - a + 3 < 8) ∧
      -1 ≤ (c : Int) - b + 3 ∧ (c : Int) - b + 3 < 8) := by unfold ring; omega
  simp only [finderCells, List.mem_flatMap, List.mem_filterMap, mem_intsFrom]
  constructor
  · rintro ⟨x, hx, y, hy, e⟩
    split at e
    · cases e
    · simp only [Option.some.injEq, Prod.mk.injEq] at e
      obtain ⟨er, ec, rfl⟩ := e
      obtain rfl : x = (r : Int) - a + 3 := by omega
      obtain rfl : y = (c : Int) - b + 3 := by omega
      have h4 := hring.mpr ⟨hx, hy⟩
      exact ⟨h4, finderDark_eq_ring h4⟩
  · rintro ⟨h4, rfl⟩
    obtain ⟨hx, hy⟩ := hring.mp h4
    refine ⟨_, hx, _, hy, ?_⟩
    rw [if_neg (by omega), finderDark_eq_ring h4]
    simp only [Option.some.injEq, Prod.mk.injEq, and_true]
    omega
/-- The three finders around their centres; the last in the order of R137 is drawn on top. -/
theorem cell_putFinders {n r c : Nat} {g : Grid} (hg : gridSquare n g) (hn : 4 ≤ n) (hr : r < n)
    (hc : c < n) : cell (putFinders n g) r c =
      if ring (n - 4) 3 r c ≤ 4 then ofDark (ring (n - 4) 3 r c ∈ [0, 1, 3])
      else if ring 3 (n - 4) r c ≤ 4 then ofDark (ring 3 (n - 4) r c ∈ [0, 1, 3])
      else if ring 3 3 r c ≤ 4 then ofDark (ring 3 3 r c ∈ [0, 1, 3]) else cell g r c := by
  have hcorner : (n : Int) - 7 = ((n - 4 : Nat) : Int) - 3 := by omega
  have hput : putFinders n g = paint (paint (paint g
      (finderCells n ((3 : Nat) - 3) ((3 : Nat) - 3)))
      (finderCells n ((3 : Nat) - 3) ((n - 4 : Nat) - 3)))
      (finderCells n ((n - 4 : Nat) - 3) ((3 : Nat) - 3)) := by
    rw [putFinders, hcorner]
    rfl
  have hg1 := gridSquare_paint hg (finderCells n ((3 : Nat) - 3) ((3 : Nat) - 3))
  have hg2 := gridSquare_paint hg1 (finderCells n ((3 : Nat) - 3) ((n - 4 : Nat) - 3))
  rw [hput, cell_paint_of_iff hg2 hr hc fun _ => mem_finderCells hr hc,
    cell_paint_of_iff hg1 hr hc fun _ => mem_finderCells hr hc,
    cell_paint_of_iff hg hr hc fun _ => mem_finderCells hr hc]

/-- The finders do not touch one another: no cell is within ring 4 of two of the centres. -/
theorem cell_putFinders_of_centres {n r c : Nat} {g : Grid} (hg : gridSquare n g) (hn : 21 ≤ n)
    (hr : r < n) (hc : c < n) :
    (∀ p ∈ [(3, 3), (3, n - 4), (n - 4, 3)], ring p.1 p.2 r c ≤ 4 →
      cell (putFinders n g) r c = ofDark (ring p.1 p.2 r c ∈ [0, 1, 3])) ∧
    ((∀ p ∈ [(3, 3), (3, n - 4), (n - 4, 3)], 4 < ring p.1 p.2 r c) →
      cell (putFinders n g) r c = cell g r c) := by
  rw [cell_putFinders hg (by omega) hr hc]
  simp only [List.forall_mem_cons, List.not_mem_nil, false_imp_iff, implies_true, and_true]
  have h12 : 8 < ring 3 3 3 (n - 4) := by unfold ring; omega
  have h13 : 8 < ring 3 3 (n - 4) 3 := by unfold ring; omega
  have h23 : 8 < ring 3 (n - 4) (n - 4) 3 := by unfold ring; omega
  have ht12 := ring_le_add 3 3 3 (n - 4) r c
  have ht13 := ring_le_add 3 3 (n - 4) 3 r c
  have ht23 := ring_le_add 3 (n - 4) (n - 4) 3 r c
  refine ⟨⟨fun h => ?_, fun h => ?_, fun h => ?_⟩, fun ⟨h1, h2, h3⟩ => ?_⟩
  · rw [if_neg (by omega), if_neg (by omega), if_pos h]
  · rw [if_neg (by omega), if_pos h]
  · rw [if_pos h]
  · rw [if_neg (Nat.not_le.mpr h3), if_neg (Nat.not_le.mpr h2), if_neg (Nat.not_le.mpr h1)]

theorem cell_putFinders_centre {n : Nat} {g : Grid} (hg : gridSquare n g) (hn : 21 ≤ n)
    {p : Nat × Nat} (hp : p ∈ [(3, 3), (3, n - 4), (n - 4, 3)]) :
    cell (putFinders n g) p.1 p.2 = .dark := by
  have hin : p.1 < n ∧ p.2 < n := by
    simp only [List.mem_cons, List.not_mem_nil, or_false] at hp
    rcases hp with rfl | rfl | rfl <;> constructor <;> omega
  have hself := ring_self p.1 p.2
  rw [(cell_putFinders_of_centres hg hn hin.1 hin.2).1 p hp (by omega), hself]
  rfl

/-- Settles O42 (`cell_putFinders_of_centres`). -/
theorem mxFindPlacesTheFinders : Obligations.MxFindPlacesTheFinders := by
  unfold Obligations.MxFindPlacesTheFinders
  exact ⟨fun s hinv hver => ⟨_, exec_mxFind hver, rfl, onlyChanges_setMatrix_same_ver _ _ s,
    fun r hr c hc => cell_putFinders_of_centres hinv.square (le_side_of_inv hinv hver) hr hc⟩,
    fun s h => if_pos h⟩

/-! ### Alignment patterns (R138 to R140) -/

/-- The colours of R138 are those of the rings around the centre. -/
theorem alignDark_eq_ring {a b r c : Nat} (h : ring a b r c ≤ 2) :
    alignDark ((r : Int) - a) ((c : Int) - b) = decide (ring a b r c ≠ 1) := by
  have hsquare : ∀ i < (5 : Nat), ∀ j < (5 : Nat), alignDark ((i : Int) - 2) ((j : Int) - 2) =
      decide (max ((i : Int) - 2).natAbs ((j : Int) - 2).natAbs ≠ 1) := by decide
  unfold ring at *
  obtain ⟨i, hi⟩ := Int.eq_ofNat_of_zero_le (show 0 ≤ (r : Int) - a + 2 by omega)
  obtain ⟨j, hj⟩ := Int.eq_ofNat_of_zero_le (show 0 ≤ (c : Int) - b + 2 by omega)
  rw [eq_sub_of_add_eq hi, eq_sub_of_add_eq hj] at h ⊢
  exact hsquare i (by omega) j (by omega)

/-- The writes of an alignment pattern are the cells on the rings 0 to 2 around its centre. -/
theorem mem_alignCells {a b r c : Nat} {d : Bool} (ha : 2 ≤ a) (hb : 2 ≤ b) :
    (r, c, d) ∈ alignCells a b ↔ ring a b r c ≤ 2 ∧ d = decide (ring a b r c ≠ 1) := by
  have hring : ring a b r c ≤ 2 ↔ ((-2 ≤ (r : Int) - a ∧ (r : Int) - a < 3) ∧
      -2 ≤ (c : Int) - b ∧ (c : Int) - b < 3) := by unfold ring; omega
  simp only [alignCells, List.mem_flatMap, List.mem_map, mem_intsFrom, Prod.mk.injEq]
  constructor
  · rintro ⟨x, hx, y, hy, er, ec, rfl⟩
    obtain rfl : x = (r : Int) - a := by omega
    obtain rfl : y = (c : Int) - b := by omega
    have h2 := hring.mpr ⟨hx, hy⟩
    exact ⟨h2, alignDark_eq_ring h2⟩
  · rintro ⟨h2, rfl⟩
    obtain ⟨hx, hy⟩ := hring.mp h2
    exact ⟨_, hx, _, hy, by omega, by omega, alignDark_eq_ring h2⟩

theorem gridSquare_putAlign {n : Nat} {g : Grid} (h : gridSquare n g) (p : Nat × Nat) :
    gridSquare n (putAlign g p) := by
  unfold putAlign
  split
  · exact gridSquare_paint h _
  · exact h

theorem putAlign_of_set {g : Grid} {p : Nat × Nat} (h : cell g p.1 p.2 ≠ .unset) :
    putAlign g p = g := if_neg h

/-- A pattern writes no cell beyond ring 2. -/
theorem cell_putAlign_of_far {g : Grid} {p : Nat × Nat} {r c : Nat} (hp : 2 ≤ p.1 ∧ 2 ≤ p.2)
    (h : 2 < ring p.1 p.2 r c) : cell (putAlign g p) r c = cell g r c := by
  unfold putAlign
  split
  · exact cell_paint_of_forall_not_mem
      (fun d hd => Nat.not_le.mpr h ((mem_alignCells hp.1 hp.2).mp hd).1) g
  · rfl

theorem cell_putAlign_of_near {n : Nat} {g : Grid} (hg : gridSquare n g) {p : Nat × Nat} {r c : Nat}
    (hr : r < n) (hc : c < n) (hp : 2 ≤ p.1 ∧ 2 ≤ p.2) (hu : cell g p.1 p.2 = .unset)
    (h : ring p.1 p.2 r c ≤ 2) : cell (putAlign g p) r c = ofDark (ring p.1 p.2 r c ≠ 1) := by
  rw [putAlign, if_pos hu, cell_paint_of_iff hg hr hc fun _ => mem_alignCells hp.1 hp.2, if_pos h]

/-- No cell lies on the rings 0 to 2 of both. -/
def AlignApart (p q : Nat × Nat) : Prop := 4 < ring p.1 p.2 q.1 q.2

theorem AlignApart.far {p q : Nat × Nat} {r c : Nat} (h : AlignApart p q)
    (hp : ring p.1 p.2 r c ≤ 2) : 2 < ring q.1 q.2 r c := by
  have htriangle := ring_le_add p.1 p.2 q.1 q.2 r c
  unfold AlignApart at h
  omega

/-- The patterns of pairwise separate centres: whether one is drawn is decided by its centre in the
grid at the beginning, for no other pattern reaches it. -/
theorem cell_foldl_putAlign {n r c : Nat} (hr : r < n) (hc : c < n) {ps : List (Nat × Nat)}
    (hps : ∀ p ∈ ps, 2 ≤ p.1 ∧ 2 ≤ p.2) (hapart : ps.Pairwise AlignApart) {g : Grid}
    (hg : gridSquare n g) :
    (∀ p ∈ ps, ring p.1 p.2 r c ≤ 2 → cell g p.1 p.2 = .unset →
      cell (ps.foldl putAlign g) r c = ofDark (ring p.1 p.2 r c ≠ 1)) ∧
    ((∀ p ∈ ps, ring p.1 p.2 r c ≤ 2 → cell g p.1 p.2 ≠ .unset) →
      cell (ps.foldl putAlign g) r c = cell g r c) := by
  induction ps generalizing g with
  | nil => exact ⟨nofun, fun _ => rfl⟩
  | cons p ps ih =>
    obtain ⟨hp2, hps⟩ := List.forall_mem_cons.mp hps
    obtain ⟨hp, hapart⟩ := List.pairwise_cons.mp hapart
    obtain ⟨ihnear, ihfar⟩ := ih hps hapart (gridSquare_putAlign hg p)
    have hcentre : ∀ q ∈ ps, cell (putAlign g p) q.1 q.2 = cell g q.1 q.2 := fun q hq =>
      cell_putAlign_of_far hp2 (by have := hp q hq; unfold AlignApart at this; omega)
    have hrest (hnear : ring p.1 p.2 r c ≤ 2) :
        cell (ps.foldl putAlign (putAlign g p)) r c = cell (putAlign g p) r c :=
      ihfar fun q hq hq2 => absurd hq2 (Nat.not_le.mpr ((hp q hq).far hnear))
    rw [List.foldl_cons]
    refine ⟨List.forall_mem_cons.mpr ⟨fun hnear hu => ?_, fun q hq hnear hu => ?_⟩, fun hset => ?_⟩
    · rw [hrest hnear, cell_putAlign_of_near hg hr hc hp2 hu hnear]
    · exact ihnear q hq hnear ((hcentre q hq).trans hu)
    · obtain ⟨hpset, hset⟩ := List.forall_mem_cons.mp hset
      rw [ihfar fun q hq hnear => (hcentre q hq).symm ▸ hset q hq hnear]
      by_cases hnear : ring p.1 p.2 r c ≤ 2
      · rw [putAlign_of_set (hpset hnear)]
      · exact cell_putAlign_of_far hp2 (Nat.not_le.mp hnear)

/-- No two patterns of a version overlap (R139). -/
theorem alignPairs_apart : ∀ v ≤ 10, (alignPairs v).Pairwise AlignApart := by
  unfold AlignApart
  decide

theorem six_le_alignPos : ∀ v ≤ 10, ∀ x ∈ alignPos v, 6 ≤ x := by decide

theorem mem_alignPairs {v : Nat} {p : Nat × Nat} :
    p ∈ alignPairs v ↔ p.1 ∈ alignPos v ∧ p.2 ∈ alignPos v := by
  obtain ⟨a, b⟩ := p
  simp [alignPairs]

theorem cell_putAligns {n v r c : Nat} {g : Grid} (hg : gridSquare n g) (hv : v ≤ 10) (hr : r < n)
    (hc : c < n) :
    (∀ p ∈ alignPairs v, ring p.1 p.2 r c ≤ 2 → cell g p.1 p.2 = .unset →
      cell (putAligns v g) r c = ofDark (ring p.1 p.2 r c ≠ 1)) ∧
    ((∀ p ∈ alignPairs v, ring p.1 p.2 r c ≤ 2 → cell g p.1 p.2 ≠ .unset) →
      cell (putAligns v g) r c = cell g r c) := by
  refine cell_foldl_putAlign hr hc (fun p hp => ?_) (alignPairs_apart v hv) hg
  obtain ⟨h1, h2⟩ := mem_alignPairs.mp hp
  have := six_le_alignPos v hv _ h1
  have := six_le_alignPos v hv _ h2
  omega

/-- Settles O43: the pairs of the statement are those of `alignPairs` (`cell_putAligns`). -/
theorem mxAlgnPlacesTheAlignmentPatterns : Obligations.MxAlgnPlacesTheAlignmentPatterns := by
  unfold Obligations.MxAlgnPlacesTheAlignmentPatterns
  refine ⟨fun s hinv hver => ⟨_, exec_mxAlgn hver, rfl, onlyChanges_setMatrix_same_ver _ _ s,
    fun r hr c hc => ?_⟩, fun s h => if_pos h⟩
  obtain ⟨hnear, hfar⟩ := cell_putAligns hinv.square hinv.verMax hr hc
  exact ⟨fun pr hpr pc hpc => hnear (pr, pc) (mem_alignPairs.mpr ⟨hpr, hpc⟩), fun h =>
    hfar fun p hp => h p.1 (mem_alignPairs.mp hp).1 p.2 (mem_alignPairs.mp hp).2⟩

/-! ### Timing patterns (R141) -/

/-- Setting the Unset cells of a list, each in the colour of its place: the order does not matter. -/
theorem cell_foldl_setIfUnset {n r c : Nat} (d : Nat → Nat → Bool) {ps : List (Nat × Nat)}
    (hps : ∀ p ∈ ps, p.1 < n ∧ p.2 < n) {g : Grid} (hg : gridSquare n g) :
    cell (ps.foldl (fun g p => setIfUnset g p.1 p.2 (d p.1 p.2)) g) r c =
      if (r, c) ∈ ps ∧ cell g r c = .unset then ofDark (d r c) else cell g r c := by
  induction ps generalizing g with
  | nil => simp
  | cons p ps ih =>
    obtain ⟨⟨h1, h2⟩, hps⟩ := List.forall_mem_cons.mp hps
    rw [List.foldl_cons, ih hps (gridSquare_setIfUnset hg ..), cell_setIfUnset hg h1 h2]
    obtain ⟨a, b⟩ := p
    by_cases hp : r = a ∧ c = b
    · obtain ⟨rfl, rfl⟩ := hp
      by_cases hu : cell g r c = .unset <;> simp [hu, ofDark_ne_unset]
    · have hne : (r, c) ≠ (a, b) := by simpa using hp
      simp only [← and_assoc, hp, false_and, if_false, List.mem_cons, hne, false_or]

theorem gridSquare_foldl_setIfUnset {n : Nat} (d : Nat → Nat → Bool) (ps : List (Nat × Nat))
    {g : Grid} (hg : gridSquare n g) :
    gridSquare n (ps.foldl (fun g p => setIfUnset g p.1 p.2 (d p.1 p.2)) g) :=
  foldl_keeps (P := gridSquare n) (fun _ _ h => gridSquare_setIfUnset h _ _ _) ps hg

/-- The cells of row 6, from the left. -/
def timingRow (n : Nat) : List (Nat × Nat) := (List.range n).map fun k => (6, k)

/-- The cells of column 6, from the top. -/
def timingCol (n : Nat) : List (Nat × Nat) := (List.range n).map fun k => (k, 6)

theorem mem_timingRow {n : Nat} {p : Nat × Nat} : p ∈ timingRow n ↔ p.1 = 6 ∧ p.2 < n := by
  obtain ⟨r, c⟩ := p
  simp only [timingRow, List.mem_map, List.mem_range, Prod.mk.injEq]
  exact ⟨fun ⟨k, hk, hr, hc⟩ => ⟨hr.symm, hc ▸ hk⟩, fun ⟨hr, hc⟩ => ⟨c, hc, hr.symm, rfl⟩⟩

theorem mem_timingCol {n : Nat} {p : Nat × Nat} : p ∈ timingCol n ↔ p.1 < n ∧ p.2 = 6 := by
  obtain ⟨r, c⟩ := p
  simp only [timingCol, List.mem_map, List.mem_range, Prod.mk.injEq]
  exact ⟨fun ⟨k, hk, hr, hc⟩ => ⟨hr ▸ hk, hc.symm⟩, fun ⟨hr, hc⟩ => ⟨r, hr, rfl, hc.symm⟩⟩

theorem putTiming_eq (n : Nat) (g : Grid) : putTiming n g =
    (timingCol n).foldl (fun g p => setIfUnset g p.1 p.2 (decide (p.1 % 2 = 0)))
      ((timingRow n).foldl (fun g p => setIfUnset g p.1 p.2 (decide (p.2 % 2 = 0))) g) := by
  rw [timingCol, timingRow, List.foldl_map, List.foldl_map]
  rfl

theorem cell_putTiming {n r c : Nat} {g : Grid} (hg : gridSquare n g) (h6 : 6 < n) (hr : r < n)
    (hc : c < n) : cell (putTiming n g) r c =
      if cell g r c = .unset ∧ r = 6 then ofDark (c % 2 = 0)
      else if cell g r c = .unset ∧ c = 6 then ofDark (r % 2 = 0)
      else cell g r c := by
  have hrow : ∀ p ∈ timingRow n, p.1 < n ∧ p.2 < n := fun p hp => by
    have := mem_timingRow.mp hp
    omega
  have hcol : ∀ p ∈ timingCol n, p.1 < n ∧ p.2 < n := fun p hp => by
    have := mem_timingCol.mp hp
    omega
  rw [putTiming_eq, cell_foldl_setIfUnset (fun r _ => decide (r % 2 = 0)) hcol
      (gridSquare_foldl_setIfUnset (fun _ c => decide (c % 2 = 0)) _ hg),
    cell_foldl_setIfUnset (fun _ c => decide (c % 2 = 0)) hrow hg]
  simp only [mem_timingRow, mem_timingCol, hr, hc, and_true, true_and]
  generalize cell g r c = m
  by_cases hu : m = .unset <;> by_cases h : r = 6 <;> simp [hu, h, ofDark_ne_unset]

/-- Settles O44: the lines are filled one after the other, and each skips what is set. -/
theorem mxTimePlacesTheTimingPatterns : Obligations.MxTimePlacesTheTimingPatterns := by
  unfold Obligations.MxTimePlacesTheTimingPatterns
  refine ⟨fun s hinv hver => ⟨_, exec_mxTime hver, rfl, onlyChanges_setMatrix_same_ver _ _ s,
    fun r hr c hc => ?_⟩, fun s h => if_pos h⟩
  have hside := le_side_of_inv hinv hver
  exact cell_putTiming hinv.square (by omega) hr hc

end Sys2Proof.Machine

namespace Sys2Proof.Machine

/-! ### Writes whose places are all different -/

/-- The cell that a write names. -/
def place (w : Nat × Nat × Bool) : Nat × Nat := (w.1, w.2.1)

/-- The places are different cells of an `n` by `n` grid. -/
def PlacesOk (n : Nat) (ps : List (Nat × Nat)) : Prop := ps.Nodup ∧ ∀ p ∈ ps, p.1 < n ∧ p.2 < n

theorem cell_paint_of_place_not_mem {ws : List (Nat × Nat × Bool)} {r c : Nat}
    (h : (r, c) ∉ ws.map place) (g : Grid) : cell (paint g ws) r c = cell g r c :=
  cell_paint_of_forall_not_mem (fun d hd => h (List.mem_map.mpr ⟨(r, c, d), hd, rfl⟩)) g

/-- With different places no write undoes another. -/
theorem cell_paint_of_placesOk {n r c : Nat} {d : Bool} {g : Grid} {ws : List (Nat × Nat × Bool)}
    (hg : gridSquare n g) (hws : PlacesOk n (ws.map place)) (h : (r, c, d) ∈ ws) :
    cell (paint g ws) r c = ofDark d := by
  obtain ⟨hnodup, hin⟩ := hws
  obtain ⟨hr, hc⟩ := hin (r, c) (List.mem_map.mpr ⟨_, h, rfl⟩)
  refine cell_paint_of_mem hr hc ws g hg (fun w hw hplace => ?_) ⟨_, h, rfl, rfl⟩
  have hsame : w = (r, c, d) :=
    List.inj_on_of_nodup_map hnodup hw h (Prod.ext hplace.1 hplace.2)
  rw [hsame]

/-! ### Format information (R142 to R144) -/

/-- The cells of the format information and the dark module, in the order of the writes (R143). -/
def fmtPlaces (n : Nat) : List (Nat × Nat) :=
  ((List.range 15).flatMap fun i => [(fmtCells n i).1, (fmtCells n i).2]) ++ [(n - 8, 8)]

theorem fmtWrites_places (n : Nat) (test : Bool) (mask : Nat) :
    (fmtWrites n test mask).map place = fmtPlaces n := by
  rw [fmtWrites, List.map_append, List.map_flatMap]
  rfl

theorem fmtPlaces_ok : ∀ v ∈ List.range' 1 10, PlacesOk (sideOf v) (fmtPlaces (sideOf v)) := by
  unfold PlacesOk
  decide +kernel

/-- Where the format information lies: columns and rows 8, less the timing patterns (R143). -/
theorem fmtPlaces_frame : ∀ v ∈ List.range' 1 10, ∀ p ∈ fmtPlaces (sideOf v),
    (p.2 = 8 ∧ (p.1 ≤ 8 ∧ p.1 ≠ 6 ∨ sideOf v - 8 ≤ p.1)) ∨
      (p.1 = 8 ∧ (p.2 ≤ 8 ∧ p.2 ≠ 6 ∨ sideOf v - 8 ≤ p.2)) := by decide +kernel

/-- The printed words (R142). -/
theorem bch15_eq_printed : ∀ mask < 8, bch15 (levelM * 8 + mask) =
    [0x5412, 0x5125, 0x5E7C, 0x5B4B, 0x45F9, 0x40CE, 0x4F97, 0x4AA0].getD mask 0 := by decide

section FmtCells

variable {n i : Nat}

theorem fmtCells_col_of_le_five (h : i ≤ 5) : (fmtCells n i).1 = (i, 8) := if_pos h

theorem fmtCells_col_of_le_seven (h6 : 6 ≤ i) (h : i ≤ 7) : (fmtCells n i).1 = (i + 1, 8) :=
  (if_neg (by omega)).trans (if_pos h)

theorem fmtCells_col_of_eight_le (h : 8 ≤ i) : (fmtCells n i).1 = (n - 15 + i, 8) :=
  (if_neg (by omega)).trans (if_neg (by omega))

theorem fmtCells_row_of_le_seven (h : i ≤ 7) : (fmtCells n i).2 = (8, n - 1 - i) := if_pos h

theorem fmtCells_row_of_eq_eight (h : i = 8) : (fmtCells n i).2 = (8, 7) :=
  (if_neg (by omega)).trans (if_pos h)

theorem fmtCells_row_of_nine_le (h : 9 ≤ i) : (fmtCells n i).2 = (8, 14 - i) :=
  (if_neg (by omega)).trans (if_neg (by omega))

end FmtCells

section PutFormat

variable {v : Nat} (hv : v ∈ List.range' 1 10) {g : Grid} (hg : gridSquare (sideOf v) g) (test : Bool)
  {mask : Nat}
include hv hg

theorem cell_putFormat_of_mem {r c : Nat} {d : Bool}
    (h : (r, c, d) ∈ fmtWrites (sideOf v) test mask) :
    cell (putFormat (sideOf v) test mask g) r c = ofDark d :=
  cell_paint_of_placesOk hg (fmtWrites_places .. ▸ fmtPlaces_ok v hv) h

/-- Bit `i` of the printed word stands in both copies. -/
theorem cell_putFormat_bit (hmask : mask < 8) {i : Nat} (hi : i < 15) {m : ModuleCode}
    (hm : m = ofDark (!test && ([0x5412, 0x5125, 0x5E7C, 0x5B4B, 0x45F9, 0x40CE, 0x4F97,
      0x4AA0].getD mask 0).testBit i)) :
    ∀ r c, (fmtCells (sideOf v) i).1 = (r, c) ∨ (fmtCells (sideOf v) i).2 = (r, c) →
      cell (putFormat (sideOf v) test mask g) r c = m := by
  intro r c hp
  rw [hm, ← bch15_eq_printed mask hmask]
  refine cell_putFormat_of_mem hv hg test (List.mem_append_left _
    (List.mem_flatMap.mpr ⟨i, List.mem_range.mpr hi, ?_⟩))
  simp only [List.mem_cons, Prod.mk.injEq]
  rcases hp with hp | hp <;> rw [hp] <;> simp

theorem cell_putFormat_dark : cell (putFormat (sideOf v) test mask g) (sideOf v - 8) 8 = .dark :=
  cell_putFormat_of_mem hv hg test (d := true) (List.mem_append_right _ List.mem_cons_self)

omit hg in
theorem cell_putFormat_frame {r c : Nat}
    (hcol : ¬(c = 8 ∧ (r ≤ 8 ∧ r ≠ 6 ∨ sideOf v - 8 ≤ r)))
    (hrow : ¬(r = 8 ∧ (c ≤ 8 ∧ c ≠ 6 ∨ sideOf v - 8 ≤ c))) :
    cell (putFormat (sideOf v) test mask g) r c = cell g r c := by
  refine cell_paint_of_place_not_mem (fun h => ?_) g
  rw [fmtWrites_places] at h
  exact (fmtPlaces_frame v hv (r, c) h).elim hcol hrow

end PutFormat

theorem mem_range'_of_versionOk {v : BitVec 4} (h : versionOk v = true) :
    v.toNat ∈ List.range' 1 10 := by
  have hrange := versionOk_iff.mp h
  exact List.mem_range'_1.mpr (by omega)

/-- Settles O45: the 31 places of the writes are different, so each keeps what it was given. -/
theorem mxFmtPlacesTheFormatInformation : Obligations.MxFmtPlacesTheFormatInformation := by
  unfold Obligations.MxFmtPlacesTheFormatInformation
  refine fun test mask s => ⟨fun hinv hver hmask => ⟨_, exec_mxFmt hver hmask test, rfl,
    onlyChanges_setMatrix_same_ver _ _ s, ?_⟩,
    fun hver hmask => exec_mxFmt_of_mask hver hmask test, fun h => if_pos h⟩
  have hv := mem_range'_of_versionOk (versionOk_of_inv hinv hver)
  have hg := hinv.square
  rw [side_of_ver_ne hver] at hg
  rw [setMatrix_mx, side_of_ver_ne hver]
  refine ⟨fun i hi m hm => ?_, cell_putFormat_dark hv hg test,
    fun r _ c _ => cell_putFormat_frame hv test⟩
  have hbit := cell_putFormat_bit hv hg test hmask hi hm
  exact ⟨fun h => hbit _ _ (.inl (fmtCells_col_of_le_five h)),
    fun h6 h => hbit _ _ (.inl (fmtCells_col_of_le_seven h6 h)),
    fun h => hbit _ _ (.inl (fmtCells_col_of_eight_le h)),
    fun h => hbit _ _ (.inr (fmtCells_row_of_le_seven h)),
    fun h => hbit _ _ (.inr (fmtCells_row_of_eq_eight h)),
    fun h => hbit _ _ (.inr (fmtCells_row_of_nine_le h))⟩

/-! ### Version information (R145, R146) -/

/-- The cells of the two blocks, in the order of the writes (R146). -/
def verPlaces (n : Nat) : List (Nat × Nat) :=
  (List.range 18).flatMap fun i => [(i / 3, n - 11 + i % 3), (n - 11 + i % 3, i / 3)]

theorem verWrites_places (n v : Nat) : (verWrites n v).map place = verPlaces n := by
  rw [verWrites, List.map_flatMap]
  rfl

theorem verPlaces_ok : ∀ v ∈ List.range' 7 4, PlacesOk (sideOf v) (verPlaces (sideOf v)) := by
  unfold PlacesOk
  decide +kernel

/-- The blocks of six by three cells beside the finders (R146). -/
theorem verPlaces_frame : ∀ v ∈ List.range' 7 4, ∀ p ∈ verPlaces (sideOf v),
    (p.1 < 6 ∧ sideOf v - 11 ≤ p.2 ∧ p.2 < sideOf v - 8) ∨
      (p.2 < 6 ∧ sideOf v - 11 ≤ p.1 ∧ p.1 < sideOf v - 8) := by decide

/-- The printed words (R145). -/
theorem bch18_eq_printed : ∀ v ∈ List.range' 7 4, bch18 v =
    [0x07C94, 0x085BC, 0x09A99, 0x0A4D3].getD (v - 7) 0 := by decide

section PutVersion

variable {n v : Nat} {g : Grid}

theorem putVersion_of_lt (h : v < 7) : putVersion n v g = g := if_neg (Nat.not_le.mpr h)

theorem putVersion_of_le (h : 7 ≤ v) : putVersion n v g = paint g (verWrites n v) := if_pos h

theorem cell_putVersion_bit (hv : v ∈ List.range' 7 4) (hg : gridSquare (sideOf v) g) {i : Nat}
    (hi : i < 18) {m : ModuleCode}
    (hm : m = ofDark (([0x07C94, 0x085BC, 0x09A99, 0x0A4D3].getD (v - 7) 0).testBit i)) :
    cell (putVersion (sideOf v) v g) (i / 3) (sideOf v - 11 + i % 3) = m ∧
      cell (putVersion (sideOf v) v g) (sideOf v - 11 + i % 3) (i / 3) = m := by
  have hplaces := verWrites_places (sideOf v) v ▸ verPlaces_ok v hv
  have hmem (w) (hw : w ∈ [(i / 3, sideOf v - 11 + i % 3, (bch18 v).testBit i),
      (sideOf v - 11 + i % 3, i / 3, (bch18 v).testBit i)]) : w ∈ verWrites (sideOf v) v :=
    List.mem_flatMap.mpr ⟨i, List.mem_range.mpr hi, hw⟩
  rw [hm, ← bch18_eq_printed v hv, putVersion_of_le (List.mem_range'_1.mp hv).1]
  exact ⟨cell_paint_of_placesOk hg hplaces (hmem _ List.mem_cons_self),
    cell_paint_of_placesOk hg hplaces (hmem _ (List.mem_cons_of_mem _ List.mem_cons_self))⟩

theorem cell_putVersion_frame (hv : v ∈ List.range' 1 10) {r c : Nat}
    (hr : ¬(r < 6 ∧ sideOf v - 11 ≤ c ∧ c < sideOf v - 8))
    (hc : ¬(c < 6 ∧ sideOf v - 11 ≤ r ∧ r < sideOf v - 8)) :
    cell (putVersion (sideOf v) v g) r c = cell g r c := by
  rw [List.mem_range'_1] at hv
  by_cases h7 : 7 ≤ v
  · rw [putVersion_of_le h7]
    refine cell_paint_of_place_not_mem (fun h => ?_) g
    rw [verWrites_places] at h
    exact (verPlaces_frame v (List.mem_range'_1.mpr (by omega)) (r, c) h).elim hr hc
  · rw [putVersion_of_lt (Nat.not_le.mp h7)]

end PutVersion

/-- Settles O46: the 36 places of the writes are different, so each keeps what it was given. -/
theorem mxVinfPlacesTheVersionInformation : Obligations.MxVinfPlacesTheVersionInformation := by
  unfold Obligations.MxVinfPlacesTheVersionInformation
  refine ⟨fun s hinv hver => ⟨_, exec_mxVinf hver, rfl, onlyChanges_setMatrix_same_ver _ _ s,
    putVersion_of_lt, fun h7 => ?_⟩, fun s h => if_pos h⟩
  have hv := mem_range'_of_versionOk (versionOk_of_inv hinv hver)
  have hg := hinv.square
  rw [side_of_ver_ne hver] at hg
  rw [setMatrix_mx, side_of_ver_ne hver]
  have hv7 : s.ver.toNat ∈ List.range' 7 4 := by
    rw [List.mem_range'_1] at hv ⊢
    omega
  exact ⟨fun i hi m hm => cell_putVersion_bit hv7 hg hi hm,
    fun r _ c _ => cell_putVersion_frame hv⟩

end Sys2Proof.Machine

namespace Sys2Proof.Machine

/-! ### The walk of `placedata` (R149) -/

/-- The right column of pair `k`, counted from the right: the pairs beyond column 6 are moved one
column to the left. -/
def pairCol (n k : Nat) : Nat := if 6 < n - 1 - 2 * k then n - 1 - 2 * k else n - 2 - 2 * k

theorem pairCols_eq : ∀ v ∈ List.range' 1 10,
    pairCols (sideOf v) (sideOf v - 1) = (List.range' 0 (2 * v + 8)).map (pairCol (sideOf v)) := by
  decide

/-- The row that pair `k` visits at turn `i`: the pairs of even number run upward from the bottom. -/
def turnRow (n k i : Nat) : Nat := if k % 2 = 0 then n - 1 - i else i

theorem pairCells_eq (n c k : Nat) : pairCells n c (k % 2 == 0) =
    (List.range n).flatMap fun i => [(turnRow n k i, c), (turnRow n k i, c - 1)] := by
  unfold pairCells turnRow
  by_cases hk : k % 2 = 0
  · simp [hk, List.range_eq_range', List.reverse_range', List.flatMap_map]
  · simp [hk]

/-- The place of a cell: `k` pairs, then `i` rows, then perhaps the right cell stand before it. -/
theorem visitsBefore_eq {n k i c b : Nat} (hc : n - 1 - (if c < 6 then c + 1 else c) = 2 * k + b)
    (hb : b < 2) (hi : i < n) : visitsBefore n (turnRow n k i) c = 2 * n * k + (2 * i + b) := by
  have hpair : (2 * k + b) / 2 = k := by omega
  have hside : (2 * k + b) % 2 = b := by omega
  have hturn : (if k % 2 = 0 then n - 1 - turnRow n k i else turnRow n k i) = i := by
    unfold turnRow
    split <;> omega
  simp only [visitsBefore, hc, hpair, hside, hturn, Nat.add_assoc]

/-- Two cells a row, one row after the other. -/
theorem flatMap_pair_eq_range' (a n : Nat) :
    ((List.range n).flatMap fun i => [a + (2 * i + 0), a + (2 * i + 1)]) = List.range' a (2 * n) := by
  induction n with
  | zero => rfl
  | succ n ih =>
    rw [List.range_succ, List.flatMap_append, ih, Nat.mul_succ, ← List.range'_append_1]
    rfl

/-- The cells of pair `k` stand at the places `2 * n * k` on. -/
theorem map_visitsBefore_pairCells {n k : Nat} (hn : n % 2 = 1) (hk : 2 * k + 2 < n) :
    (pairCells n (pairCol n k) (k % 2 == 0)).map (fun p => visitsBefore n p.1 p.2) =
      List.range' (2 * n * k) (2 * n) := by
  have hcol : n - 1 - (if pairCol n k < 6 then pairCol n k + 1 else pairCol n k) = 2 * k + 0 ∧
      n - 1 - (if pairCol n k - 1 < 6 then pairCol n k - 1 + 1 else pairCol n k - 1) = 2 * k + 1 := by
    unfold pairCol
    split <;> split <;> split <;> omega
  rw [pairCells_eq, List.map_flatMap, ← flatMap_pair_eq_range']
  refine List.flatMap_congr fun i hi => ?_
  have hi := List.mem_range.mp hi
  rw [List.map_cons, List.map_cons, List.map_nil, visitsBefore_eq hcol.1 (by decide) hi,
    visitsBefore_eq hcol.2 (by decide) hi]

theorem map_visitsBefore_dataCells {n : Nat} (hn : n % 2 = 1) (m k : Nat) (hk : 2 * (k + m) < n) :
    (dataCells n (k % 2 == 0) ((List.range' k m).map (pairCol n))).map
      (fun p => visitsBefore n p.1 p.2) = List.range' (2 * n * k) (2 * n * m) := by
  induction m generalizing k with
  | zero => rfl
  | succ m ih =>
    have hturn : (!(k % 2 == 0)) = ((k + 1) % 2 == 0) := by
      rw [Bool.eq_iff_iff]
      simp
      omega
    have hrest := ih (k + 1) (by omega)
    rw [List.range'_succ, List.map_cons, dataCells, hturn, List.map_append, hrest,
      map_visitsBefore_pairCells hn (by omega), Nat.mul_succ, List.range'_append_1, Nat.mul_succ,
      Nat.add_comm (2 * n)]

/-- The walk visits its cells in the order of their places. -/
theorem map_visitsBefore_dataOrder {v : Nat} (hv : v ∈ List.range' 1 10) :
    (dataOrder (sideOf v)).map (fun p => visitsBefore (sideOf v) p.1 p.2) =
      List.range' 0 (sideOf v * (sideOf v - 1)) := by
  have hodd : sideOf v % 2 = 1 := by unfold sideOf; omega
  have hlen : sideOf v * (sideOf v - 1) = 2 * sideOf v * (2 * v + 8) := by
    have : sideOf v - 1 = 2 * (2 * v + 8) := by unfold sideOf; omega
    rw [this]
    ring
  rw [dataOrder, pairCols_eq v hv, hlen]
  exact map_visitsBefore_dataCells hodd (2 * v + 8) 0 (by unfold sideOf; omega)

theorem dataOrder_length {v : Nat} (hv : v ∈ List.range' 1 10) :
    (dataOrder (sideOf v)).length = sideOf v * (sideOf v - 1) := by
  simpa using congrArg List.length (map_visitsBefore_dataOrder hv)

theorem dataOrder_nodup {v : Nat} (hv : v ∈ List.range' 1 10) : (dataOrder (sideOf v)).Nodup := by
  refine List.Nodup.of_map (fun p => visitsBefore (sideOf v) p.1 p.2) ?_
  rw [map_visitsBefore_dataOrder hv]
  exact List.nodup_range'

/-- A cell of the walk stands at its place. -/
theorem getElem?_dataOrder {v r c : Nat} (hv : v ∈ List.range' 1 10)
    (h : (r, c) ∈ dataOrder (sideOf v)) :
    (dataOrder (sideOf v))[visitsBefore (sideOf v) r c]? = some (r, c) := by
  obtain ⟨i, hi, hget⟩ := List.getElem_of_mem h
  have hplace : visitsBefore (sideOf v) r c = i := by
    have hmap := congrArg (·[i]?) (map_visitsBefore_dataOrder hv)
    rw [List.getElem?_map, List.getElem?_eq_getElem hi, hget,
      List.getElem?_range' (dataOrder_length hv ▸ hi)] at hmap
    simpa using hmap
  rw [hplace, List.getElem?_eq_getElem hi, hget]

theorem mem_dataOrder_bounds {v : Nat} (hv : v ∈ List.range' 1 10) {p : Nat × Nat}
    (h : p ∈ dataOrder (sideOf v)) : p.1 < sideOf v ∧ p.2 < sideOf v ∧ p.2 ≠ 6 := by
  obtain ⟨hr, q, hq, hc⟩ := (mem_dataCells _ _).mp h
  rw [pairCols_eq v hv] at hq
  obtain ⟨k, hk, rfl⟩ := List.mem_map.mp hq
  have hside : sideOf v = 4 * v + 17 := rfl
  rw [List.mem_range'_1] at hk
  refine ⟨hr, ?_⟩
  unfold pairCol at hc
  split at hc <;> omega

/-- Settles O47: the walk, mapped to the places that `visitsBefore` gives, is the list of the numbers
from 0 on, so it repeats no cell and has each at its place. -/
theorem placementWalkVisitsEachCellOnce : Obligations.PlacementWalkVisitsEachCellOnce := by
  unfold Obligations.PlacementWalkVisitsEachCellOnce
  rintro v hok n rfl
  have hv := mem_range'_of_versionOk hok
  obtain ⟨h1, h10⟩ := versionOk_iff.mp hok
  exact ⟨dataOrder_length hv, dataOrder_nodup hv, fun p => mem_dataOrder_bounds hv,
    fun r hr c hc h6 => getElem?_dataOrder hv (mem_dataOrder h1 h10 hr hc h6)⟩

end Sys2Proof.Machine

namespace Sys2Proof.Machine

/-! ### The data in the order of the walk (R149, R150) -/

/-- The colour that a cell gets from the bit placed in it, or from none (R149). -/
def dataColour (masked : Bool) (mask : Nat) (bit : Option Bool) (r c : Nat) : Bool :=
  match bit with
  | some b => b ^^ maskfn mask r c
  | none => masked && maskfn mask r c

/-- The cells of a list that are Unset in `g`. -/
def unsetIn (g : Grid) (l : List (Nat × Nat)) : List (Nat × Nat) :=
  l.filter fun p => cell g p.1 p.2 = .unset

theorem unsetOrder_eq (n : Nat) (g : Grid) : unsetOrder n g = unsetIn g (dataOrder n) := rfl

theorem unsetIn_cons_of_unset {g : Grid} {p : Nat × Nat} (h : cell g p.1 p.2 = .unset)
    (l : List (Nat × Nat)) : unsetIn g (p :: l) = p :: unsetIn g l :=
  List.filter_cons_of_pos (by simpa using h)

theorem unsetIn_cons_of_set {g : Grid} {p : Nat × Nat} (h : cell g p.1 p.2 ≠ .unset)
    (l : List (Nat × Nat)) : unsetIn g (p :: l) = unsetIn g l :=
  List.filter_cons_of_neg (by simpa using h)

theorem cell_setmod_self {n r c : Nat} {g : Grid} (hg : gridSquare n g) (hr : r < n) (hc : c < n)
    (d : Bool) : cell (setmod g r c d) r c = ofDark d := cell_setCell_self hg hr hc _

theorem cell_setmod_ne {g : Grid} {p : Nat × Nat} {r c : Nat} (h : (r, c) ≠ p) (d : Bool) :
    cell (setmod g p.1 p.2 d) r c = cell g r c := by
  refine cell_setCell_ne ?_ _
  rw [← not_and_or]
  exact fun e => h (Prod.ext e.1 e.2)

/-- Setting a cell that is not in the list leaves the list's Unset cells as they are. -/
theorem unsetIn_setmod {g : Grid} {p : Nat × Nat} {l : List (Nat × Nat)} (h : p ∉ l) (d : Bool) :
    unsetIn (setmod g p.1 p.2 d) l = unsetIn g l :=
  List.filter_congr fun q hq => by
    have hne : (q.1, q.2) ≠ p := fun e => h (e ▸ hq)
    rw [cell_setmod_ne hne]

section Walk

variable {masked : Bool} {mask : Nat}

theorem placeCell_of_unset {g : Grid} {p : Nat × Nat} (h : cell g p.1 p.2 = .unset)
    (bits : List Bool) :
    placeCell masked mask (g, bits) p =
      (setmod g p.1 p.2 (dataColour masked mask bits[0]? p.1 p.2), bits.tail) := by
  rw [placeCell, if_pos h]
  cases bits <;> rfl

theorem placeCell_of_set {g : Grid} {p : Nat × Nat} (h : cell g p.1 p.2 ≠ .unset) (bits : List Bool) :
    placeCell masked mask (g, bits) p = (g, bits) := if_neg h

/-- Over a walk that comes to no cell twice, the `k`-th Unset cell takes bit `k`, and no other cell
changes. -/
theorem cell_foldl_placeCell {n : Nat} {l : List (Nat × Nat)} (hnodup : l.Nodup)
    (hin : ∀ p ∈ l, p.1 < n ∧ p.2 < n) {g : Grid} (hg : gridSquare n g) (bits : List Bool) :
    (∀ (k : Nat) (p : Nat × Nat), (unsetIn g l)[k]? = some p →
      cell (l.foldl (placeCell masked mask) (g, bits)).1 p.1 p.2 =
        ofDark (dataColour masked mask bits[k]? p.1 p.2)) ∧
    ∀ r c, (r, c) ∉ unsetIn g l →
      cell (l.foldl (placeCell masked mask) (g, bits)).1 r c = cell g r c := by
  induction l generalizing g bits with
  | nil => exact ⟨nofun, fun _ _ _ => rfl⟩
  | cons q l ih =>
    obtain ⟨hq, hnodup⟩ := List.nodup_cons.mp hnodup
    obtain ⟨⟨hq1, hq2⟩, hin⟩ := List.forall_mem_cons.mp hin
    rw [List.foldl_cons]
    by_cases hu : cell g q.1 q.2 = .unset
    · rw [placeCell_of_unset hu, unsetIn_cons_of_unset hu]
      obtain ⟨hbit, hframe⟩ := ih hnodup hin (gridSquare_setmod hg ..) bits.tail
      rw [unsetIn_setmod hq] at hbit hframe
      have hq' : q ∉ unsetIn g l := fun h => hq (List.mem_of_mem_filter h)
      refine ⟨fun k p hp => ?_, fun r c h => ?_⟩
      · cases k with
        | zero =>
          obtain rfl : q = p := by simpa using hp
          rw [hframe _ _ hq', cell_setmod_self hg hq1 hq2]
        | succ k => rw [hbit k p hp, List.getElem?_tail]
      · rw [List.mem_cons, not_or] at h
        rw [hframe r c h.2, cell_setmod_ne h.1]
    · rw [placeCell_of_set hu, unsetIn_cons_of_set hu]
      exact ih hnodup hin hg bits

end Walk

/-- The bits of the codewords, bit 7 of each first (20_memory.md R44). -/
theorem getElem?_codewordBits (cw : List Byte) (k : Nat) : (codewordBits cw)[k]? =
    if k < 8 * cw.length then some ((cw.getD (k / 8) 0#8).getMsbD (k % 8)) else none := by
  induction cw generalizing k with
  | nil => rfl
  | cons b cw ih =>
    have hcons : codewordBits (b :: cw) = (List.range 8).map b.getMsbD ++ codewordBits cw := rfl
    rw [hcons, List.getElem?_append, List.length_map, List.length_range, List.length_cons]
    by_cases hk : k < 8
    · have hdiv : k / 8 = 0 := by omega
      have hmod : k % 8 = k := by omega
      rw [if_pos hk, if_pos (by omega), hdiv, hmod]
      simp [hk]
    · have hdiv : k / 8 = (k - 8) / 8 + 1 := by omega
      have hmod : (k - 8) % 8 = k % 8 := by omega
      have hlen : k - 8 < 8 * cw.length ↔ k < 8 * (cw.length + 1) := by omega
      rw [if_neg hk, ih, hdiv, List.getD_cons_succ, hmod]
      simp only [hlen]

section PlaceData

variable {v : Nat} (hv : v ∈ List.range' 1 10) {g : Grid} (hg : gridSquare (sideOf v) g)
  (masked : Bool) (mask : Nat) (cw : List Byte)
include hv hg

/-- What the walk does to every cell. -/
theorem cell_placeWalk :
    (∀ (k : Nat) (p : Nat × Nat), (unsetOrder (sideOf v) g)[k]? = some p →
      cell (placeWalk masked (sideOf v) mask cw g) p.1 p.2 =
        ofDark (dataColour masked mask (codewordBits cw)[k]? p.1 p.2)) ∧
    ∀ r c, (r, c) ∉ unsetOrder (sideOf v) g →
      cell (placeWalk masked (sideOf v) mask cw g) r c = cell g r c :=
  cell_foldl_placeCell (dataOrder_nodup hv)
    (fun _ hp => ⟨(mem_dataOrder_bounds hv hp).1, (mem_dataOrder_bounds hv hp).2.1⟩) hg _

/-- A cell of the walk gets its colour from the walk: column 6 is filled apart. -/
theorem cell_placeData_of_unsetOrder {k : Nat} {p : Nat × Nat}
    (hp : (unsetOrder (sideOf v) g)[k]? = some p) :
    cell (placeData masked (sideOf v) mask cw g) p.1 p.2 =
      ofDark (dataColour masked mask (codewordBits cw)[k]? p.1 p.2) := by
  have hmem := List.mem_of_mem_filter (List.mem_of_getElem? hp)
  obtain ⟨-, -, h6⟩ := mem_dataOrder_bounds hv hmem
  rw [placeData, cell_fillColumn6 (gridSquare_placeWalk hg) (by unfold sideOf; omega),
    if_neg (fun h => h6 h.2.1), (cell_placeWalk hv hg masked mask cw).1 k p hp]

/-- A cell that the walk does not fill changes only if it is an Unset cell of column 6. -/
theorem cell_placeData_of_not_mem {r c : Nat} (h : (r, c) ∉ unsetOrder (sideOf v) g) :
    cell (placeData masked (sideOf v) mask cw g) r c =
      if r < sideOf v ∧ c = 6 ∧ cell g r c = .unset then ofDark (masked && maskfn mask r 6)
      else cell g r c := by
  rw [placeData, cell_fillColumn6 (gridSquare_placeWalk hg) (by unfold sideOf; omega),
    (cell_placeWalk hv hg masked mask cw).2 r c h]

omit hg in
theorem col6_not_mem_unsetOrder (r : Nat) : (r, 6) ∉ unsetOrder (sideOf v) g := fun h =>
  (mem_dataOrder_bounds hv (List.mem_of_mem_filter h)).2.2 rfl

theorem cell_placeData_of_set {r c : Nat} (h : cell g r c ≠ .unset) :
    cell (placeData masked (sideOf v) mask cw g) r c = cell g r c := by
  rw [cell_placeData_of_not_mem hv hg masked mask cw, if_neg (fun hu => h hu.2.2)]
  exact fun hmem => h (by simpa using (List.mem_filter.mp hmem).2)

end PlaceData

/-- Settles O48: the walk fills its Unset cells in order (`cell_foldl_placeCell`), and column 6 is
filled after it. -/
theorem mxDataFillsTheUnsetCellsInOrder : Obligations.MxDataFillsTheUnsetCellsInOrder := by
  unfold Obligations.MxDataFillsTheUnsetCellsInOrder
  refine fun mask s => ⟨fun hinv hver hmask => ⟨_, exec_mxData hver hmask, rfl,
    onlyChanges_setMatrix_same_ver _ _ s, ?_⟩,
    fun hver hmask => exec_mxData_of_mask hver hmask, fun h => if_pos h⟩
  have hv := mem_range'_of_versionOk (versionOk_of_inv hinv hver)
  have hg := hinv.square
  rw [side_of_ver_ne hver] at hg
  rw [setMatrix_mx, side_of_ver_ne hver]
  refine ⟨fun k p hp => ?_, fun r hr hu => ?_, fun r c hmem h6 => ?_⟩
  · rw [cell_placeData_of_unsetOrder hv hg _ _ _ hp, getElem?_codewordBits, State.cwLen]
    split <;> rfl
  · rw [cell_placeData_of_not_mem hv hg _ _ _ (col6_not_mem_unsetOrder hv r),
      if_pos ⟨hr, rfl, hu⟩]
  · rw [cell_placeData_of_not_mem hv hg _ _ _ hmem,
      if_neg fun ⟨hr, hc, hu⟩ => h6 ⟨hc, hr, hu⟩]

end Sys2Proof.Machine

namespace Sys2Proof.Machine

/-! ### The whole build (R151) -/

theorem side_setMatrix {v : BitVec 4} (h : v ≠ 0#4) (g : Grid) (fin : Bool) (s : State) :
    side (setMatrix v g fin s) = sideOf v.toNat := if_neg h

theorem setMatrix_setMatrix (v w : BitVec 4) (g k : Grid) (fin fin' : Bool) (s : State) :
    setMatrix v g fin (setMatrix w k fin' s) = setMatrix v g fin s := rfl

/-- Settles O49: each command of the sequence replaces the grid by the next stage of `buildGrid`. -/
theorem mxBuildEqualsTheSequence : Obligations.MxBuildEqualsTheSequence := by
  unfold Obligations.MxBuildEqualsTheSequence
  refine ⟨fun v test mask s hok =>
      ⟨fun hmask => ?_, fun hmask => exec_mxBuild_of_mask hmask v test s⟩,
    fun v test mask s s' t t' hcw hmask h h' => ?_⟩
  · have hv := ver_ne_zero_of_versionOk hok
    have ⟨h1, h10⟩ := versionOk_iff.mp hok
    refine ⟨_, _, _, _, _, _, _, exec_mxInit v s, exec_mxFind hv, exec_mxAlgn hv, exec_mxTime hv,
      exec_mxFmt hv hmask test, exec_mxVinf hv, exec_mxData hv hmask, ?_⟩
    simp only [setMatrix_ver, setMatrix_mx, setMatrix_cw, side_setMatrix hv, setMatrix_setMatrix]
    exact ⟨exec_mxBuild hmask v test s, hasUnset_buildGrid s.cw h1 h10, onlyChanges_setMatrix _ _ _ s⟩
  · rw [exec_mxBuild hmask] at h h'
    obtain rfl := next_inj h
    obtain rfl := next_inj h'
    exact ⟨congrArg (buildGrid Config.remainderMasked v.toNat test mask.toNat) hcw, rfl, rfl⟩

/-- A set cell in row 3 or column 3 of the finders' grid is out of the reach of all later patterns. -/
theorem cell_functionPatterns_of_finders {v r c : Nat} (hv : v ∈ List.range' 1 10) (test : Bool)
    (mask : Nat) (hr : r < sideOf v) (hc : c < sideOf v) (h3 : r = 3 ∨ c = 3) (h8 : r ≠ 8 ∧ c ≠ 8)
    (hver : ¬(sideOf v - 11 ≤ c ∧ c < sideOf v - 8) ∧ ¬(sideOf v - 11 ≤ r ∧ r < sideOf v - 8))
    (hset : cell (putFinders (sideOf v) (blankGrid (sideOf v))) r c ≠ .unset) :
    cell (functionPatterns v test mask) r c =
      cell (putFinders (sideOf v) (blankGrid (sideOf v))) r c := by
  have hv10 : v ≤ 10 := by
    rw [List.mem_range'_1] at hv
    omega
  have hfind : gridSquare (sideOf v) (putFinders (sideOf v) (blankGrid (sideOf v))) :=
    gridSquare_putFinders (gridSquare_blankGrid _)
  have halign : cell (putAligns v (putFinders (sideOf v) (blankGrid (sideOf v)))) r c =
      cell (putFinders (sideOf v) (blankGrid (sideOf v))) r c := by
    refine (cell_putAligns hfind hv10 hr hc).2 fun p hp hnear => ?_
    obtain ⟨h1, h2⟩ := mem_alignPairs.mp hp
    have := six_le_alignPos v hv10 _ h1
    have := six_le_alignPos v hv10 _ h2
    unfold ring at hnear
    omega
  rw [functionPatterns, cell_putVersion_frame hv (fun h => hver.1 h.2) (fun h => hver.2 h.2),
    cell_putFormat_frame hv test (fun h => h8.2 h.1) (fun h => h8.1 h.1),
    cell_putTiming (gridSquare_putAligns hfind) (by unfold sideOf; omega) hr hc, halign,
    if_neg (fun h => hset h.1), if_neg (fun h => hset h.1)]

theorem cell_functionPatterns_centre {v : Nat} (hv : v ∈ List.range' 1 10) (test : Bool) (mask : Nat)
    {p : Nat × Nat} (hp : p ∈ [(3, 3), (3, sideOf v - 4), (sideOf v - 4, 3)]) :
    cell (functionPatterns v test mask) p.1 p.2 = .dark := by
  have hn : 21 ≤ sideOf v := by
    rw [List.mem_range'_1] at hv
    unfold sideOf
    omega
  have hdark := cell_putFinders_centre (gridSquare_blankGrid (sideOf v)) hn hp
  rw [← hdark]
  simp only [List.mem_cons, List.not_mem_nil, or_false] at hp
  refine cell_functionPatterns_of_finders hv test mask ?_ ?_ ?_ ?_ ?_ (hdark ▸ nofun) <;>
    rcases hp with rfl | rfl | rfl <;> dsimp only <;> omega

/-- The dark module lies outside the version blocks (R143, R146). -/
theorem cell_functionPatterns_dark {v : Nat} (hv : v ∈ List.range' 1 10) (test : Bool) (mask : Nat) :
    cell (functionPatterns v test mask) (sideOf v - 8) 8 = .dark := by
  have hg : gridSquare (sideOf v) (putTiming (sideOf v) (putAligns v (putFinders (sideOf v)
      (blankGrid (sideOf v))))) :=
    gridSquare_putTiming (gridSquare_putAligns (gridSquare_putFinders (gridSquare_blankGrid _)))
  have h6 : 6 ≤ sideOf v - 8 := by unfold sideOf; omega
  rw [functionPatterns, cell_putVersion_frame hv (by omega) (by omega),
    cell_putFormat_dark hv hg test]

theorem cell_buildGrid_of_dark {v r c : Nat} (hv : v ∈ List.range' 1 10) {masked test : Bool}
    {mask : Nat} (cw : List Byte) (h : cell (functionPatterns v test mask) r c = .dark) :
    cell (buildGrid masked v test mask cw) r c = .dark := by
  rw [buildGrid, cell_placeData_of_set hv (gridSquare_functionPatterns ..) _ _ _ (h ▸ nofun), h]

/-- Settles O50: the data fills every cell that is left and changes none of the patterns' cells. -/
theorem finishedBuildIsComplete : Obligations.FinishedBuildIsComplete := by
  unfold Obligations.FinishedBuildIsComplete
  intro v test mask s hok hmask
  have hv := mem_range'_of_versionOk hok
  have ⟨h1, h10⟩ := versionOk_iff.mp hok
  have hcentre := fun p hp => cell_buildGrid_of_dark (masked := Config.remainderMasked) hv s.cw
    (cell_functionPatterns_centre hv test mask.toNat (p := p) hp)
  exact ⟨_, exec_mxBuild hmask v test s, gridSquare_buildGrid _ _ _ _ _,
    fun r hr c hc => cell_buildGrid_ne_unset s.cw h1 h10 hr hc,
    cell_buildGrid_of_dark hv s.cw (cell_functionPatterns_dark hv test mask.toNat),
    hcentre (3, 3) (by simp), hcentre (3, sideOf v.toNat - 4) (by simp),
    hcentre (sideOf v.toNat - 4, 3) (by simp), rfl⟩

end Sys2Proof.Machine

namespace Sys2Proof.Machine

/-! ### The cells that the function patterns leave (R154) -/

/-- Which cells of a grid are Unset. -/
def unsetMap (g : Grid) : List (List Bool) := g.map fun row => row.map (· == .unset)

theorem sum_countP_unset (g : Grid) : (g.map fun row => row.countP (· == .unset)).sum =
    ((unsetMap g).map (List.count true)).sum := by
  rw [unsetMap, List.map_map]
  congr 1
  refine List.map_congr_left fun row _ => ?_
  simp [List.count, List.countP_map, Function.comp_def]

/-- A write sets its cell, whatever the colour. -/
theorem unsetMap_setmod (g : Grid) (r c : Nat) (d : Bool) :
    unsetMap (setmod g r c d) = (unsetMap g).modify r fun row => row.set c false := by
  have hcolour : ((if d then ModuleCode.dark else .light) == .unset) = false := by cases d <;> rfl
  refine List.ext_getElem? fun i => ?_
  simp only [unsetMap, setmod, setCell, List.getElem?_map, List.getElem?_modify]
  by_cases hi : r = i
  · simp [hi, Function.comp_def, List.map_set, hcolour]
  · simp [hi]

theorem unsetMap_paint (ws : List (Nat × Nat × Bool)) (g : Grid) : unsetMap (paint g ws) =
    (ws.map place).foldl (fun m p => m.modify p.1 fun row => row.set p.2 false) (unsetMap g) := by
  induction ws generalizing g with
  | nil => rfl
  | cons w ws ih => exact (ih _).trans (by rw [unsetMap_setmod]; rfl)

/-- The mode and the mask choose colours, not cells. -/
theorem unsetMap_functionPatterns (v : Nat) (test : Bool) (mask : Nat) :
    unsetMap (functionPatterns v test mask) = unsetMap (functionPatterns v false 0) := by
  have hfmt (g : Grid) : unsetMap (putFormat (sideOf v) test mask g) =
      unsetMap (putFormat (sideOf v) false 0 g) := by
    rw [putFormat, putFormat, unsetMap_paint, unsetMap_paint, fmtWrites_places, fmtWrites_places]
  rw [functionPatterns, functionPatterns]
  by_cases h : 7 ≤ v
  · rw [putVersion_of_le h, putVersion_of_le h, unsetMap_paint, unsetMap_paint, hfmt]
  · rw [putVersion_of_lt (Nat.not_le.mp h), putVersion_of_lt (Nat.not_le.mp h), hfmt]

/-- The counts that R154 derives, from the grids of the ten versions. -/
theorem count_unsetMap_functionPatterns : ∀ v ∈ List.range' 1 10,
    ((unsetMap (functionPatterns v false 0)).map (List.count true)).sum =
      [208, 359, 567, 807, 1079, 1383, 1568, 1936, 2336, 2768].getD (v - 1) 0 := by
  decide +kernel

/-- The counts of R154 are the codeword bits of R121 and the remainder bits. -/
theorem unset_counts_eq_totalcw : ∀ v ∈ List.range' 1 10,
    [208, 359, 567, 807, 1079, 1383, 1568, 1936, 2336, 2768].getD (v - 1) 0 =
      8 * totalcw v + [0, 7, 7, 7, 7, 7, 0, 0, 0, 0].getD (v - 1) 0 := by decide

/-- Settles O51: which cells are left depends on the version only, and ten grids are counted. -/
theorem functionPatternsLeaveTheDataCells : Obligations.FunctionPatternsLeaveTheDataCells := by
  unfold Obligations.FunctionPatternsLeaveTheDataCells
  intro v mask test h1 h10 _
  have hv : v ∈ List.range' 1 10 := List.mem_range'_1.mpr (by omega)
  rw [sum_countP_unset, unsetMap_functionPatterns, count_unsetMap_functionPatterns v hv]
  exact ⟨rfl, unset_counts_eq_totalcw v hv⟩

end Sys2Proof.Machine

namespace Sys2Proof.Machine

/-! ### The lines of a grid (45_mask_selection.md R161) -/

/-- The columns of rows given by a colour function, whichever rows are taken. -/
theorem foldr_zipWith_cons_rows (n : Nat) (f : Nat → Nat → Bool) (rows : List Nat) :
    (rows.map fun r => (List.range n).map (f r)).foldr (List.zipWith List.cons)
      (List.replicate n []) = (List.range n).map fun c => rows.map fun r => f r c := by
  induction rows with
  | nil => simp
  | cons r rows ih =>
    rw [List.map_cons, List.foldr_cons, ih, List.zipWith_map, List.zipWith_self]
    rfl

@[simp] theorem gridOf_length (n : Nat) (f : Nat → Nat → Bool) : (gridOf n f).length = n := by
  simp [gridOf]

theorem columns_gridOf (n : Nat) (f : Nat → Nat → Bool) :
    columns (gridOf n f) = gridOf n fun r c => f c r := by
  rw [columns, gridOf_length]
  exact foldr_zipWith_cons_rows n f (List.range n)

theorem linesOf_gridOf (n : Nat) (f : Nat → Nat → Bool) : linesOf (gridOf n f) = linesSpec n f := by
  rw [linesOf, columns_gridOf, linesSpec]

theorem length_of_mem_gridOf {n : Nat} {f : Nat → Nat → Bool} {row : List Bool}
    (h : row ∈ gridOf n f) : row.length = n := by
  obtain ⟨r, -, rfl⟩ := List.mem_map.mp h
  simp

theorem length_of_mem_linesSpec {n : Nat} {f : Nat → Nat → Bool} {line : List Bool}
    (h : line ∈ linesSpec n f) : line.length = n :=
  (List.mem_append.mp h).elim length_of_mem_gridOf length_of_mem_gridOf

@[simp] theorem linesSpec_length (n : Nat) (f : Nat → Nat → Bool) :
    (linesSpec n f).length = 2 * n := by
  simp [linesSpec, Nat.two_mul]

/-! ### Runs (R161) -/

/-- The library's splitting, read for its lengths, keeps the run at hand as `runsFrom` does. -/
theorem map_length_splitBy_loop (line : List Bool) (x : Bool) (run : List Bool)
    (done : List (List Bool)) : (List.splitBy.loop (· == ·) line x run done).map List.length =
      (done.map List.length).reverse ++ runsFrom x (run.length + 1) line := by
  induction line generalizing x run done with
  | nil => simp [List.splitBy.loop, runsFrom]
  | cons y line ih =>
    by_cases h : y = x
    · subst h
      simp [List.splitBy.loop, runsFrom, ih]
    · have hbeq : (x == y) = false := beq_eq_false_iff_ne.mpr (Ne.symm h)
      simp [List.splitBy.loop, runsFrom, ih, h, hbeq]

theorem runs_eq_splitBy (line : List Bool) :
    runs line = (line.splitBy (· == ·)).map List.length := by
  cases line with
  | nil => rfl
  | cons x line => exact (map_length_splitBy_loop line x [] []).symm

/-- A run shorter than 5 costs nothing, so only the longer ones need be summed. -/
theorem sum_runCost_eq (lens : List Nat) : (lens.map runCost).sum =
    ((lens.filter fun len => 5 ≤ len).map fun len => 3 + (len - 5)).sum := by
  induction lens with
  | nil => rfl
  | cons len lens ih =>
    by_cases h : 5 ≤ len
    · simp [runCost, h, ih]
    · simp [runCost, h, ih]

/-- What a line costs in N1 by its maximal runs. -/
theorem sum_runCost_runs (line : List Bool) : ((runs line).map runCost).sum =
    (((line.splitBy (· == ·)).filter fun run => 5 ≤ run.length).map fun run =>
      3 + (run.length - 5)).sum := by
  rw [runs_eq_splitBy, sum_runCost_eq, List.filter_map, List.map_map]
  rfl

/-! ### Finder-like windows (R163) -/

theorem finderLike_isPrefixOf (line : List Bool) :
    finderLike.isPrefixOf line = (line.take 7 == finderLike) := by
  rw [Bool.eq_iff_iff, List.isPrefixOf_iff_prefix, List.prefix_iff_eq_take, beq_iff_eq, eq_comm]
  rfl

theorem windowsIn_eq_countP (line : List Bool) : windowsIn line =
    (List.range (line.length - 6)).countP fun s => (line.drop s).take 7 == finderLike := by
  induction line with
  | nil => rfl
  | cons x line ih =>
    rw [windowsIn, ih, finderLike_isPrefixOf]
    by_cases h : 6 ≤ line.length
    · rw [List.length_cons, show line.length + 1 - 6 = line.length - 6 + 1 by omega,
        List.range_succ_eq_map, List.countP_cons, List.countP_map, Nat.add_comm]
      rfl
    · have hshort : ((x :: line).take 7 == finderLike) = false :=
        beq_eq_false_iff_ne.mpr fun e => h (by
          have := congrArg List.length e
          simp [finderLike] at this
          omega)
      rw [hshort, List.length_cons, show line.length - 6 = 0 by omega,
        show line.length + 1 - 6 = 0 by omega]
      rfl

/-- Settles O53: the machine's lines are the rows and columns, its runs are those of the library's
splitting, and its count of prefixes runs over the starts. -/
theorem linePenaltiesCountRunsAndWindows : Obligations.LinePenaltiesCountRunsAndWindows := by
  unfold Obligations.LinePenaltiesCountRunsAndWindows
  intro n f
  rw [scoreN1, scoreN3, linesOf_gridOf]
  constructor
  · exact congrArg List.sum (List.map_congr_left fun line _ => sum_runCost_runs line)
  · refine congrArg (40 * List.sum ·) (List.map_congr_left fun line h => ?_)
    rw [windowsIn_eq_countP, length_of_mem_linesSpec h]
    rfl

end Sys2Proof.Machine

namespace Sys2Proof.Machine

/-! ### Uniform blocks (R162) -/

/-- The blocks of two rows given by colour functions. -/
theorem blocksIn_map_range (n : Nat) (f g : Nat → Bool) :
    blocksIn ((List.range n).map f) ((List.range n).map g) =
      ∑ c ∈ Finset.range (n - 1),
        if f c = f (c + 1) ∧ f c = g c ∧ f c = g (c + 1) then 1 else 0 := by
  induction n generalizing f g with
  | zero => rfl
  | succ n ih =>
    cases n with
    | zero => rfl
    | succ n =>
      have htail := ih (f ∘ Nat.succ) (g ∘ Nat.succ)
      simp only [List.range_succ_eq_map, List.map_cons, List.map_map, Nat.add_sub_cancel] at htail ⊢
      rw [Finset.sum_range_succ', Nat.add_comm, blocksIn]
      exact congrArg _ htail

/-- The blocks of rows given by number are those of each two adjacent rows. -/
theorem blocksOf_map_range (n : Nat) (row : Nat → List Bool) :
    blocksOf ((List.range n).map row) =
      ∑ r ∈ Finset.range (n - 1), blocksIn (row r) (row (r + 1)) := by
  induction n generalizing row with
  | zero => rfl
  | succ n ih =>
    cases n with
    | zero => rfl
    | succ n =>
      have htail := ih (row ∘ Nat.succ)
      simp only [List.range_succ_eq_map, List.map_cons, List.map_map, Nat.add_sub_cancel] at htail ⊢
      rw [Finset.sum_range_succ', Nat.add_comm, blocksOf]
      exact congrArg _ htail

theorem blocksOf_gridOf (n : Nat) (f : Nat → Nat → Bool) : blocksOf (gridOf n f) =
    ((Finset.range (n - 1) ×ˢ Finset.range (n - 1)).filter fun p =>
      f p.1 p.2 = f p.1 (p.2 + 1) ∧ f p.1 p.2 = f (p.1 + 1) p.2 ∧
        f p.1 p.2 = f (p.1 + 1) (p.2 + 1)).card := by
  rw [gridOf, blocksOf_map_range, Finset.card_filter, Finset.sum_product]
  exact Finset.sum_congr rfl fun r _ => blocksIn_map_range n _ _

/-! ### The balance of colours (R164) -/

theorem darkCount_eq_count (m : List (List Bool)) : darkCount m = m.flatten.count true :=
  (List.countP_flatten ..).symm

/-- R164's formula, multiplied through by `n^2 / 5`, has no rounding before the floor. -/
theorem percentage_eq_div {d n : Nat} (hn : 0 < n) : |100 * (d : ℚ) / (n * n : ℚ) - 50| / 5 =
    ((20 * d - 10 * (n * n : Nat) : Int).natAbs : ℚ) / ((n * n : Nat) : ℚ) := by
  have hpos : (0 : ℚ) < n * n := by positivity
  have hfive : 100 * (d : ℚ) / (n * n) - 50 = 5 * ((20 * d - 10 * (n * n)) / (n * n)) := by
    field_simp
    ring
  rw [hfive, abs_mul, abs_div, abs_of_pos hpos, abs_of_pos (by norm_num : (0 : ℚ) < 5),
    mul_div_cancel_left₀ _ (by norm_num : (5 : ℚ) ≠ 0), Nat.cast_natAbs]
  push_cast
  rfl

/-- Settles O54: the blocks are counted row by row, and the percentage is a quotient of numbers. -/
theorem areaPenaltiesCountBlocksAndBalance : Obligations.AreaPenaltiesCountBlocksAndBalance := by
  unfold Obligations.AreaPenaltiesCountBlocksAndBalance
  intro n f
  constructor
  · rw [scoreN2, blocksOf_gridOf]
  · intro hn
    rw [percentage_eq_div hn, Rat.floor_natCast_div_natCast, scoreN4, gridOf_length,
      darkCount_eq_count]
    push_cast
    rfl

end Sys2Proof.Machine

namespace Sys2Proof.Machine

/-! ### Bounds of the components (R165) -/

theorem runCost_le (len : Nat) : runCost len ≤ len - 2 := by
  unfold runCost
  split <;> omega

/-- The runs of a line cost at most its length less 2, as if it were one run. -/
theorem sum_runCost_runsFrom_le (line : List Bool) (x : Bool) (len : Nat) :
    ((runsFrom x len line).map runCost).sum ≤ len + line.length - 2 := by
  induction line generalizing x len with
  | nil => simpa [runsFrom] using runCost_le len
  | cons y line ih =>
    have hsame := ih x (len + 1)
    have hnew := ih y 1
    have hlen := runCost_le len
    unfold runsFrom
    split
    case isTrue =>
      rw [List.length_cons]
      omega
    case isFalse =>
      rw [List.map_cons, List.sum_cons, List.length_cons]
      omega

theorem sum_runCost_runs_le (line : List Bool) :
    ((runs line).map runCost).sum ≤ line.length - 2 := by
  cases line with
  | nil => exact Nat.zero_le _
  | cons x line =>
    have := sum_runCost_runsFrom_le line x 1
    rwa [Nat.add_comm] at this

theorem windowsIn_le (line : List Bool) : windowsIn line ≤ line.length - 6 := by
  rw [windowsIn_eq_countP]
  exact List.countP_le_length.trans_eq List.length_range

theorem sum_map_linesSpec_le {n b : Nat} {cost : List Bool → Nat} (f : Nat → Nat → Bool)
    (h : ∀ line, line.length = n → cost line ≤ b) :
    ((linesSpec n f).map cost).sum ≤ 2 * n * b := by
  have hsum := List.sum_le_card_nsmul ((linesSpec n f).map cost) b (by
    rw [List.forall_mem_map]
    exact fun line hline => h line (length_of_mem_linesSpec hline))
  rwa [List.length_map, linesSpec_length, smul_eq_mul] at hsum

section Bounds

variable (n : Nat) (f : Nat → Nat → Bool)

theorem scoreN1_gridOf_le : scoreN1 (gridOf n f) ≤ 2 * n * (n - 2) := by
  rw [scoreN1, linesOf_gridOf]
  exact sum_map_linesSpec_le f fun line h => h ▸ sum_runCost_runs_le line

theorem scoreN2_gridOf_le : scoreN2 (gridOf n f) ≤ 3 * ((n - 1) * (n - 1)) := by
  rw [scoreN2, blocksOf_gridOf]
  refine Nat.mul_le_mul_left 3 ((Finset.card_filter_le _ _).trans_eq ?_)
  rw [Finset.card_product, Finset.card_range]

theorem scoreN3_gridOf_le : scoreN3 (gridOf n f) ≤ 40 * (2 * n * (n - 6)) := by
  rw [scoreN3, linesOf_gridOf]
  exact Nat.mul_le_mul_left 40 (sum_map_linesSpec_le f fun line h => h ▸ windowsIn_le line)

theorem darkCount_gridOf_le : darkCount (gridOf n f) ≤ n * n := by
  rw [darkCount_eq_count]
  refine List.count_le_length.trans_eq ?_
  simp [gridOf, List.length_flatten, Function.comp_def]

theorem scoreN4_gridOf_le : scoreN4 (gridOf n f) ≤ 100 := by
  have hdark := darkCount_gridOf_le n f
  have hdiv : ((20 * darkCount (gridOf n f) : Nat) - (10 * (n * n) : Nat) : Int).natAbs / (n * n) ≤
      10 := Nat.div_le_of_le_mul (by omega)
  rw [scoreN4, gridOf_length]
  exact Nat.mul_le_mul_left 10 hdiv

end Bounds

/-- Settles O55: each bound grows with the side, and at side 57 it is the spec's number. -/
theorem penaltiesStayBelowTheirBounds : Obligations.PenaltiesStayBelowTheirBounds := by
  unfold Obligations.PenaltiesStayBelowTheirBounds
  intro n f hn
  have h1 : scoreN1 (gridOf n f) ≤ 6270 := (scoreN1_gridOf_le n f).trans
    (Nat.mul_le_mul (by omega : 2 * n ≤ 114) (by omega : n - 2 ≤ 55))
  have h2 : scoreN2 (gridOf n f) ≤ 9408 := (scoreN2_gridOf_le n f).trans
    (Nat.mul_le_mul_left 3 (Nat.mul_le_mul (by omega : n - 1 ≤ 56) (by omega : n - 1 ≤ 56)))
  have h3 : scoreN3 (gridOf n f) ≤ 232560 := (scoreN3_gridOf_le n f).trans
    (Nat.mul_le_mul_left 40 (Nat.mul_le_mul (by omega : 2 * n ≤ 114) (by omega : n - 6 ≤ 51)))
  have h4 := scoreN4_gridOf_le n f
  have htotal : (scoreColours (gridOf n f)).total ≤ 248338 := by
    simp only [scoreColours, Penalty.total]
    omega
  exact ⟨h1, h2, h3, h4, htotal, htotal.trans_lt (by norm_num)⟩

end Sys2Proof.Machine

namespace Sys2Proof.Machine

/-! ### `MX.SCORE` (R166) -/

theorem colours_eq_gridOf {n : Nat} {g : Grid} (h : gridSquare n g) :
    colours g = gridOf n fun r c => cell g r c == .dark := by
  obtain ⟨hrows, hrow⟩ := h
  refine List.ext_getElem (by simp [colours, hrows]) fun r hr _ => ?_
  have hr' : r < g.length := by simpa [colours] using hr
  have hlen := hrow _ (List.getElem_mem hr')
  refine List.ext_getElem (by simp [colours, gridOf, hlen]) fun c hc _ => ?_
  have hc' : c < g[r].length := by simpa [colours] using hc
  simp [colours, gridOf, cell, hr', hc']

theorem score_eq_gridOf {n : Nat} {g : Grid} (h : gridSquare n g) :
    score g = scoreColours (gridOf n fun r c => cell g r c == .dark) := by
  rw [score, colours_eq_gridOf h]

theorem wordOf_toNat {n : Nat} (h : n < 2 ^ 18) : (wordOf n).toNat = n :=
  Nat.mod_eq_of_lt (h.trans (by norm_num))

/-- No total wraps (R165). -/
theorem score_total_lt {n : Nat} {g : Grid} (h : gridSquare n g) (hn : n ≤ 57) :
    (score g).total < 2 ^ 18 := by
  obtain ⟨-, -, -, -, -, hlt⟩ := penaltiesStayBelowTheirBounds n (fun r c => cell g r c == .dark) hn
  rwa [score_eq_gridOf h]

theorem penOf_toNat {p : Penalty} (h : p.total < 2 ^ 18) :
    (penOf p).toList.map BitVec.toNat = [p.total, p.n1, p.n2, p.n3, p.n4] := by
  have ⟨h1, h2, h3, h4⟩ : p.n1 < 2 ^ 18 ∧ p.n2 < 2 ^ 18 ∧ p.n3 < 2 ^ 18 ∧ p.n4 < 2 ^ 18 := by
    unfold Penalty.total at h
    omega
  simp [penOf, wordOf_toNat h, wordOf_toNat h1, wordOf_toNat h2, wordOf_toNat h3,
    wordOf_toNat h4]

/-- The state after `MX.SCORE` on a full matrix. -/
def scored (s : State) : State := setRes (wordOf (score s.mx).total) (setPen (penOf (score s.mx)) s)

theorem exec_mxScore_of_full {s : State} (hver : s.ver ≠ 0#4) (hfull : hasUnset s.mx = false) :
    exec .mxScore s = .next (scored s) :=
  (if_neg hver).trans (if_neg (hfull ▸ Bool.false_ne_true))

theorem exec_mxScore_of_ver_zero {s : State} (hver : s.ver = 0#4) :
    exec .mxScore s = .next (faultEntry .invalidSequence (encode .mxScore) s) := if_pos hver

theorem onlyChanges_scored (s : State) : OnlyChanges [.pen, .res] s (scored s) :=
  ((onlyChanges_setPen _ s).mono (by simp)).trans ((onlyChanges_setRes _ _).mono (by simp))

theorem hasUnset_iff {n : Nat} {g : Grid} (h : gridSquare n g) :
    hasUnset g = true ↔ ∃ r < n, ∃ c < n, cell g r c = .unset := by
  have := (hasUnset_eq_false h).not
  push Not at this
  rw [Bool.ne_false_iff] at this
  rw [this]
  tauto

/-- Settles O56: a square grid's colours are a colour function's, and its total is far below a
word's range; both checks raise one kind. -/
theorem mxScoreReturnsThePenalty : Obligations.MxScoreReturnsThePenalty := by
  unfold Obligations.MxScoreReturnsThePenalty
  refine ⟨fun s hinv hver hset p hp => ?_, fun s hinv h => ?_⟩
  · have hfull := (hasUnset_eq_false hinv.square).mpr fun r c hr hc => hset r hr c hc
    have hlt := score_total_lt hinv.square (side_le_mxMax hinv.verMax)
    rw [score_eq_gridOf hinv.square, ← hp] at hlt
    refine ⟨_, exec_mxScore_of_full hver hfull, ?_, rfl, onlyChanges_scored s⟩
    rw [scored, score_eq_gridOf hinv.square, ← hp]
    exact penOf_toNat hlt
  · rcases h with hver | hunset
    · exact exec_mxScore_of_ver_zero hver
    · exact exec_mxScore_of_unset ((hasUnset_iff hinv.square).mpr hunset)

end Sys2Proof.Machine

namespace Sys2Proof.Machine

/-! ### The least index of the minimum (R168) -/

/-- `i` is the least index at which the list takes its minimum. -/
structure IsLeastIdx (l : List Nat) (i : Nat) : Prop where
  lt_length : i < l.length
  le : ∀ j < l.length, l.getD i 0 ≤ l.getD j 0
  lt : ∀ j < i, l.getD i 0 < l.getD j 0

theorem getD_concat_length (l : List Nat) (x : Nat) : (l ++ [x]).getD l.length 0 = x := by
  simp

/-- A list grows by an element below all of it: the new place is the least index. -/
theorem IsLeastIdx.concat_of_lt {l : List Nat} {i x : Nat} (h : IsLeastIdx l i)
    (hx : x < l.getD i 0) : IsLeastIdx (l ++ [x]) l.length := by
  have hlt (j : Nat) (hj : j < l.length) :
      (l ++ [x]).getD l.length 0 < (l ++ [x]).getD j 0 := by
    rw [getD_concat_length, List.getD_append _ _ _ _ hj]
    exact hx.trans_le (h.le j hj)
  refine ⟨by simp, fun j hj => ?_, hlt⟩
  rcases Nat.lt_succ_iff_lt_or_eq.mp (by simpa using hj) with hj | rfl
  · exact (hlt j hj).le
  · exact le_rfl

/-- A list grows by an element not below its minimum: the least index stays. -/
theorem IsLeastIdx.concat_of_le {l : List Nat} {i x : Nat} (h : IsLeastIdx l i)
    (hx : l.getD i 0 ≤ x) : IsLeastIdx (l ++ [x]) i := by
  have hi := List.getD_append l [x] 0 i h.lt_length
  refine ⟨by simpa using h.lt_length.le.trans_lt (Nat.lt_succ_self _), fun j hj => ?_,
    fun j hj => ?_⟩
  · rcases Nat.lt_succ_iff_lt_or_eq.mp (by simpa using hj) with hj | rfl
    · rw [hi, List.getD_append _ _ _ _ hj]
      exact h.le j hj
    · rwa [hi, getD_concat_length]
  · rw [hi, List.getD_append _ _ _ _ (hj.trans h.lt_length)]
    exact h.lt j hj

/-- The search over the rest of a list keeps the least index of what it has seen. -/
theorem isLeastIdx_leastFrom (rest : List Nat) {seen : List Nat} {i : Nat}
    (h : IsLeastIdx seen i) :
    IsLeastIdx (seen ++ rest) (leastFrom (seen.getD i 0) i seen.length rest) := by
  induction rest generalizing seen i with
  | nil => rwa [List.append_nil]
  | cons x rest ih =>
    rw [leastFrom, List.append_cons]
    split
    case isTrue hx =>
      have hnew := ih (h.concat_of_lt hx)
      rwa [getD_concat_length, List.length_append] at hnew
    case isFalse hx =>
      have hold := ih (h.concat_of_le (Nat.not_lt.mp hx))
      rwa [List.getD_append _ _ _ _ h.lt_length, List.length_append] at hold

theorem isLeastIdx_leastIdx {l : List Nat} (h : l ≠ []) : IsLeastIdx l (leastIdx l) := by
  cases l with
  | nil => contradiction
  | cons x rest =>
    exact isLeastIdx_leastFrom rest (seen := [x]) (i := 0) ⟨by simp, by simp, by simp⟩

/-! ### The search (R168) -/

/-- The trial state of mask `m`: `MX.BUILD v, 1, m` on the codeword store. -/
def trialState (v : BitVec 4) (s : State) (m : Nat) : State :=
  setMatrix v (buildGrid Config.remainderMasked v.toNat true m s.cw) false s

section Search

variable {v : BitVec 4} {s : State}

/-- The totals of the eight trials, by mask. -/
def totals (v : BitVec 4) (s : State) : List Nat :=
  (trials Config.remainderMasked v.toNat s.cw).map Penalty.total

/-- The mask that the search keeps. -/
def bestMask (v : BitVec 4) (s : State) : Nat := leastIdx (totals v s)

theorem isLeastIdx_bestMask (v : BitVec 4) (s : State) : IsLeastIdx (totals v s) (bestMask v s) :=
  isLeastIdx_leastIdx (by simp [totals, trials])

@[simp] theorem totals_length : (totals v s).length = 8 := by simp [totals, trials]

theorem bestMask_lt (v : BitVec 4) (s : State) : bestMask v s < 8 :=
  totals_length (v := v) (s := s) ▸ (isLeastIdx_bestMask v s).lt_length

theorem trials_getD {m : Nat} (hm : m < 8) (p : Penalty) :
    (trials Config.remainderMasked v.toNat s.cw).getD m p = score (trialState v s m).mx := by
  rw [trials, List.getD_eq_getElem _ _ (by simpa using hm), List.getElem_map, List.getElem_range]
  rfl

theorem totals_getD {m : Nat} (hm : m < 8) :
    (totals v s).getD m 0 = (score (trialState v s m).mx).total :=
  (List.getD_map (d := (⟨0, 0, 0, 0⟩ : Penalty)) ..).trans
    (congrArg Penalty.total (trials_getD hm _))

/-- A trial is full, so `MX.SCORE` scores it. -/
theorem exec_mxScore_trialState (hv : versionOk v = true) (m : Nat) :
    exec .mxScore (trialState v s m) = .next (scored (trialState v s m)) :=
  have ⟨h1, h10⟩ := versionOk_iff.mp hv
  exec_mxScore_of_full (ver_ne_zero_of_versionOk hv) (hasUnset_buildGrid s.cw h1 h10)

/-- `TPEN[m]` is what `MX.SCORE` returns of the trial of mask `m`. -/
theorem searchBest_tpen (m : Fin 8) :
    (searchBest v s).tpen[m] = (scored (trialState v s m)).res := by
  have h : (searchBest v s).tpen[m] = wordOf ((totals v s).getD m 0) := by
    simp [searchBest, tpenOf, totals]
  rw [h, totals_getD m.isLt]
  rfl

/-- No total wraps in `TPEN`, so that its words compare as the totals do. -/
theorem searchBest_tpen_toNat (hv : versionOk v = true) (m : Fin 8) :
    (searchBest v s).tpen[m].toNat = (totals v s).getD m 0 := by
  have ⟨h1, h10⟩ := versionOk_iff.mp hv
  rw [searchBest_tpen, totals_getD m.isLt]
  exact wordOf_toNat (score_total_lt (gridSquare_buildGrid ..) (by unfold sideOf; omega))

theorem searchBest_pen : (searchBest v s).pen = (scored (trialState v s (bestMask v s))).pen :=
  congrArg penOf (trials_getD (bestMask_lt v s) _)

theorem searchBest_bmask_toNat : (searchBest v s).bmask.toNat = bestMask v s :=
  Nat.mod_eq_of_lt (bestMask_lt v s)

theorem exec_encBest (v : BitVec 4) (s : State) : exec (.encBest v) s =
    .next (setRes ((searchBest v s).bmask.setWidth 32) (searchBest v s)) := rfl

theorem exec_mxBuild_fin (v : BitVec 4) (test : Bool) (m : Fin 8) (s : State) :
    exec (.mxBuild v test (BitVec.ofNat 4 m)) s = .next
      (setMatrix v (buildGrid Config.remainderMasked v.toNat test m s.cw) (!test) s) := by
  have hm : (BitVec.ofNat 4 m).toNat = m := Nat.mod_eq_of_lt (m.isLt.trans (by norm_num))
  rw [exec_mxBuild (hm.trans_lt m.isLt), hm]

end Search

/-- Settles O57: `TPEN` holds the totals exactly, and the kept mask is their least index. -/
theorem encBestKeepsTheLeastPenalty : Obligations.EncBestKeepsTheLeastPenalty := by
  unfold Obligations.EncBestKeepsTheLeastPenalty
  intro v s hv
  have hbest := isLeastIdx_bestMask v s
  refine ⟨_, ⟨bestMask v s, bestMask_lt v s⟩, fun m => trialState v s m,
    fun m => scored (trialState v s m), _, exec_encBest v s,
    fun m => ⟨exec_mxBuild_fin v true m s, exec_mxScore_trialState hv m, searchBest_tpen m⟩,
    fun m => ?_, fun m hm => ?_, exec_mxBuild_fin v false _ s, rfl, rfl, rfl, searchBest_pen, ?_,
    searchBest_bmask_toNat, ?_, ?_⟩
  · rw [setRes_tpen, searchBest_tpen_toNat hv, searchBest_tpen_toNat hv]
    exact hbest.le m (totals_length.symm ▸ m.isLt)
  · rw [setRes_tpen, searchBest_tpen_toNat hv, searchBest_tpen_toNat hv]
    exact hbest.lt m hm
  · rw [setRes_pen, setRes_tpen, searchBest_pen, searchBest_tpen]
    rfl
  · rw [setRes_res, BitVec.toNat_setWidth_of_le (by norm_num)]
    exact searchBest_bmask_toNat
  · exact ((onlyChanges_searchBest v s).mono (by simp)).trans
      ((onlyChanges_setRes _ _).mono (by simp))

end Sys2Proof.Machine

namespace Sys2Proof.Machine

/-! ### `ENC.RUN` (46_encoder.md R170 to R174) -/

section Run

variable {v : BitVec 4} {s s' : State}

/-- The version numbers 1 to 10 are the values of the legal version fields (R66). -/
theorem exists_versionField {u : Nat} (h : 1 ≤ u ∧ u ≤ 10) :
    ∃ v : BitVec 4, versionOk v = true ∧ v.toNat = u :=
  have hu : (BitVec.ofNat 4 u).toNat = u := Nat.mod_eq_of_lt (by omega)
  ⟨BitVec.ofNat 4 u, versionOk_iff.mpr (hu.symm ▸ h), hu⟩

/-- What `EC.ASM v` and `EC.ENC v` leave when the data list fits: its stream and its codewords
(R123, R128). -/
def coded (v : BitVec 4) (s : State) : State :=
  setCode (codewordsOf v.toNat (streamOf s.items v.toNat).buf) (setBits (streamOf s.items v.toNat) s)

@[simp] theorem coded_err (v : BitVec 4) (s : State) : (coded v s).err = s.err := rfl

theorem exec_ecEnc_setBits_streamOf (h : preLen s.items v.toNat ≤ cap v.toNat) :
    exec (.ecEnc v) (setBits (streamOf s.items v.toNat) s) = .next (coded v s) :=
  exec_ecEnc_of_eq (streamOf_len h)

/-- `ENC.RUN` searches on the coded list and puts the side length in `RES` (R172). -/
theorem exec_encRun_of_version (h : selectVersion s.items = some v.toNat) :
    exec .encRun s = .next (setRes (wordOf (sideOf v.toNat)) (searchBest v (coded v s))) := by
  rw [exec_encRun_of_some h, BitVec.ofNat_toNat, BitVec.setWidth_eq]
  rfl

theorem onlyChanges_coded (v : BitVec 4) (s : State) : OnlyChanges [.bits, .code] s (coded v s) :=
  ((onlyChanges_setBits _ s).mono (by simp)).trans ((onlyChanges_setCode _ _).mono (by simp))

/-- The search reads the codeword store only (R168). -/
theorem searchBest_of_cw_eq (v : BitVec 4) (h : s.cw = s'.cw) :
    (searchBest v s).mx = (searchBest v s').mx ∧
    (searchBest v s).bmask = (searchBest v s').bmask ∧
    (searchBest v s).tpen = (searchBest v s').tpen ∧
    (searchBest v s).pen = (searchBest v s').pen := by
  unfold searchBest
  rw [h]
  exact ⟨rfl, rfl, rfl, rfl⟩

/-- The coding reads the item store only (R123, R128). -/
theorem coded_of_items_eq (v : BitVec 4) (h : s.items = s'.items) :
    (coded v s).cw = (coded v s').cw ∧ (coded v s).bs = (coded v s').bs := by
  unfold coded
  rw [h]
  exact ⟨rfl, rfl⟩

end Run

/-- Settles O19: the items fix the version, the stream and the codewords, and the search reads nothing
else. -/
theorem encRunDependsOnTheItemsOnly : Obligations.EncRunDependsOnTheItemsOnly := by
  unfold Obligations.EncRunDependsOnTheItemsOnly
  intro s s' t t' hlen hbytes he he' h h'
  have hitems : s.items = s'.items := congrArg₂ splitItems hlen hbytes
  cases hsel : selectVersion s.items with
  | none =>
    rw [exec_encRun_of_none hsel] at h
    rw [exec_encRun_of_none (hitems ▸ hsel)] at h'
    rw [← next_inj h, ← next_inj h']
    exact ⟨rfl, nofun⟩
  | some u =>
    obtain ⟨v, -, rfl⟩ := exists_versionField (selectVersion_some hsel).1
    rw [exec_encRun_of_version hsel] at h
    rw [exec_encRun_of_version (hitems ▸ hsel)] at h'
    obtain ⟨hcw, hbs⟩ := coded_of_items_eq v hitems
    obtain ⟨hmx, hbmask, htpen, hpen⟩ := searchBest_of_cw_eq v hcw
    rw [← next_inj h, ← next_inj h']
    simp [he, he', hmx, hbmask, htpen, hpen, hcw, hbs]

/-- Settles O58: `select` finds the least version, and the commands of the pipeline compose to
`ENC.RUN` but for `RES`. -/
theorem encRunIsThePipelineAtTheLeastVersion : Obligations.EncRunIsThePipelineAtTheLeastVersion := by
  unfold Obligations.EncRunIsThePipelineAtTheLeastVersion
  simp only [listBits_length]
  refine fun s => ⟨fun v hv hfit hleast => ?_, fun hnone => ?_⟩
  · have hrange := versionOk_iff.mp hv
    have hsel : selectVersion s.items = some v.toNat := by
      refine selectVersion_eq_some_iff.mpr ⟨hrange, hfit, fun u h1 hlt => ?_⟩
      obtain ⟨u, hu, rfl⟩ := exists_versionField (u := u) (by omega)
      exact hleast u hu hlt
    have hlen := streamOf_len hfit
    have hbuf := buf_length_of_len_eq_cap (streamOf_ok hfit) hlen
    refine ⟨_, _, _, _, exec_ecAsm_of_le hfit, exec_ecEnc_setBits_streamOf hfit, exec_encBest v _,
      exec_encRun_of_version hsel, rfl, hlen, codewordsOf_length hbuf, rfl, rfl, ?_⟩
    exact ((onlyChanges_coded v s).mono (by simp)).trans
      (((onlyChanges_searchBest v _).mono (by simp)).trans
        ((onlyChanges_setRes _ _).mono (by simp)))
  · refine exec_encRun_of_none (selectVersion_eq_none_iff.mpr fun u hu => ?_)
    rw [List.mem_range'_1] at hu
    obtain ⟨v, hv, rfl⟩ := exists_versionField (u := u) (by omega)
    exact hnone v hv

end Sys2Proof.Machine

namespace Sys2Proof.Machine

/-! ### The system commands (47_system.md) -/

/-- The all-zero word is `NOP`, and the fault state discards it (R175, R190). -/
theorem issue_zero (s : State) : issue 0#32 s = .next s := by
  by_cases h : s.err = none
  · exact issue_of_decode h (decode_encode (i := .nop) rfl)
  · exact issue_of_fault h 0#32

/-- `SRST` runs in every state, the fault state included (R176, R190). -/
theorem issue_srst (s : State) : issue 0x01000000#32 s = .next (unitReset s) := by
  by_cases h : s.err = none
  · exact issue_of_decode h (decode_encode (i := .srst) rfl)
  · exact issue_of_fault h 0x01000000#32

/-- The row of `NOP` has no field, so every other word of its opcode has a reserved bit set (R70, R71). -/
theorem decode_error_of_opcode_zero {w : Word} (hop : bits w 24 8 = 0#8) (hw : w ≠ 0#32) :
    ∃ e, decode w = .error e := by
  refine decode_error_of_reserved (r := ⟨"NOP", 0x00000000, 0xFFFFFFFF, .always⟩) (.head _) hop.symm ?_
  have hmask : w &&& 0xFFFFFFFF#32 = w := BitVec.and_allOnes
  exact hmask.symm ▸ hw

/-- `STATUS` shows elements of the unit only, so after a reset it reads as in the reset state (R16). -/
theorem statusWord_unitReset (s : State) : statusWord (unitReset s) = statusWord State.reset := by
  simp [statusWord, errCode]

/-- Settles O11: `SRST` and the reset input both lead to `unitReset s`, every element of which has its
reset value. -/
theorem nopKeepsAndSrstResetsEveryElement : Obligations.NopKeepsAndSrstResetsEveryElement := by
  unfold Obligations.NopKeepsAndSrstResetsEveryElement
  refine ⟨fun s => ⟨rfl, issue_zero s⟩, fun w s hop hw herr => ?_, fun s => ?_⟩
  · exact issue_of_not_takes herr
      ((decode_error_iff_not_takes w).mp (decode_error_of_opcode_zero hop hw))
  · refine ⟨unitReset s, rfl, issue_srst s, rfl, ?_⟩
    have hstatus : windowRead 0x08 (unitReset s) = 0#32 := statusWord_unitReset s
    exact ⟨rfl, rfl, rfl, rfl, rfl, rfl, (polyOf_unitReset · s), rfl, rfl, rfl, rfl, rfl, rfl, rfl, rfl,
      hstatus, rfl, rfl, rfl⟩

end Sys2Proof.Machine

namespace Sys2Proof.Machine

/-! ### Every command raises a kind of its own, or completes with its own writes (R180, R184) -/

/-- The two answers of a command outside the fault state: it raises a kind in whose list of R180 it
stands, or it completes and changes only the elements that its rule writes. -/
def RaisesOrCompletes (i : Instr) (s : State) (r : Result) : Prop :=
  (∃ k, mayRaise k i = true ∧ r = raise k i s) ∨
    ∃ t, r = .next t ∧ t.err = none ∧ OnlyChanges (writes i) s t

theorem maskIndex_eq_none_iff {mask : BitVec 4} : maskIndex mask = none ↔ 8 ≤ mask.toNat := by
  simp [maskIndex]

/-- The list of `InvalidMaskPattern` is given by the mask fields (R183). -/
theorem mayRaise_invalidMaskPattern (i : Instr) :
    mayRaise .invalidMaskPattern i = i.maskField.any fun m => decide (8 ≤ m.toNat) := by
  cases i <;> rfl

section RaisesOrCompletes

variable {i : Instr} {s t : State}

theorem raisesOrCompletes_raise {k : ErrKind} (h : mayRaise k i = true) :
    RaisesOrCompletes i s (raise k i s) := .inl ⟨k, h, rfl⟩

theorem raisesOrCompletes_next (he : t.err = none) (h : OnlyChanges (writes i) s t) :
    RaisesOrCompletes i s (.next t) := .inr ⟨t, rfl, he, h⟩

theorem raisesOrCompletes_mask {mask : BitVec 4} (hi : i.maskField = some mask)
    (h : maskIndex mask = none) : RaisesOrCompletes i s (raise .invalidMaskPattern i s) := by
  refine raisesOrCompletes_raise ?_
  rw [mayRaise_invalidMaskPattern, hi]
  exact decide_eq_true (maskIndex_eq_none_iff.mp h)

/-- A check raises its kind, or what stands behind it decides (R75, R189). -/
theorem raisesOrCompletes_check {c : Prop} [Decidable c] {k : ErrKind} {r : Result}
    (h : mayRaise k i = true) (hr : RaisesOrCompletes i s r) :
    RaisesOrCompletes i s (if c then raise k i s else r) := by
  split
  · exact raisesOrCompletes_raise h
  · exact hr

theorem raisesOrCompletes_setRes (he : s.err = none) (hw : .res ∈ writes i) (v : Word) :
    RaisesOrCompletes i s (.next (setRes v s)) :=
  raisesOrCompletes_next he ((onlyChanges_setRes v s).mono (by simpa))

theorem raisesOrCompletes_setPoly (he : s.err = none) {pd : PReg} (hw : .poly pd ∈ writes i)
    (p : Poly) : RaisesOrCompletes i s (.next (setPoly pd p s)) :=
  raisesOrCompletes_next ((setPoly_err pd p s).trans he)
    ((onlyChanges_setPoly pd p s).mono (by simpa))

theorem raisesOrCompletes_setBits (he : s.err = none) (hw : .bits ∈ writes i) (b : BitStore) :
    RaisesOrCompletes i s (.next (setBits b s)) :=
  raisesOrCompletes_next he ((onlyChanges_setBits b s).mono (by simpa))

theorem raisesOrCompletes_setItems (he : s.err = none) (hw : .items ∈ writes i) (lens : List Nat)
    (bytes : List Byte) : RaisesOrCompletes i s (.next (setItems lens bytes s)) :=
  raisesOrCompletes_next he ((onlyChanges_setItems lens bytes s).mono (by simpa))

theorem raisesOrCompletes_setMatrix (he : s.err = none)
    (hw : ∀ e ∈ [.ver, .matrix, .fin], e ∈ writes i) (v : BitVec 4) (g : Grid) (fin : Bool) :
    RaisesOrCompletes i s (.next (setMatrix v g fin s)) :=
  raisesOrCompletes_next he ((onlyChanges_setMatrix v g fin s).mono hw)

theorem raisesOrCompletes_placed (he : s.err = none) (hw : ∀ e ∈ [.matrix, .fin], e ∈ writes i)
    (g : Grid) : RaisesOrCompletes i s (placed g s) :=
  raisesOrCompletes_next he ((onlyChanges_setMatrix_same_ver g false s).mono hw)

end RaisesOrCompletes

/-- `SRST` writes every element but the host's two (R176). -/
theorem onlyChanges_unitReset (s : State) : OnlyChanges (writes .srst) s (unitReset s) := by
  intro e he
  cases e with
  | poly r => cases r <;> simp [writes] at he
  | inbox | rdata => rfl
  | _ => simp [writes] at he

theorem raisesOrCompletes_encRun {s : State} (he : s.err = none) :
    RaisesOrCompletes .encRun s (exec .encRun s) := by
  cases hsel : selectVersion s.items with
  | none =>
    rw [exec_encRun_of_none hsel]
    exact raisesOrCompletes_raise (k := .capacityExceeded) rfl
  | some u =>
    obtain ⟨v, -, rfl⟩ := exists_versionField (selectVersion_some hsel).1
    rw [exec_encRun_of_version hsel]
    refine raisesOrCompletes_next (by rw [setRes_err, searchBest_err, coded_err, he]) ?_
    exact ((onlyChanges_coded v s).mono (by simp [writes])).trans
      (((onlyChanges_searchBest v _).mono (by simp [writes])).trans
        ((onlyChanges_setRes _ _).mono (by simp [writes])))

theorem raisesOrCompletes_encBest {s : State} (he : s.err = none) (v : BitVec 4) :
    RaisesOrCompletes (.encBest v) s (exec (.encBest v) s) :=
  raisesOrCompletes_next (by rw [setRes_err, searchBest_err, he])
    (((onlyChanges_searchBest v s).mono (by simp [writes])).trans
      ((onlyChanges_setRes _ _).mono (by simp [writes])))

/-- Outside the fault state every command gives one of its two answers (R180, R184, R211). -/
theorem raisesOrCompletes_exec {s : State} (he : s.err = none) (i : Instr) :
    RaisesOrCompletes i s (exec i s) := by
  cases i with
  | nop => exact raisesOrCompletes_next he (onlyChanges_refl _ s)
  | srst => exact raisesOrCompletes_next rfl (onlyChanges_unitReset s)
  | gfExp | gfMul | pLen | bsLen | cwLen | ecCap | mxN | mxRdp =>
    exact raisesOrCompletes_setRes he (by simp [writes]) _
  | gfLog a =>
    by_cases ha : a = 0#8
    · subst ha
      exact raisesOrCompletes_raise (k := .invalidFieldOperand) rfl
    · rw [exec, execGfLog, glog_of_ne ha]
      exact raisesOrCompletes_setRes he (by simp [writes]) _
  | pGet | cwRd =>
    simp only [exec, execPGet, execCwRd]
    split
    · exact raisesOrCompletes_raise rfl
    · exact raisesOrCompletes_setRes he (by simp [writes]) _
  | bsRdb | mxGet =>
    exact raisesOrCompletes_check rfl (raisesOrCompletes_setRes he (by simp [writes]) _)
  | mkEval | encRdt =>
    simp only [exec, execMkEval, execEncRdt]
    split
    · exact raisesOrCompletes_mask rfl ‹_›
    · exact raisesOrCompletes_setRes he (by simp [writes]) _
  | pClr | pGen => exact raisesOrCompletes_setPoly he (by simp [writes]) _
  | pPush | pMk | pMul =>
    exact raisesOrCompletes_check rfl (raisesOrCompletes_setPoly he (by simp [writes]) _)
  | pMod =>
    simp only [exec, execPMod]
    split
    · exact raisesOrCompletes_raise rfl
    · exact raisesOrCompletes_setPoly he (by simp [writes]) _
  | bsClr => exact raisesOrCompletes_setBits he (by simp [writes]) _
  | bsPut | bsPutb =>
    exact raisesOrCompletes_check rfl (raisesOrCompletes_setBits he (by simp [writes]) _)
  | ecAsm =>
    simp only [exec, execEcAsm]
    split
    · exact raisesOrCompletes_raise rfl
    · exact raisesOrCompletes_setBits he (by simp [writes]) _
  | plClr => exact raisesOrCompletes_setItems he (by simp [writes]) _ _
  | plSeg =>
    exact raisesOrCompletes_check rfl (raisesOrCompletes_setItems he (by simp [writes]) _ _)
  | plPush =>
    exact raisesOrCompletes_check rfl
      (raisesOrCompletes_check rfl (raisesOrCompletes_setItems he (by simp [writes]) _ _))
  | ecEnc => exact raisesOrCompletes_check rfl (raisesOrCompletes_next he (onlyChanges_setCode _ s))
  | mxInit => exact raisesOrCompletes_setMatrix he (by simp [writes]) _ _ _
  | mxFind | mxAlgn | mxTime | mxVinf =>
    exact raisesOrCompletes_check rfl (raisesOrCompletes_placed he (by simp [writes]) _)
  | mxFmt | mxData =>
    refine raisesOrCompletes_check rfl ?_
    split
    · exact raisesOrCompletes_mask rfl ‹_›
    · exact raisesOrCompletes_placed he (by simp [writes]) _
  | mxBuild =>
    simp only [exec, execMxBuild]
    split
    · exact raisesOrCompletes_mask rfl ‹_›
    · exact raisesOrCompletes_setMatrix he (by simp [writes]) _ _ _
  | mxScore =>
    refine raisesOrCompletes_check rfl (raisesOrCompletes_check rfl (raisesOrCompletes_next he ?_))
    exact ((onlyChanges_setPen _ s).mono (by simp [writes])).trans
      ((onlyChanges_setRes _ _).mono (by simp [writes]))
  | encBest v => exact raisesOrCompletes_encBest he v
  | encRun => exact raisesOrCompletes_encRun he

/-- A command that ends with `ERR` set raised a kind of its list, and nothing else (R180, R184). -/
theorem exec_eq_faultEntry {i : Instr} {s t : State} {k : ErrKind} (he : s.err = none)
    (h : exec i s = .next t) (ht : t.err = some k) :
    mayRaise k i = true ∧ t = faultEntry k (encode i) s := by
  rcases raisesOrCompletes_exec he i with ⟨k', hk, e⟩ | ⟨u, e, hu, -⟩
  · obtain rfl := raise_next (e.symm.trans h)
    obtain rfl := Option.some_inj.mp ht
    exact ⟨hk, rfl⟩
  · obtain rfl := next_inj (h.symm.trans e)
    exact nomatch hu.symm.trans ht

/-- No command raises `InvalidCommand`: only the decoder does (R186). -/
theorem mayRaise_invalidCommand (i : Instr) : mayRaise .invalidCommand i = false := by
  cases i <;> rfl

/-- A word that ends with `ERR` set raised one kind with the word itself: `InvalidCommand` when it
is illegal, else a kind of its command's list (R180, R184, R186). -/
theorem issue_eq_faultEntry {w : Word} {s t : State} {k : ErrKind} (he : s.err = none)
    (h : issue w s = .next t) (ht : t.err = some k) :
    t = faultEntry k w s ∧
      ((k = .invalidCommand ∧ ∃ e, decode w = .error e) ∨
        ∃ i, decode w = .ok i ∧ mayRaise k i = true) := by
  rcases issue_cases w s with ⟨hf, -⟩ | ⟨hf, -⟩ | ⟨-, hd, e⟩ | ⟨-, i, hd, e⟩
  · exact absurd he hf
  · exact absurd he hf
  · obtain rfl := next_inj (h.symm.trans e)
    obtain rfl := Option.some_inj.mp ht
    exact ⟨rfl, .inl ⟨rfl, hd⟩⟩
  · obtain ⟨hk, rfl⟩ := exec_eq_faultEntry he (e.symm.trans h) ht
    rw [(decode_eq_ok_iff_encode.mp hd).1]
    exact ⟨rfl, .inr ⟨i, hd, hk⟩⟩

/-- Settles O12: a word or command that ends with `ERR` set answered a fault entry with that word
(`issue_eq_faultEntry`, `exec_eq_faultEntry`). -/
theorem faultsArePrecise : Obligations.FaultsArePrecise := by
  unfold Obligations.FaultsArePrecise
  refine ⟨fun w s t he h ht => ?_, fun i s t he h ht => ?_⟩
  · obtain ⟨k, hk⟩ := Option.ne_none_iff_exists'.mp ht
    obtain ⟨rfl, -⟩ := issue_eq_faultEntry he h hk
    exact ⟨rfl, rfl, onlyChanges_faultEntry k w s⟩
  · obtain ⟨k, hk⟩ := Option.ne_none_iff_exists'.mp ht
    obtain ⟨-, rfl⟩ := exec_eq_faultEntry he h hk
    exact ⟨rfl, rfl, onlyChanges_faultEntry k (encode i) s⟩

/-- Settles O13: every raise of a command is in its list, `InvalidCommand` in none, so an
`InvalidCommand` is the decoder's. -/
theorem onlyTheListedCommandsRaiseEachKind : Obligations.OnlyTheListedCommandsRaiseEachKind := by
  unfold Obligations.OnlyTheListedCommandsRaiseEachKind
  refine ⟨fun i s t k he h ht => (exec_eq_faultEntry he h ht).1, fun w s t he h ht => ?_⟩
  rcases (issue_eq_faultEntry he h ht).2 with ⟨-, herr⟩ | ⟨i, -, hk⟩
  · exact (decode_error_iff_not_takes w).mp herr
  · exact nomatch (mayRaise_invalidCommand i).symm.trans hk

/-- Settles O16 from the two answers of each command (`raisesOrCompletes_exec`). -/
theorem commandsAnswerAndWriteOnlyTheirElements :
    Obligations.CommandsAnswerAndWriteOnlyTheirElements := by
  unfold Obligations.CommandsAnswerAndWriteOnlyTheirElements
  intro i s he
  rcases raisesOrCompletes_exec he i with ⟨k, -, e⟩ | ⟨t, e, ht, honly⟩
  · exact ⟨_, e, nofun, fun _ => onlyChanges_faultEntry k (encode i) s⟩
  · exact ⟨t, e, fun _ => honly, fun hne => absurd ht hne⟩

/-! ### The fault state (R190) -/

/-- Settles O7: a step on a write to `CMD` issues the word, and a register read does not look at
`ERR`. -/
theorem faultStateDiscardsEverythingButSrst : Obligations.FaultStateDiscardsEverythingButSrst := by
  unfold Obligations.FaultStateDiscardsEverythingButSrst
  intro s rest he
  have hissue := fun w => (step_cmdWrite w rest s).trans
    (issue_of_fault (s := { s with inbox := rest }) he w)
  exact ⟨fun w hw => (hissue w).trans (if_neg hw), (hissue _).trans (if_pos rfl),
    fun off hoff => step_read (windowOk_iff.mpr ⟨rfl, hoff⟩) rest s⟩

end Sys2Proof.Machine

namespace Sys2Proof.Machine

/-! ### `MX.DATA` before the function patterns (70_reset_and_hazards.md R209) -/

theorem hasUnset_placeData_of_inv {s : State} (h : s.Inv) (hver : s.ver ≠ 0#4) (masked : Bool)
    (mask : Nat) (cw : List Byte) : hasUnset (placeData masked (side s) mask cw s.mx) = false := by
  have ⟨h1, h10⟩ := versionOk_iff.mp (versionOk_of_inv h hver)
  have hg := h.square
  rw [side_of_ver_ne hver] at hg ⊢
  exact hasUnset_placeData hg h1 h10

/-- On a full matrix `MX.TIME` changes nothing, when `FIN` is 0 already (R141, R209). -/
theorem exec_mxTime_of_full {s : State} (hver : s.ver ≠ 0#4) (hg : gridSquare (side s) s.mx)
    (hfull : hasUnset s.mx = false) (hfin : s.fin = false) : exec .mxTime s = .next s := by
  have h6 : 6 < side s := by
    rw [side_of_ver_ne hver, sideOf]
    omega
  rw [exec_mxTime hver, putTiming_of_full hg h6 hfull, ← hfin]
  rfl

/-! ### `MX.ALGN` before `MX.FIND` (R209) -/

/-- The centres of the three finders (R137). -/
def finderCentres (n : Nat) : List (Nat × Nat) := [(3, 3), (3, n - 4), (n - 4, 3)]

/-- The combinations that stand in the corners of the finders (R209). -/
def cornerPairs (v : Nat) : List (Nat × Nat) := [(6, 6), (6, 4 * v + 10), (4 * v + 10, 6)]

theorem alignPos_add_seven_le : ∀ v ≤ 10, ∀ x ∈ alignPos v, x + 7 ≤ sideOf v := by decide

theorem alignPairs_length : ∀ v ∈ List.range' 7 4, (alignPairs v).length = 9 := by decide

/-- No cell lies both in the pattern of a combination outside the corners and in a finder. -/
theorem alignPairs_apart_finders : ∀ v ∈ List.range' 7 4, ∀ p ∈ alignPairs v, p ∉ cornerPairs v →
    ∀ q ∈ finderCentres (sideOf v), 6 < ring p.1 p.2 q.1 q.2 := by
  unfold ring
  decide

/-- In each corner some Dark cell of the pattern's ring 2 is a Light cell of the finder's ring 4. -/
theorem cornerPairs_meet_finders {v : Nat} {p : Nat × Nat} (hp : p ∈ cornerPairs v) :
    ∃ q ∈ finderCentres (sideOf v), ∃ r c, ring p.1 p.2 r c = 2 ∧ ring q.1 q.2 r c = 4 := by
  have hn : sideOf v - 4 = 4 * v + 13 := by
    unfold sideOf
    omega
  simp only [cornerPairs, List.mem_cons, List.not_mem_nil, or_false] at hp
  rw [finderCentres, hn]
  unfold ring
  rcases hp with rfl | rfl | rfl
  · exact ⟨(3, 3), by simp, 7, 4, by decide, by decide⟩
  · exact ⟨(3, 4 * v + 13), by simp, 7, 4 * v + 12, by omega, by omega⟩
  · exact ⟨(4 * v + 13, 3), by simp, 4 * v + 12, 7, by omega, by omega⟩

/-- Every cell of an alignment pattern lies in the grid (R139). -/
theorem lt_sideOf_of_alignPairs {v r c : Nat} {p : Nat × Nat} (hv : v ≤ 10) (hp : p ∈ alignPairs v)
    (h : ring p.1 p.2 r c ≤ 2) : r < sideOf v ∧ c < sideOf v := by
  obtain ⟨h1, h2⟩ := mem_alignPairs.mp hp
  have := alignPos_add_seven_le v hv _ h1
  have := alignPos_add_seven_le v hv _ h2
  unfold ring at h
  omega

/-- On a blank grid every combination is placed (R140). -/
theorem cell_putAligns_blankGrid {v r c : Nat} {p : Nat × Nat} (hv : v ≤ 10) (hp : p ∈ alignPairs v)
    (h : ring p.1 p.2 r c ≤ 2) :
    cell (putAligns v (blankGrid (sideOf v))) r c = ofDark (ring p.1 p.2 r c ≠ 1) := by
  obtain ⟨hr, hc⟩ := lt_sideOf_of_alignPairs hv hp h
  have hp1 := (lt_sideOf_of_alignPairs hv hp (by rw [ring_self]; omega)).1
  exact (cell_putAligns (gridSquare_blankGrid _) hv hr hc).1 p hp h (cell_blankGrid hp1 _)

/-- The finders that are drawn over the placed combinations change a cell of just the corner ones
(R209). -/
theorem putFinders_changes_iff {v : Nat} (hv : v ∈ List.range' 7 4) {p : Nat × Nat}
    (hp : p ∈ alignPairs v) :
    (∃ r c, ring p.1 p.2 r c ≤ 2 ∧
      cell (putFinders (sideOf v) (putAligns v (blankGrid (sideOf v)))) r c ≠
        cell (putAligns v (blankGrid (sideOf v))) r c) ↔ p ∈ cornerPairs v := by
  have hrange := List.mem_range'_1.mp hv
  have hv10 : v ≤ 10 := by omega
  have hg : gridSquare (sideOf v) (putAligns v (blankGrid (sideOf v))) :=
    gridSquare_putAligns (gridSquare_blankGrid _)
  have hn : 21 ≤ sideOf v := by
    unfold sideOf
    omega
  constructor
  · rintro ⟨r, c, hnear, hne⟩
    obtain ⟨hr, hc⟩ := lt_sideOf_of_alignPairs hv10 hp hnear
    by_contra hcorner
    refine hne ((cell_putFinders_of_centres hg hn hr hc).2 fun q hq => ?_)
    have hapart := alignPairs_apart_finders v hv p hp hcorner q hq
    have htriangle := ring_le_add p.1 p.2 q.1 q.2 r c
    omega
  · intro hcorner
    obtain ⟨q, hq, r, c, h2, h4⟩ := cornerPairs_meet_finders hcorner
    obtain ⟨hr, hc⟩ := lt_sideOf_of_alignPairs hv10 hp h2.le
    refine ⟨r, c, h2.le, ?_⟩
    rw [(cell_putFinders_of_centres hg hn hr hc).1 q hq h4.le,
      cell_putAligns_blankGrid hv10 hp h2.le, h2, h4]
    decide

/-- Settles O60: `placedata` leaves a full matrix, on which `MX.TIME` finds nothing to do; on a
blank matrix no centre is set, and the finders reach the corner combinations only. -/
theorem placementInAnotherOrder : Obligations.PlacementInAnotherOrder := by
  unfold Obligations.PlacementInAnotherOrder
  refine ⟨fun mask s hinv hver hmask => ?_, fun v s h7 h10 => ?_⟩
  · have hfull := hasUnset_placeData_of_inv hinv hver Config.remainderMasked mask.toNat s.cw
    have hplace := gridSquare_placeData (m := side s) (mask := mask.toNat)
      (masked := Config.remainderMasked) (cw := s.cw) hinv.square
    exact ⟨_, exec_mxData hver hmask, rfl, onlyChanges_setMatrix_same_ver _ _ s,
      fun r hr c hc => (hasUnset_eq_false hplace).mp hfull r c hr hc,
      exec_mxTime_of_full hver hplace hfull rfl⟩
  · have hver : v ≠ 0#4 := by bv_omega
    have hv : v.toNat ∈ List.range' 7 4 := List.mem_range'_1.mpr (by omega)
    refine ⟨_, _, _, exec_mxInit v s, exec_mxAlgn hver, exec_mxFind hver, rfl, ?_,
      alignPairs_length _ hv, fun p hp => ?_⟩
    · exact onlyChanges_setMatrix _ _ _ s
    · simp only [setMatrix_ver, setMatrix_mx, side_setMatrix hver]
      exact ⟨fun r c => cell_putAligns_blankGrid h10 hp, putFinders_changes_iff hv hp⟩

end Sys2Proof.Machine
